-- ==== Sys2Proof/Word.lean ====
section
/-! DEFINITION. The word types of WUFFS-LZWD: bytes at the ports, the 32-bit command word, the 12-bit code value. -/

namespace Sys2Proof

/-- One byte of a port or of SUFFIX or STACK (20_memory.md R50). -/
abbrev Byte := BitVec 8

/-- The command word (30_encoding.md R88). -/
abbrev CommandWord := BitVec 32

/-- A code value, zero-extended to 12 bits (30_encoding.md R82). -/
abbrev CodeValue := BitVec 12

end Sys2Proof
end

