-- ==== Sys2Proof/Syntax.lean ====
section
/-! DEFINITION. The instructions (one constructor per row of spec/opcode_table.json) and the names the encodings use. -/

namespace Sys2Proof

/-- The nine rows of spec/opcode_table.json: three host commands (format CMD) and six code classes (format CODE). -/
inductive Instr where
  /-- INIT (40_host_commands.md R101). -/
  | init
  /-- SET_LITERAL_WIDTH w (40_host_commands.md R102). -/
  | setLiteralWidth (w : BitVec 24)
  /-- DECODE (40_host_commands.md R103). Its operands are the Cursors as they stand in the state. -/
  | decode
  /-- LIT, a literal code (42_code_semantics.md R151). -/
  | lit (c : CodeValue)
  /-- CLR, the clear code (42_code_semantics.md R152). -/
  | clr
  /-- END, the end code (42_code_semantics.md R153). -/
  | endCode
  /-- COPY, a code naming an existing entry (42_code_semantics.md R154). -/
  | copy (c : CodeValue)
  /-- KWKWK, a code equal to the next-free slot (42_code_semantics.md R155). -/
  | kwkwk (c : CodeValue)
  /-- OOR, a code above the next-free slot (42_code_semantics.md R156). -/
  | oor (c : CodeValue)
  deriving DecidableEq, Repr

/-- Why a command word has no meaning (30_encoding.md R89, 70_reset_and_hazards.md R240 items 1 and 2). -/
inductive CommandError where
  /-- The opcode is not 0x01, 0x02 or 0x03. -/
  | reservedOpcode
  /-- INIT or DECODE with a nonzero arg field. -/
  | nonzeroArg
  deriving DecidableEq, Repr

/-- The registers that decide a code's class (30_encoding.md R83). -/
structure CodeSpace where
  clearCode : BitVec 9
  endCode : BitVec 9
  saveCode : BitVec 13
  deriving DecidableEq, Repr

/-- What the two encodings carry: a command word of the host, or one code of the stream (30_encoding.md). -/
inductive Encoded where
  | command (w : CommandWord)
  | code (c : CodeValue)
  deriving DecidableEq, Repr

/-- The resume point (10_state.md R30). -/
inductive Phase where
  | idle
  | fill
  | emitLit
  | flush
  deriving DecidableEq, Repr, Inhabited

/-- The outcomes STATUS and a response can hold: the whole taxonomy of 30_encoding.md R91. Those this block
never raises keep their place (60_exceptions.md R203). -/
inductive Status where
  | ok
  | shortRead
  | shortWrite
  | badVersion
  | badReceiver
  | badArgument
  | initializerNotCalled
  | invalidIoOperation
  | closedForWrites
  | unexpectedEof
  | badContainerBlock
  | badExtensionLabel
  | badHeader
  | badLiteralWidth
  | internalInconsistentLimitedRead
  | unsupportedLocalColorTable
  | lzwCodeOutOfRange
  | lzwPrefixChainCyclical
  deriving DecidableEq, Repr, Inhabited

end Sys2Proof
end

