-- ==== Sys2Proof/WellFormed.lean ====
section
/-! DEFINITION. Which instructions are well formed: on their own, and against the registers that give a code its class. -/

namespace Sys2Proof

/-- The checks on an instruction's own operand, true in every state: a literal is below 2^8, the largest CLEAR_CODE
(30_encoding.md R84, R86); a COPY, KWKWK or OOR code is above 5, the least END_CODE (30_encoding.md R83, R84). -/
def Instr.wf : Instr → Bool
  | .init => true
  | .setLiteralWidth _ => true
  | .decode => true
  | .lit c => decide (c.toNat < 256)
  | .clr => true
  | .endCode => true
  | .copy c => decide (5 < c.toNat)
  | .kwkwk c => decide (5 < c.toNat)
  | .oor c => decide (5 < c.toNat)

/-- The condition of the instruction's class in the table of 30_encoding.md R83, against CLEAR_CODE, END_CODE and
SAVE_CODE. A command has none. -/
def Instr.wfIn (k : CodeSpace) : Instr → Bool
  | .init => true
  | .setLiteralWidth _ => true
  | .decode => true
  | .lit c => decide (c.toNat < k.clearCode.toNat)
  | .clr => true
  | .endCode => true
  | .copy c => decide (k.endCode.toNat < c.toNat) && decide (c.toNat < k.saveCode.toNat)
  | .kwkwk c => decide (c.toNat = k.saveCode.toNat) && decide (k.endCode.toNat < c.toNat)
  | .oor c => decide (k.saveCode.toNat < c.toNat)

/-- The registers as a running decode holds them (10_state.md R41 items 1 and 3). -/
def CodeSpace.legal (k : CodeSpace) (lw : Nat) : Bool :=
  decide (2 ≤ lw) && decide (lw ≤ 8) && decide (k.clearCode.toNat = 2 ^ lw) &&
    decide (k.endCode.toNat = k.clearCode.toNat + 1) && decide (k.endCode.toNat ≤ k.saveCode.toNat) &&
    decide (k.saveCode.toNat ≤ 4096)

end Sys2Proof
end

