-- ==== Sys2Proof/Decode.lean ====
section
/-! DEFINITION. The decoders and the encoders of 30_encoding.md: the command word, the class of a code, the packing of
codes into bytes, the outcome codes and the PHASE encoding. -/

namespace Sys2Proof

/-- `opcode = word[7:0]` (30_encoding.md R88). -/
def commandOpcode (w : CommandWord) : BitVec 8 := w.extractLsb' 0 8

/-- `arg = word[31:8]` (30_encoding.md R88). -/
def commandArg (w : CommandWord) : BitVec 24 := w.extractLsb' 8 24

/-- The command word's decoder: 30_encoding.md R89, rejecting by name. -/
def decodeCommand (w : CommandWord) : Except CommandError Instr :=
  if commandOpcode w = 0x01 then
    if commandArg w = 0 then .ok .init else .error .nonzeroArg
  else if commandOpcode w = 0x02 then .ok (.setLiteralWidth (commandArg w))
  else if commandOpcode w = 0x03 then
    if commandArg w = 0 then .ok .decode else .error .nonzeroArg
  else .error .reservedOpcode

/-- The class of a code, the tests in the order of 30_encoding.md R83 and 42_code_semantics.md R150. -/
@[inline]
def classify {α : Type} (k : CodeSpace) (c : CodeValue) (onLit onClr onEnd onCopy onKwkwk onOor : α) : α :=
  if c.toNat < k.clearCode.toNat then onLit
  else if c.toNat = k.clearCode.toNat then onClr
  else if c.toNat = k.endCode.toNat then onEnd
  else if c.toNat < k.saveCode.toNat then onCopy
  else if c.toNat = k.saveCode.toNat then onKwkwk
  else onOor

/-- The instruction a code of the stream is (30_encoding.md R83). -/
def decodeCode (k : CodeSpace) (c : CodeValue) : Instr :=
  classify k c (.lit c) .clr .endCode (.copy c) (.kwkwk c) (.oor c)

/-- Either encoding's decoder. -/
def decode (k : CodeSpace) : Encoded → Except CommandError Instr
  | .command w => decodeCommand w
  | .code c => .ok (decodeCode k c)

/-- A command word from its fields (30_encoding.md R88). -/
def commandWord (opcode : BitVec 8) (arg : BitVec 24) : CommandWord := arg ++ opcode

/-- The encoder: the command word (30_encoding.md R89) or the code value (30_encoding.md R82, R84) of an instruction. -/
def encode (k : CodeSpace) : Instr → Encoded
  | .init => .command (commandWord 0x01 0)
  | .setLiteralWidth w => .command (commandWord 0x02 w)
  | .decode => .command (commandWord 0x03 0)
  | .lit c => .code c
  | .clr => .code (k.clearCode.setWidth 12)
  | .endCode => .code (k.endCode.setWidth 12)
  | .copy c => .code c
  | .kwkwk c => .code c
  | .oor c => .code c

/-- The host's question: the instruction of an opcode-table row whose bits are `w`. A command word is one 32-bit word
with no byte order (30_encoding.md R88); bits above `nbits` are zero. The CODE rows have no word of their own: a code's
class needs the registers (`decodeCode`). -/
def decodeTableWord (nbits w : Nat) : Option Instr :=
  if nbits ≤ 32 then
    match decodeCommand (BitVec.ofNat 32 (w % 2 ^ nbits)) with
    | .ok i => some i
    | .error _ => none
  else none

/-- The number whose bit `i` is stream bit `i`: the bits of byte j are stream bits 8·j..8·j+7 (30_encoding.md R82). -/
def streamNat : List Byte → Nat
  | [] => 0
  | b :: bs => b.toNat + 256 * streamNat bs

/-- The stream number of a list of codes, each with its width, the first code lowest (30_encoding.md R80). -/
def codesNat : List (Nat × CodeValue) → Nat
  | [] => 0
  | (w, c) :: rest => c.toNat % 2 ^ w + 2 ^ w * codesNat rest

/-- The length in bits of a list of codes (30_encoding.md R87). -/
def codesBits : List (Nat × CodeValue) → Nat
  | [] => 0
  | (w, _) :: rest => w + codesBits rest

/-- The low `n` bytes of a number, the lowest first. -/
def bytesOfNat : (n v : Nat) → List Byte
  | 0, _ => []
  | n + 1, v => BitVec.ofNat 8 v :: bytesOfNat n (v / 256)

/-- The encoder of a code stream: `ceil(S / 8)` bytes, padding bits zero (30_encoding.md R80, R87, R93). -/
def packCodes (codes : List (Nat × CodeValue)) : List Byte :=
  bytesOfNat ((codesBits codes + 7) / 8) (codesNat codes)

/-- The outcome codes of 30_encoding.md R91, 8-bit two's complement. -/
def Status.code : Status → BitVec 8
  | .ok => 0x00
  | .shortRead => 0x01
  | .shortWrite => 0x02
  | .badVersion => 0xFF
  | .badReceiver => 0xFE
  | .badArgument => 0xFD
  | .initializerNotCalled => 0xFC
  | .invalidIoOperation => 0xFB
  | .closedForWrites => 0xFA
  | .unexpectedEof => 0xF9
  | .badContainerBlock => 0xF8
  | .badExtensionLabel => 0xF7
  | .badHeader => 0xF6
  | .badLiteralWidth => 0xF5
  | .internalInconsistentLimitedRead => 0xF4
  | .unsupportedLocalColorTable => 0xF3
  | .lzwCodeOutOfRange => 0xF2
  | .lzwPrefixChainCyclical => 0xF1

/-- The outcome an 8-bit code stands for, if any (30_encoding.md R91). -/
def Status.ofCode (b : BitVec 8) : Option Status :=
  [Status.ok, .shortRead, .shortWrite, .badVersion, .badReceiver, .badArgument, .initializerNotCalled,
    .invalidIoOperation, .closedForWrites, .unexpectedEof, .badContainerBlock, .badExtensionLabel, .badHeader,
    .badLiteralWidth, .internalInconsistentLimitedRead, .unsupportedLocalColorTable, .lzwCodeOutOfRange,
    .lzwPrefixChainCyclical].find? (fun o => o.code == b)

/-- The PHASE encoding of 10_state.md R30. -/
def Phase.code : Phase → BitVec 2
  | .idle => 0
  | .fill => 1
  | .emitLit => 2
  | .flush => 3

/-- The phase a 2-bit value stands for (10_state.md R30). -/
def Phase.ofCode (b : BitVec 2) : Phase :=
  if b = 0 then .idle else if b = 1 then .fill else if b = 2 then .emitLit else .flush

end Sys2Proof
end

