-- ==== Sys2Proof/Config.lean ====
section
/-! DEFINITION. The fixed parameters of 00_scope.md R6 and the free values of what the spec leaves unspecified. -/

namespace Sys2Proof

/-- Entries in each of PREFIX, SUFFIX and STACK (00_scope.md R6). -/
def Config.tableSize : Nat := 4096

/-- The largest code width in bits (00_scope.md R6). -/
def Config.maxWidth : Nat := 12

/-- The legal literal widths (00_scope.md R6). -/
def Config.lwMin : Nat := 2
def Config.lwMax : Nat := 8

/-- A FREE VALUE: what the register numbered `id` in 10_state.md R39, of width `w`, holds where the spec says its
value is unspecified (70_reset_and_hazards.md R230 and R231, 60_exceptions.md R210), at the model's draw number
`draw`. It has no body, so nothing can be proved of it (log entries 5 and 6; safe). -/
opaque Config.freeRegister : (id w draw : Nat) → BitVec w

/-- A FREE VALUE: an unspecified PHASE (log entries 5 and 6; safe). -/
opaque Config.freePhase : (draw : Nat) → Phase

/-- A FREE VALUE: an unspecified STATUS, after a power-on event (log entry 5; safe). -/
opaque Config.freeStatus : (draw : Nat) → Status

/-- A FREE VALUE: an entry of an unspecified table after an error (60_exceptions.md R210), `none` being an unwritten
entry; `table` is 0 for PREFIX, 1 for SUFFIX, 2 for STACK (log entry 6; safe). -/
opaque Config.freeEntry : (table w index draw : Nat) → Option (BitVec w)

end Sys2Proof
end

