-- ==== Sys2Proof/Machine/State.lean ====
section
/-! DEFINITION. The state of one WUFFS-LZWD block and of the host it faces, as plain data, its reset, and the reasons a step
can stop. -/

namespace Sys2Proof.Machine

/-- A table: (index, entry) pairs, the indices strictly rising; an entry not listed is unwritten (20_memory.md R54). -/
abbrev Table (w : Nat) := List (Nat × BitVec w)

/-- The block's private tables (10_state.md R38, 20_memory.md R50). SUFFIX and STACK are lists of `Host.Cell`. -/
structure Memory where
  /-- PREFIX: the chain predecessor of a code (20_memory.md R51). -/
  prefixTab : Table 16
  /-- SUFFIX: the trailing literal byte of a code's expansion (20_memory.md R52). -/
  suffixTab : Table 8
  /-- STACK: the expansion buffer (20_memory.md R53). -/
  stackTab : Table 8
  deriving DecidableEq, Repr

/-- The source Cursor (20_memory.md R60). `base`, the place of its array in the host's memory, is the model's own, for
70_reset_and_hazards.md R245 (log entry 4). -/
structure SrcPort where
  base : Nat
  data : List Byte
  ri : Nat
  wi : Nat
  closed : Bool
  limits : List Nat
  deriving DecidableEq, Repr

/-- The destination Cursor (20_memory.md R61). `base` is the model's own, as in `SrcPort`. -/
structure DstPort where
  base : Nat
  data : List Byte
  wi : Nat
  len : Nat
  closed : Bool
  limits : List Nat
  deriving DecidableEq, Repr

/-- One action of the outside world. The host's list of them is the model's own (log entry 3). -/
inductive HostEvent where
  /-- The host issues a command word and waits for its response (30_encoding.md R88). -/
  | command (w : CommandWord)
  /-- The host issues a command word before the last command has responded (70_reset_and_hazards.md R242). -/
  | concurrentCommand (w : CommandWord)
  /-- The host changes the source Cursor between commands, to this (70_reset_and_hazards.md R243). -/
  | source (new : SrcPort)
  /-- The host changes the destination Cursor between commands, to this (70_reset_and_hazards.md R243). -/
  | destination (new : DstPort)
  /-- The block is powered on again (70_reset_and_hazards.md R230). -/
  | powerOn
  deriving DecidableEq, Repr

/-- The refused actions of 70_reset_and_hazards.md R240. Each is raised by the block's model on a host action that has no
meaning; all are safe, since a marked state takes no further step. -/
inductive RefusedAction where
  /-- Items 1 and 2, raised by a command event whose word does not decode; safe. -/
  | commandWord (e : CommandError)
  /-- Item 3, raised by SET_LITERAL_WIDTH while a decode is suspended (R241); safe. -/
  | literalWidthWhileSuspended
  /-- Item 4, raised by a command issued before the last response (R242); safe. -/
  | concurrentCommand
  /-- Item 5, raised by DECODE, after its entry checks, on a broken Cursor (R244); safe. -/
  | brokenCursor
  /-- Item 6, raised by a host change that R243 does not allow or R244 forbids; safe. -/
  | hostChange
  /-- Item 7, raised by DECODE, after its entry checks, on overlapping arrays (R245); safe. -/
  | overlappingArrays
  deriving DecidableEq, Repr

/-- The model faults. None is a behaviour of the block, and none is reachable from INIT. -/
inductive Fault where
  /-- `ReadUnwrittenTable` (20_memory.md R54): raised by the walk or the flush on reading an unwritten entry; safe. -/
  | readUnwrittenTable
  /-- Raised by SrcRead when the read-index is outside the source array, which R244 rules out (log entry 7); safe. -/
  | sourceBounds
  /-- Raised by DstWrite and DstCopy when a byte would land outside the destination array, which R244 rules out
  (log entry 7); safe. -/
  | destinationBounds
  /-- Raised by DECODE when its loop outruns the bits it has, which needs WIDTH = 0 and which 10_state.md R41 rules out
  (log entry 8); safe. -/
  | noProgress
  deriving DecidableEq, Repr

/-- Why a step is refused. -/
inductive Refusal where
  /-- Raised by exec's arm of an instruction that has no meaning yet; safe. -/
  | notModelled (mnemonic : String)
  /-- Raised by step on a state that carries the REFUSED mark: the block takes no further step in it
  (70_reset_and_hazards.md R240); safe. -/
  | marked (a : RefusedAction)
  deriving DecidableEq, Repr

/-- The state: the registers of 10_state.md R39 in its order, the tables, the two ports, what the host sees, and the
model's own fields. -/
structure State where
  /-- INIT_DONE (R22). -/
  initDone : Bool
  /-- STATUS (R23). -/
  status : Status
  /-- LW_REG (R24). -/
  lwReg : BitVec 24
  /-- PHASE (R30). -/
  phase : Phase
  /-- LW (R25). -/
  lw : BitVec 4
  /-- CLEAR_CODE (R26). -/
  clearCode : BitVec 9
  /-- END_CODE (R26). -/
  endCode : BitVec 9
  /-- SAVE_CODE (R27). -/
  saveCode : BitVec 13
  /-- PREV_CODE (R28). -/
  prevCode : BitVec 12
  /-- WIDTH (R29). -/
  width : BitVec 4
  /-- BITS (R31). -/
  bits : BitVec 32
  /-- NBITS (R32). -/
  nbits : BitVec 5
  /-- CODE (R33). -/
  code : BitVec 12
  /-- FIRST (R34). -/
  first : BitVec 8
  /-- STACK_START (R35). -/
  stackStart : BitVec 12
  /-- FLUSHED (R36). -/
  flushed : BitVec 13
  /-- PREFIX, SUFFIX and STACK (R38). -/
  mem : Memory
  /-- The source port (20_memory.md R60). -/
  src : SrcPort
  /-- The destination port (20_memory.md R61). -/
  dst : DstPort
  /-- The response of the last command; none before the first, while a command runs, and after a refused action. -/
  response : Option Status
  /-- The sticky REFUSED mark (70_reset_and_hazards.md R240). -/
  refusedMark : Option RefusedAction
  /-- The model's own: the host events not yet performed (log entry 3). -/
  host : List HostEvent
  /-- The model's own: how many times free values have been drawn (log entry 5). -/
  draws : Nat
  deriving DecidableEq, Repr

/-- Every entry unwritten (20_memory.md R54). -/
def Memory.unwritten : Memory := { prefixTab := [], suffixTab := [], stackTab := [] }

/-- No source presented yet (log entry 2). -/
def SrcPort.none : SrcPort := { base := 0, data := [], ri := 0, wi := 0, closed := false, limits := [] }

/-- No destination presented yet (log entry 2). -/
def DstPort.none : DstPort := { base := 0, data := [], wi := 0, len := 0, closed := false, limits := [] }

/-- Power-on (70_reset_and_hazards.md R230): INIT_DONE = 0 and every table entry unwritten. The spec gives no other
register a value; the zeros here are a DESIGN CHOICE (log entry 1; unsafe). -/
def State.reset : State :=
  { initDone := false, status := .ok, lwReg := 0, phase := .idle, lw := 0, clearCode := 0, endCode := 0
    saveCode := 0, prevCode := 0, width := 0, bits := 0, nbits := 0, code := 0, first := 0, stackStart := 0
    flushed := 0, mem := Memory.unwritten, src := SrcPort.none, dst := DstPort.none, response := .none
    refusedMark := .none, host := [], draws := 0 }

/-- CLEAR_CODE, END_CODE and SAVE_CODE together, as the class tests take them (30_encoding.md R83). -/
def State.codeSpace (s : State) : CodeSpace :=
  { clearCode := s.clearCode, endCode := s.endCode, saveCode := s.saveCode }

end Sys2Proof.Machine
end

