-- ==== Sys2Proof/Machine/Flags.lean ====
section
/-! DEFINITION. The predicates the rules test: the categories of an outcome, HAS_PREV, a legal literal width, the width
growth test. The block has no flags register (10_state.md R21). -/

namespace Sys2Proof.Machine

/-- `is_error` := sign bit set (10_state.md R23, 60_exceptions.md R200). -/
def isError (o : Status) : Bool := o.code.msb

/-- `is_ok_terminal` := exactly success (60_exceptions.md R200). -/
def isOkTerminal (o : Status) : Bool := o.code == 0

/-- `is_suspension` := positive (10_state.md R23, 60_exceptions.md R200). -/
def isSuspension (o : Status) : Bool := !o.code.msb && o.code != 0

/-- HAS_PREV: SAVE_CODE ≠ END_CODE (10_state.md R37). -/
def hasPrev (s : State) : Bool := decide (s.saveCode.toNat ≠ s.endCode.toNat)

/-- `2 ≤ w ≤ 8` (10_state.md R24, 40_host_commands.md R102 and R106). -/
def legalLiteralWidth (w : BitVec 24) : Bool :=
  decide (Config.lwMin ≤ w.toNat) && decide (w.toNat ≤ Config.lwMax)

/-- WIDTH grows when SAVE_CODE, just incremented, is `2^WIDTH`, below 12 (42_code_semantics.md R158). -/
def widthGrows (save : BitVec 13) (width : BitVec 4) : Bool :=
  decide (save.toNat = 2 ^ width.toNat) && decide (width.toNat < Config.maxWidth)

end Sys2Proof.Machine
end

