-- ==== Sys2Proof/Machine/Operands.lean ====
section
/-! DEFINITION. The operand forms of 30_encoding.md R86 and the derived constants of 00_scope.md R7. -/

namespace Sys2Proof.Machine

/-- A literal's output byte, `c[7:0]` (30_encoding.md R86). -/
def literalByte (c : CodeValue) : Byte := c.setWidth 8

/-- The next code of a chain, `PREFIX[x][11:0]` (20_memory.md R51, 43_expansion_and_flush.md R180). -/
def chainLink (p : BitVec 16) : CodeValue := p.setWidth 12

/-- A PREFIX entry for a code, `zext_16` (20_memory.md R51). -/
def prefixEntry (c : CodeValue) : BitVec 16 := c.setWidth 16

/-- The low WIDTH bits of the accumulator, zero-extended to 12 bits (30_encoding.md R82, 41_bitstream_parser.md R131). -/
def codeField (bits : BitVec 32) (width : BitVec 4) : CodeValue := BitVec.ofNat 12 (bits.toNat % 2 ^ width.toNat)

/-- `clear_code = 2^lw` (00_scope.md R7). -/
def clearCodeOf (lw : BitVec 4) : BitVec 9 := BitVec.ofNat 9 (2 ^ lw.toNat)

/-- `end_code = clear_code + 1` (00_scope.md R7). -/
def endCodeOf (lw : BitVec 4) : BitVec 9 := clearCodeOf lw + 1

/-- The initial code width, `lw + 1` (00_scope.md R7). -/
def initialWidth (lw : BitVec 4) : BitVec 4 := lw + 1

end Sys2Proof.Machine
end

