-- ==== Sys2Proof/Machine/Ops.lean ====
section
/-! DEFINITION. The named operations: table entries, free draws, sending a response, ending a command with an outcome,
raising an error (the block's exception) and marking a refusal. -/

namespace Sys2Proof.Machine

/-- The result of an operation that may end the command: go on with a value, stop with the command ended, or fault. -/
inductive Flow (α : Type) where
  | go (a : α) (s : State)
  | stop (s : State)
  | fault (f : Fault)

/-- Sequencing: what follows runs only if the command has not ended (00_scope.md section 5). -/
def Flow.andThen {α β : Type} (x : Flow α) (f : α → State → Flow β) : Flow β :=
  match x with
  | .go a s => f a s
  | .stop s => .stop s
  | .fault e => .fault e

/-- The machine's outcome of an operation that yields nothing. -/
def Flow.toOutcome (x : Flow Unit) : Host.Outcome State Fault Refusal :=
  match x with
  | .go _ s => .next s
  | .stop s => .next s
  | .fault e => .fault e

/-- Entry `i` of a table; none if unwritten (20_memory.md R54). -/
def Table.read {w : Nat} : Table w → Nat → Option (BitVec w)
  | [], _ => none
  | (k, v) :: rest, i => if k = i then some v else Table.read rest i

/-- `T[i] <- v`, keeping the indices in rising order. -/
def Table.write {w : Nat} : Table w → Nat → BitVec w → Table w
  | [], i, v => [(i, v)]
  | (k, u) :: rest, i, v =>
    if i < k then (i, v) :: (k, u) :: rest
    else if i = k then (i, v) :: rest
    else (k, u) :: Table.write rest i v

/-- `n` consecutive entries from index `i`; none if one of them is unwritten. -/
def Table.readRun {w : Nat} (t : Table w) : (i n : Nat) → Option (List (BitVec w))
  | _, 0 => some []
  | i, n + 1 =>
    match Table.read t i, Table.readRun t (i + 1) n with
    | some v, some vs => some (v :: vs)
    | _, _ => none

/-- The canonical form: indices strictly rising from at least `lo`, all below 4096. -/
def Table.sortedFrom {w : Nat} : Nat → Table w → Bool
  | _, [] => true
  | lo, (k, _) :: rest => decide (lo ≤ k) && decide (k < Config.tableSize) && Table.sortedFrom (k + 1) rest

/-- The canonical form of a table. -/
def Table.wf {w : Nat} (t : Table w) : Bool := Table.sortedFrom 0 t

/-- The canonical form of the three tables. An unwritten entry is an index not listed, so no listed entry equals what an
unlisted one reads as. -/
def Memory.wf (m : Memory) : Bool := Table.wf m.prefixTab && Table.wf m.suffixTab && Table.wf m.stackTab

/-- A table of free values: `n` indices from `i`, each unwritten or holding any value (60_exceptions.md R210). -/
def freeTable (table w draw : Nat) : (n i : Nat) → Table w
  | 0, _ => []
  | n + 1, i =>
    match Config.freeEntry table w i draw with
    | some v => (i, v) :: freeTable table w draw n (i + 1)
    | none => freeTable table w draw n (i + 1)

/-- The three tables with unspecified contents (60_exceptions.md R210; log entry 6). -/
def freeMemory (draw : Nat) : Memory :=
  { prefixTab := freeTable 0 16 draw Config.tableSize 0
    suffixTab := freeTable 1 8 draw Config.tableSize 0
    stackTab := freeTable 2 8 draw Config.tableSize 0 }

/-- LW to FLUSHED take unspecified values (70_reset_and_hazards.md R231; log entry 5). -/
def State.drawWorking (s : State) : State :=
  { s with
    lw := Config.freeRegister 4 4 s.draws
    clearCode := Config.freeRegister 5 9 s.draws
    endCode := Config.freeRegister 6 9 s.draws
    saveCode := Config.freeRegister 7 13 s.draws
    prevCode := Config.freeRegister 8 12 s.draws
    width := Config.freeRegister 9 4 s.draws
    bits := Config.freeRegister 10 32 s.draws
    nbits := Config.freeRegister 11 5 s.draws
    code := Config.freeRegister 12 12 s.draws
    first := Config.freeRegister 13 8 s.draws
    stackStart := Config.freeRegister 14 12 s.draws
    flushed := Config.freeRegister 15 13 s.draws
    draws := s.draws + 1 }

/-- The working registers, PHASE and the tables after an error (60_exceptions.md R210; log entry 6). -/
def State.drawAfterError (s : State) : State :=
  { s.drawWorking with phase := Config.freePhase s.draws, mem := freeMemory s.draws }

/-- Power-on (70_reset_and_hazards.md R230): INIT_DONE = 0, every table entry unwritten, every other register unspecified
(log entry 5). The ports and the host's list are the host's. -/
def State.powerOn (s : State) : State :=
  { s.drawWorking with
    initDone := false
    status := Config.freeStatus s.draws
    lwReg := Config.freeRegister 2 24 s.draws
    phase := Config.freePhase s.draws
    mem := Memory.unwritten
    response := none }

/-- Send an outcome to the host without writing STATUS (60_exceptions.md R207). -/
def State.respond (o : Status) (s : State) : State := { s with response := some o }

/-- End the command with outcome `o`: STATUS <- o, then o is the response (60_exceptions.md R205). -/
def State.ret (o : Status) (s : State) : State := { s with status := o, response := some o }

/-- TAKING AN EXCEPTION: `raise E` (60_exceptions.md R209). STATUS <- E pins the error (R206), the response is E, nothing
else is saved, and the working registers, PHASE and the tables are unspecified from here (R210). There is no return from
it but INIT (R211). -/
def State.raise (e : Status) (s : State) : State := s.drawAfterError.ret e

/-- Set the sticky REFUSED mark; the host receives no response (70_reset_and_hazards.md R240). -/
def State.markRefused (a : RefusedAction) (s : State) : State := { s with refusedMark := some a, response := none }

/-- A command begins: no response has been sent for it yet (30_encoding.md R90). -/
def State.beginCommand (s : State) : State := { s with response := none }

/-- The source Cursor is now `p`. -/
def State.setSrc (p : SrcPort) (s : State) : State := { s with src := p }

/-- The destination Cursor is now `p`. -/
def State.setDst (p : DstPort) (s : State) : State := { s with dst := p }

/-- PHASE <- p (10_state.md R30). -/
def State.setPhase (p : Phase) (s : State) : State := { s with phase := p }

/-- A code enters its class: CODE holds it, as EXTRACT left it (41_bitstream_parser.md R131; log entry 13), and PHASE is
the class's resume point. -/
def State.enterCode (c : CodeValue) (p : Phase) (s : State) : State := { s with code := c, phase := p }

end Sys2Proof.Machine
end

