-- ==== Sys2Proof/Machine/Ports.lean ====
section
/-! DEFINITION. The two byte ports: limits, space, SrcRead, DstWrite, DstCopy (20_memory.md R60 to R67), the Cursor
invariant and the overlap test (70_reset_and_hazards.md R244, R245). -/

namespace Sys2Proof.Machine

/-- The minimum of the limits; none when the list is empty, that is, unbounded (20_memory.md R62). -/
def effectiveLimit : List Nat → Option Nat
  | [] => none
  | n :: rest =>
    match effectiveLimit rest with
    | none => some n
    | some m => some (min n m)

/-- `n` bounded by the effective limit (20_memory.md R64, R65). -/
def capByLimit (n : Nat) (limits : List Nat) : Nat :=
  match effectiveLimit limits with
  | none => n
  | some m => min n m

/-- Every byte moved decrements every element (20_memory.md R62). -/
def decrementLimits (k : Nat) (limits : List Nat) : List Nat := limits.map (fun n => n - k)

/-- The source bytes available to a command (20_memory.md R64). -/
def SrcPort.available (p : SrcPort) : Nat := capByLimit (p.wi - p.ri) p.limits

/-- The destination space (20_memory.md R65). -/
def DstPort.space (p : DstPort) : Nat := capByLimit (p.len - p.wi) p.limits

/-- The unread bytes `data[ri..wi-1]` (20_memory.md R60). -/
def SrcPort.unread (p : SrcPort) : List Byte := (p.data.drop p.ri).take (p.wi - p.ri)

/-- `ri ≤ wi ≤ length(data)` (70_reset_and_hazards.md R244). -/
def SrcPort.wf (p : SrcPort) : Bool := decide (p.ri ≤ p.wi) && decide (p.wi ≤ p.data.length)

/-- `wi ≤ len = length(data)` (70_reset_and_hazards.md R244). -/
def DstPort.wf (p : DstPort) : Bool := decide (p.wi ≤ p.len) && decide (p.len = p.data.length)

/-- The two arrays share an address of the host's memory (70_reset_and_hazards.md R245; log entry 4). -/
def arraysOverlap (p : SrcPort) (q : DstPort) : Bool :=
  decide (max p.base q.base < min (p.base + p.data.length) (q.base + q.data.length))

/-- The source Cursor after one byte is read (20_memory.md R63). -/
def SrcPort.advance (p : SrcPort) : SrcPort := { p with ri := p.ri + 1, limits := decrementLimits 1 p.limits }

/-- The destination Cursor after `bytes` are appended at the write-index (20_memory.md R66, R67). -/
def DstPort.append (bytes : List Byte) (p : DstPort) : DstPort :=
  { p with
    data := p.data.take p.wi ++ bytes ++ p.data.drop (p.wi + bytes.length)
    wi := p.wi + bytes.length
    limits := decrementLimits bytes.length p.limits }

/-- SrcRead: the three tests in the order of 20_memory.md R63, then one byte. -/
def srcRead (s : State) : Flow Byte :=
  if effectiveLimit s.src.limits = some 0 then .stop (s.ret .shortRead)
  else if s.src.ri = s.src.wi then
    if s.src.closed then .stop (s.raise .unexpectedEof) else .stop (s.ret .shortRead)
  else
    match s.src.data[s.src.ri]? with
    | none => .fault .sourceBounds
    | some b => .go b (s.setSrc s.src.advance)

/-- Bytes land at the write-index, inside the array (log entry 7). -/
def dstAppend (bytes : List Byte) (s : State) : Flow Unit :=
  if s.dst.wi + bytes.length ≤ s.dst.data.length then .go () (s.setDst (s.dst.append bytes))
  else .fault .destinationBounds

/-- DstWrite: closed before space (20_memory.md R66). -/
def dstWrite (b : Byte) (s : State) : Flow Unit :=
  if s.dst.closed then .stop (s.raise .closedForWrites)
  else if s.dst.space = 0 then .stop (s.ret .shortWrite)
  else dstAppend [b] s

/-- DstCopy: as many bytes as fit, and how many that was (20_memory.md R67). -/
def dstCopy (bytes : List Byte) (s : State) : Flow Nat :=
  if s.dst.closed then .stop (s.raise .closedForWrites)
  else
    (dstAppend (bytes.take (min bytes.length s.dst.space)) s).andThen
      (fun _ t => .go (min bytes.length s.dst.space) t)

end Sys2Proof.Machine
end

