-- ==== Sys2Proof/Machine/Expand.lean ====
section
/-! DEFINITION. The chain walk with its cycle check, the flush, and the literal write (43_expansion_and_flush.md). -/

namespace Sys2Proof.Machine

/-- How a chain walk ends. -/
inductive WalkEnd where
  /-- At a literal: STACK as written, the index of the literal, the literal. -/
  | literal (stack : Table 8) (start : Nat) (head : CodeValue)
  /-- A suffix was written at STACK index 0 and the chain goes on (43_expansion_and_flush.md R181). -/
  | cyclical
  /-- An unwritten PREFIX or SUFFIX entry was read (20_memory.md R54). -/
  | unwritten
  deriving DecidableEq, Repr

/-- The loop of Walk from STACK index `s` and code `x` (43_expansion_and_flush.md R180, R181). -/
def walkChain (clear : BitVec 9) (pre : Table 16) (suf : Table 8) : (s : Nat) → (x : CodeValue) → Table 8 → WalkEnd
  | 0, x, stack =>
    if x.toNat < clear.toNat then .literal (Table.write stack 0 (literalByte x)) 0 x
    else
      match Table.read suf x.toNat with
      | none => .unwritten
      | some _ => .cyclical
  | s + 1, x, stack =>
    if x.toNat < clear.toNat then .literal (Table.write stack (s + 1) (literalByte x)) (s + 1) x
    else
      match Table.read suf x.toNat, Table.read pre x.toNat with
      | some b, some p => walkChain clear pre suf s (chainLink p) (Table.write stack (s + 1) b)
      | _, _ => .unwritten

/-- What a finished walk writes: STACK, FIRST, STACK_START, FLUSHED (43_expansion_and_flush.md R180, R182). -/
def State.setExpansion (stack : Table 8) (start : Nat) (head : Byte) (s : State) : State :=
  { s with
    mem := { s.mem with stackTab := stack }
    first := head
    stackStart := BitVec.ofNat 12 start
    flushed := 0 }

/-- Where the walk of a code starts: STACK index and code (43_expansion_and_flush.md R180). KWKWK walks PREV_CODE and keeps
STACK[4095] for the extra byte (R183). -/
def walkStart (isKwkwk : Bool) (c : CodeValue) (s : State) : Nat × CodeValue :=
  if isKwkwk then (4094, s.prevCode) else (4095, c)

/-- Walk(c) (43_expansion_and_flush.md R180). `isKwkwk` is the rule's test `c = SAVE_CODE`, which the dispatch has made. -/
def walk (isKwkwk : Bool) (c : CodeValue) (s : State) : Flow Unit :=
  match walkChain s.clearCode s.mem.prefixTab s.mem.suffixTab (walkStart isKwkwk c s).1 (walkStart isKwkwk c s).2
      s.mem.stackTab with
  | .unwritten => .fault .readUnwrittenTable
  | .cyclical => .stop (s.raise .lzwPrefixChainCyclical)
  | .literal stack start head =>
    .go () (s.setExpansion (if isKwkwk then Table.write stack 4095 (literalByte head) else stack) start (literalByte head))

/-- `FLUSHED <- FLUSHED + k` (43_expansion_and_flush.md R184). -/
def State.addFlushed (k : Nat) (s : State) : State := { s with flushed := s.flushed + BitVec.ofNat 13 k }

/-- The first index of the unflushed tail, `STACK_START + FLUSHED` (10_state.md R36). -/
def tailStart (s : State) : Nat := s.stackStart.toNat + s.flushed.toNat

/-- Flush (43_expansion_and_flush.md R184). -/
def flush (s : State) : Flow Unit :=
  match Table.readRun s.mem.stackTab (tailStart s) (Config.tableSize - tailStart s) with
  | none => .fault .readUnwrittenTable
  | some tail =>
    (dstCopy tail s).andThen (fun k t =>
      if (t.addFlushed k).flushed.toNat < Config.tableSize - t.stackStart.toNat then .stop ((t.addFlushed k).ret .shortWrite)
      else .go () (t.addFlushed k))

/-- `FIRST <- CODE[7:0]` (43_expansion_and_flush.md R187). -/
def State.setFirstFromCode (s : State) : State := { s with first := literalByte s.code }

/-- EmitLiteral (43_expansion_and_flush.md R187). -/
def emitLiteral (s : State) : Flow Unit :=
  (dstWrite (literalByte s.code) s).andThen (fun _ t => .go () t.setFirstFromCode)

/-- The expansion of a code (20_memory.md R56), following at most `fuel` links: a literal's byte, or what an entry with
`END_CODE < c < SAVE_CODE` stands for. None for CLEAR_CODE, END_CODE and every code from SAVE_CODE on, whatever stale entry the
tables hold there. The model's meanings do not use it: it is the rule the walk is stated against. -/
def expansion (k : CodeSpace) (pre : Table 16) (suf : Table 8) : (fuel : Nat) → CodeValue → Option (List Byte)
  | 0, c => if c.toNat < k.clearCode.toNat then some [literalByte c] else none
  | fuel + 1, c =>
    if c.toNat < k.clearCode.toNat then some [literalByte c]
    else if k.endCode.toNat < c.toNat ∧ c.toNat < k.saveCode.toNat then
      match Table.read pre c.toNat, Table.read suf c.toNat with
      | some p, some b => (expansion k pre suf fuel (chainLink p)).map (fun l => l ++ [b])
      | _, _ => none
    else none

end Sys2Proof.Machine
end

