-- ==== Sys2Proof/Machine/Parser.lean ====
section
/-! DEFINITION. The bit-stream parser: FILL and EXTRACT (41_bitstream_parser.md R130, R131). -/

namespace Sys2Proof.Machine

/-- A byte enters the accumulator above the bits it holds (41_bitstream_parser.md R130). -/
def State.pushByte (b : Byte) (s : State) : State :=
  { s with bits := s.bits ||| (b.setWidth 32 <<< s.nbits.toNat), nbits := s.nbits + 8 }

/-- `n` passes of FILL's loop: while NBITS < WIDTH, read a byte and push it (41_bitstream_parser.md R130). -/
def fillLoop : (n : Nat) → State → Flow Unit
  | 0, s => .go () s
  | n + 1, s =>
    if s.nbits.toNat < s.width.toNat then (srcRead s).andThen (fun b t => fillLoop n (t.pushByte b)) else .go () s

/-- FILL. Two passes are the whole loop: WIDTH is below 16 and each pass adds 8 bits (41_bitstream_parser.md R130,
"one code needs 0, 1 or 2 new bytes"). -/
def fill (s : State) : Flow Unit := fillLoop 2 s

/-- EXTRACT (41_bitstream_parser.md R131). -/
def State.extract (s : State) : State :=
  { s with
    code := codeField s.bits s.width
    bits := s.bits >>> s.width.toNat
    nbits := s.nbits - s.width.setWidth 5 }

/-- ParseCode: FILL, then EXTRACT (40_host_commands.md R107). -/
def parseCode (s : State) : Flow Unit := (fill s).andThen (fun _ t => .go () t.extract)

end Sys2Proof.Machine
end

