-- ==== Sys2Proof/Machine/Codes.lean ====
section
/-! DEFINITION. The meanings of the six code classes and the table update (42_code_semantics.md). -/

namespace Sys2Proof.Machine

/-- The new entry `{PREV_CODE, FIRST}` at SAVE_CODE (42_code_semantics.md R157). -/
def State.addEntry (s : State) : State :=
  { s with
    mem := { s.mem with
      prefixTab := Table.write s.mem.prefixTab s.saveCode.toNat (prefixEntry s.prevCode)
      suffixTab := Table.write s.mem.suffixTab s.saveCode.toNat s.first } }

/-- SAVE_CODE rises by one, and WIDTH with it where the growth rule says so (42_code_semantics.md R157, R158). -/
def State.bumpSave (s : State) : State :=
  { s with
    saveCode := s.saveCode + 1
    width := if widthGrows (s.saveCode + 1) s.width then s.width + 1 else s.width }

/-- `PREV_CODE <- CODE; PHASE <- FILL` (42_code_semantics.md R157, R160). -/
def State.endOrdinary (s : State) : State := { s with prevCode := s.code, phase := .fill }

/-- Update (42_code_semantics.md R157): an entry if there was a previous code, then SAVE_CODE and WIDTH, unless the table is
full (R159). -/
def State.update (s : State) : State :=
  if s.saveCode.toNat ≤ 4095 then
    if hasPrev s then s.addEntry.bumpSave.endOrdinary else s.bumpSave.endOrdinary
  else s.endOrdinary

/-- The step of PHASE = EMIT_LIT: EmitLiteral, then Update (40_host_commands.md R107). -/
def literalStep (s : State) : Host.Outcome State Fault Refusal :=
  ((emitLiteral s).andThen (fun _ t => .go () t.update)).toOutcome

/-- The step of PHASE = FLUSH: Flush, then Update (40_host_commands.md R107). -/
def flushThenUpdate (s : State) : Flow Unit := (flush s).andThen (fun _ t => .go () t.update)

/-- The step of PHASE = FLUSH as an outcome. -/
def flushStep (s : State) : Host.Outcome State Fault Refusal := (flushThenUpdate s).toOutcome

/-- Walk, PHASE <- FLUSH, Flush, Update (42_code_semantics.md R154, R155). -/
def expandStep (isKwkwk : Bool) (c : CodeValue) (s : State) : Host.Outcome State Fault Refusal :=
  ((walk isKwkwk c s).andThen (fun _ t => flushThenUpdate (t.enterCode c .flush))).toOutcome

/-- ClearState (42_code_semantics.md R152). -/
def State.clearState (s : State) : State :=
  { s with saveCode := s.endCode.setWidth 13, prevCode := 0, width := initialWidth s.lw }

/-- LIT (42_code_semantics.md R151). -/
def execLit (c : CodeValue) (s : State) : Host.Outcome State Fault Refusal := literalStep (s.enterCode c .emitLit)

/-- CLR (42_code_semantics.md R152). -/
def execClr (s : State) : Host.Outcome State Fault Refusal := .next s.clearState

/-- END (42_code_semantics.md R153). -/
def execEndCode (s : State) : Host.Outcome State Fault Refusal := .next ((s.setPhase .idle).ret .ok)

/-- COPY (42_code_semantics.md R154). -/
def execCopy (c : CodeValue) (s : State) : Host.Outcome State Fault Refusal := expandStep false c s

/-- KWKWK (42_code_semantics.md R155). -/
def execKwkwk (c : CodeValue) (s : State) : Host.Outcome State Fault Refusal := expandStep true c s

/-- OOR (42_code_semantics.md R156). -/
def execOor (s : State) : Host.Outcome State Fault Refusal := .next (s.raise .lzwCodeOutOfRange)

/-- Dispatch(c): the code's class decides which meaning runs (42_code_semantics.md R150). -/
def dispatchCode (c : CodeValue) (s : State) : Host.Outcome State Fault Refusal :=
  classify s.codeSpace c (execLit c s) (execClr s) (execEndCode s) (execCopy c s) (execKwkwk c s) (execOor s)

end Sys2Proof.Machine
end

