-- ==== Sys2Proof/Machine/Commands.lean ====
section
/-! DEFINITION. The meanings of the three host commands (40_host_commands.md). -/

namespace Sys2Proof.Machine

/-- What INIT writes (40_host_commands.md R101, 70_reset_and_hazards.md R231). LW to FLUSHED are unspecified after it (log
entry 5). -/
def State.initialize (s : State) : State :=
  { s.drawWorking with initDone := true, status := .ok, lwReg := 0, phase := .idle, mem := Memory.unwritten }

/-- INIT (40_host_commands.md R101). -/
def execInit (s : State) : Host.Outcome State Fault Refusal := .next (s.initialize.respond .ok)

/-- `LW_REG <- w` (40_host_commands.md R102). -/
def State.setLwReg (w : BitVec 24) (s : State) : State := { s with lwReg := w }

/-- SET_LITERAL_WIDTH (40_host_commands.md R102): the entry checks of 60_exceptions.md R207, then LW_REG. -/
def execSetLiteralWidth (w : BitVec 24) (s : State) : Host.Outcome State Fault Refusal :=
  if s.initDone = false then .next (s.respond .initializerNotCalled)
  else if isError s.status then .next (s.respond s.status)
  else if s.phase ≠ .idle then .next (s.markRefused .literalWidthWhileSuspended)
  else if legalLiteralWidth w then .next ((s.setLwReg w).respond s.status)
  else .next ((s.setLwReg w).raise .badLiteralWidth)

/-- What a fresh start writes once LW_REG is legal (40_host_commands.md R106). -/
def State.latchStream (s : State) : State :=
  { s with
    lw := s.lwReg.setWidth 4
    clearCode := clearCodeOf (s.lwReg.setWidth 4)
    endCode := endCodeOf (s.lwReg.setWidth 4)
    saveCode := (endCodeOf (s.lwReg.setWidth 4)).setWidth 13
    prevCode := 0
    width := initialWidth (s.lwReg.setWidth 4)
    bits := 0
    nbits := 0
    phase := .fill }

/-- FreshStart (40_host_commands.md R106). -/
def freshStart (s : State) : State :=
  if legalLiteralWidth s.lwReg then s.latchStream else s.raise .badLiteralWidth

/-- One pass of DECODE's loop (40_host_commands.md R107). IDLE is met only before the loop, where it is the fresh start. -/
def decodePass (s : State) : Host.Outcome State Fault Refusal :=
  match s.phase with
  | .idle => .next (freshStart s)
  | .fill =>
    match parseCode s with
    | .go _ t => dispatchCode t.code t
    | .stop t => .next t
    | .fault e => .fault e
  | .emitLit => literalStep s
  | .flush => flushStep s

/-- DECODE's loop: passes until a response is sent (40_host_commands.md R107). -/
def decodeLoop : (n : Nat) → State → Host.Outcome State Fault Refusal
  | 0, _ => .fault .noProgress
  | n + 1, s =>
    match decodePass s with
    | .next t => if t.response.isSome then .next t else decodeLoop n t
    | .fault e => .fault e
    | .refused r => .refused r

/-- A bound on the loop's passes: a fresh start, a pending code, one per bit the command can get, and the one that ends it
(40_host_commands.md R111). -/
def passBound (s : State) : Nat := s.nbits.toNat + 8 * (s.src.wi - s.src.ri) + 3

/-- DECODE (40_host_commands.md R103): the entry checks R104 and R105 before anything else (60_exceptions.md R207), the refusals of
70_reset_and_hazards.md R240 items 5 and 7 (log entry 12), then the loop. -/
def execDecode (s : State) : Host.Outcome State Fault Refusal :=
  if s.initDone = false then .next (s.respond .initializerNotCalled)
  else if isError s.status then .next (s.respond s.status)
  else if !(s.src.wf && s.dst.wf) then .next (s.markRefused .brokenCursor)
  else if arraysOverlap s.src s.dst then .next (s.markRefused .overlappingArrays)
  else decodeLoop (passBound s) s.beginCommand

end Sys2Proof.Machine
end

