-- ==== Sys2Proof/Machine/Dispatch.lean ====
section
/-! DEFINITION. Which meaning each instruction has. -/

namespace Sys2Proof.Machine

def exec (i : Instr) (s : State) : Host.Outcome State Fault Refusal :=
  match i with
  | .init => Sys2Proof.Machine.execInit s
  | .setLiteralWidth w => Sys2Proof.Machine.execSetLiteralWidth w s
  | .decode => Sys2Proof.Machine.execDecode s
  | .lit c => Sys2Proof.Machine.execLit c s
  | .clr => Sys2Proof.Machine.execClr s
  | .endCode => Sys2Proof.Machine.execEndCode s
  | .copy c => Sys2Proof.Machine.execCopy c s
  | .kwkwk c => Sys2Proof.Machine.execKwkwk c s
  | .oor _ => Sys2Proof.Machine.execOor s

end Sys2Proof.Machine
end

