-- ==== Sys2Proof/Machine/HostActions.lean ====
section
/-! DEFINITION. What the host does between commands: the Cursor changes 70_reset_and_hazards.md R243 allows, every other
one being refused (R240 item 6), and power-on. -/

namespace Sys2Proof.Machine

/-- "append bytes, raising `wi` up to the array's length", on an open source (R243, R244). -/
def srcAppend (old new : SrcPort) : Bool :=
  decide (new = { old with data := new.data, wi := new.wi }) && decide (new.data.length = old.data.length) &&
    decide (old.wi ≤ new.wi) && decide (new.wi ≤ new.data.length) &&
    decide (new.data.take old.wi = old.data.take old.wi) && decide (new.data.drop new.wi = old.data.drop new.wi) &&
    !old.closed

/-- "consume bytes itself by advancing `ri`" (R243), keeping `ri ≤ wi` (R244). -/
def srcConsume (old new : SrcPort) : Bool :=
  decide (new = { old with ri := new.ri }) && decide (old.ri ≤ new.ri) && decide (new.ri ≤ new.wi)

/-- "replace the backing array with another that holds the same unread bytes at new indices" (R243). That
the other array may lie at the old address and keep the old indices is a DESIGN CHOICE (log entry 20). -/
def srcCompact (old new : SrcPort) : Bool :=
  decide (new = { old with base := new.base, data := new.data, ri := new.ri, wi := new.wi }) && new.wf &&
    decide (new.wi - new.ri = old.wi - old.ri) && decide (new.unread = old.unread)

/-- "overwrite unread bytes at indices at or above `ri`" (R243, 20_memory.md R74). -/
def srcOverwrite (old new : SrcPort) : Bool :=
  decide (new = { old with data := new.data }) && decide (new.data.length = old.data.length) &&
    decide (new.data.take old.ri = old.data.take old.ri)

/-- "set `closed` from false to true" (R243). -/
def srcClose (old new : SrcPort) : Bool := decide (new = { old with closed := true })

/-- `new` is `old` with one limit pushed (log entry 10). -/
def limitPushed (old new : List Nat) : Bool := decide (new.tail = old) && !new.isEmpty

/-- "push a limit onto `limits`, or pop one" (R243). -/
def srcLimit (old new : SrcPort) : Bool :=
  decide (new = { old with limits := new.limits }) && (limitPushed old.limits new.limits || limitPushed new.limits old.limits)

/-- The source changes R243 allows. -/
def srcChangeAllowed (old new : SrcPort) : Bool :=
  srcAppend old new || srcConsume old new || srcCompact old new || srcOverwrite old new || srcClose old new ||
    srcLimit old new

/-- "take the bytes written and reset `wi` to any value ≤ `len`, or provide a new array (drain)" (R243), keeping
R244. That the new array may lie at the old address with the old indices is a DESIGN CHOICE (log entry 20). -/
def dstDrain (old new : DstPort) : Bool :=
  decide (new = { old with base := new.base, data := new.data, wi := new.wi, len := new.len }) && new.wf

/-- "set `closed`" (R243; log entry 11). -/
def dstClose (old new : DstPort) : Bool := decide (new = { old with closed := true })

/-- "push or pop limits" (R243). -/
def dstLimit (old new : DstPort) : Bool :=
  decide (new = { old with limits := new.limits }) && (limitPushed old.limits new.limits || limitPushed new.limits old.limits)

/-- The destination changes R243 allows. -/
def dstChangeAllowed (old new : DstPort) : Bool := dstDrain old new || dstClose old new || dstLimit old new

/-- The host puts `new` in place of the source Cursor. -/
def hostSource (new : SrcPort) (s : State) : State :=
  if srcChangeAllowed s.src new then s.setSrc new else s.markRefused .hostChange

/-- The host puts `new` in place of the destination Cursor. -/
def hostDestination (new : DstPort) (s : State) : State :=
  if dstChangeAllowed s.dst new then s.setDst new else s.markRefused .hostChange

end Sys2Proof.Machine
end

