-- ==== Sys2Proof/Machine/Events.lean ====
section
/-! DEFINITION. What one host event does: a command word is decoded and run, any other event changes the ports or the power. -/

namespace Sys2Proof.Machine

/-- The host's list without its first event. -/
def State.popHost (s : State) : State := { s with host := s.host.tail }

/-- A command event: the word is decoded and run, or refused (30_encoding.md R89). -/
def runCommand (w : CommandWord) (s : State) : Host.Outcome State Fault Refusal :=
  match decodeCommand w with
  | .ok i => exec i s
  | .error e => .next (s.markRefused (.commandWord e))

/-- One host event. -/
def runEvent (e : HostEvent) (s : State) : Host.Outcome State Fault Refusal :=
  match e with
  | .command w => runCommand w s
  | .concurrentCommand _ => .next (s.markRefused .concurrentCommand)
  | .source new => .next (hostSource new s)
  | .destination new => .next (hostDestination new s)
  | .powerOn => .next s.powerOn

end Sys2Proof.Machine
end

