-- ==== Sys2Proof/Machine/Step.lean ====
section
/-! DEFINITION. One step: the host's next event (00_scope.md R3, 70_reset_and_hazards.md R242). -/

namespace Sys2Proof.Machine

/-- One step. A marked state takes none (70_reset_and_hazards.md R240); with no event, nothing happens (60_exceptions.md
R213: "Nothing happens between commands"). -/
def step (s : State) : Host.Outcome State Fault Refusal :=
  match s.refusedMark, s.host with
  | some a, _ => .refused (.marked a)
  | none, [] => .next s
  | none, e :: _ => runEvent e s.popHost

/-- The command word of an opcode-table row as the host's next event. -/
def State.withFetchWord (s : State) (nbits w : Nat) : State :=
  { s with host := .command (BitVec.ofNat 32 (w % 2 ^ nbits)) :: s.host }

end Sys2Proof.Machine
end

