-- ==== Sys2Proof/Safety.lean ====
section
/-! DEFINITION. What the claims say of a state: the invariants of 10_state.md R41, 20_memory.md R51, R56 and R57, the Cursor
invariants of 70_reset_and_hazards.md R244, and what a running decode is. -/

namespace Sys2Proof.Machine

/-- R41's guard but for PHASE: INIT_DONE = 1 and STATUS is not an error, the `Ready` lifecycle of 10_state.md R22. -/
def State.ready (s : State) : Prop := s.initDone = true ∧ isError s.status = false

/-- "INIT_DONE = 1, STATUS is not an error and PHASE ≠ IDLE" (10_state.md R41). -/
def State.decoding (s : State) : Prop := s.ready ∧ s.phase ≠ .idle

/-- The Cursor invariants (70_reset_and_hazards.md R244). -/
def State.cursorsLegal (s : State) : Prop := s.src.wf = true ∧ s.dst.wf = true

/-- What a DECODE that passes its entry checks needs of the ports to be accepted (70_reset_and_hazards.md R240 items 5 and 7). -/
def State.portsAccepted (s : State) : Prop := s.cursorsLegal ∧ arraysOverlap s.src s.dst = false

/-- A code that is neither CLEAR_CODE nor END_CODE: a literal, or above END_CODE (42_code_semantics.md). -/
def State.ordinaryCode (s : State) (c : CodeValue) : Prop :=
  c.toNat < s.clearCode.toNat ∨ s.endCode.toNat < c.toNat

/-- `exp(c)` (20_memory.md R56), none where the rule does not define it: for CLEAR_CODE, END_CODE and every `c ≥ SAVE_CODE`.
4096 links are more than any chain of R57 has. -/
def State.exp (s : State) (c : CodeValue) : Option (List Byte) :=
  expansion s.codeSpace s.mem.prefixTab s.mem.suffixTab 4096 c

/-- The bytes a COPY or KWKWK code stands for: `exp(c)`, and for the next-free slot the expansion its entry will have,
`exp(PREV_CODE)` with its own first byte after it (42_code_semantics.md R154, R155). -/
def State.pending (s : State) (c : CodeValue) : Option (List Byte) :=
  if c.toNat < s.saveCode.toNat then s.exp c
  else (s.exp s.prevCode).bind (fun l => l.head?.map (fun b => l ++ [b]))

/-- 10_state.md R41 items 1 to 7, and WIDTH = 12 with a full table (42_code_semantics.md R159). -/
structure State.RegistersLegal (s : State) : Prop where
  lw_min : 2 ≤ s.lw.toNat
  lw_max : s.lw.toNat ≤ 8
  clear_eq : s.clearCode.toNat = 2 ^ s.lw.toNat
  end_eq : s.endCode.toNat = s.clearCode.toNat + 1
  width_min : s.lw.toNat + 1 ≤ s.width.toNat
  width_max : s.width.toNat ≤ 12
  save_min : s.endCode.toNat ≤ s.saveCode.toNat
  save_max : s.saveCode.toNat ≤ 4096
  save_width : s.saveCode.toNat < 4096 → s.saveCode.toNat < 2 ^ s.width.toNat
  save_full : s.saveCode.toNat = 4096 → s.width.toNat = 12
  prev_lt : hasPrev s = true → s.prevCode.toNat < s.saveCode.toNat
  prev_ordinary : hasPrev s = true → s.ordinaryCode s.prevCode
  bits_lt : s.bits.toNat < 2 ^ s.nbits.toNat
  nbits_fill : s.phase = .fill → s.nbits.toNat < s.width.toNat + 8
  nbits_emit : s.phase = .emitLit ∨ s.phase = .flush → s.nbits.toNat < 8
  code_literal : s.phase = .emitLit → s.code.toNat < s.clearCode.toNat

/-- Every entry created since the last clear is written, with a prefix below its own index that is neither CLEAR_CODE nor
END_CODE (20_memory.md R51, R57). -/
def State.TableLegal (s : State) : Prop :=
  ∀ k, s.endCode.toNat < k → k < s.saveCode.toNat →
    ∃ p b, Table.read s.mem.prefixTab k = some p ∧ Table.read s.mem.suffixTab k = some b ∧
      p.toNat < k ∧ s.ordinaryCode (chainLink p)

/-- 10_state.md R41 item 8: in FLUSH there is a tail to write, and `STACK[STACK_START..4095]` holds the expansion of CODE, with
FIRST its first byte (R34). -/
structure State.FlushLegal (s : State) : Prop where
  tail_lt : s.stackStart.toNat + s.flushed.toNat < 4096
  code_min : s.endCode.toNat < s.code.toNat
  code_max : s.code.toNat ≤ s.saveCode.toNat
  stack_eq : ∃ l, Table.readRun s.mem.stackTab s.stackStart.toNat (4096 - s.stackStart.toNat) = some l ∧
    s.pending s.code = some l ∧ l.head? = some s.first

/-- What holds at every point of a decode: the tables in canonical form, the Cursors legal and, while decoding, the registers,
the code table and the pending expansion legal. -/
structure State.LoopInv (s : State) : Prop where
  mem_wf : s.mem.wf = true
  cursors : s.cursorsLegal
  registers : s.decoding → s.RegistersLegal
  table : s.decoding → s.TableLegal
  flush : s.decoding → s.phase = .flush → s.FlushLegal

/-- Between commands STATUS and PHASE say the same thing: OK when idle, short-read in FILL, short-write in EMIT_LIT and FLUSH
(60_exceptions.md R202, 40_host_commands.md R102, R108). -/
def State.statusPhase (s : State) : Prop :=
  s.ready →
    (s.phase = .idle → s.status = .ok) ∧ (s.phase = .fill → s.status = .shortRead) ∧
      (s.phase = .emitLit ∨ s.phase = .flush → s.status = .shortWrite)

/-- The invariant of the machine between steps. -/
structure State.Inv (s : State) : Prop where
  loop : s.LoopInv
  boundary : s.statusPhase

/-- `q` is the source Cursor `p` after a command read `q.ri - p.ri` bytes through it: only `ri` and the limits change, and no
more is read than was available (20_memory.md R60, R62, R64, R70). -/
structure SrcPort.ReadTo (p q : SrcPort) : Prop where
  fields : q = { p with ri := q.ri, limits := decrementLimits (q.ri - p.ri) p.limits }
  ri_le : p.ri ≤ q.ri
  bounded : q.ri - p.ri ≤ p.available

/-- `q` is the destination Cursor `p` after a command wrote `q.wi - p.wi` bytes through it: only `wi`, the limits and the bytes
from the old write-index to the new one change, and no more is written than there was space (20_memory.md R61, R62, R65, R70). -/
structure DstPort.WrittenTo (p q : DstPort) : Prop where
  fields : q = { p with data := q.data, wi := q.wi, limits := decrementLimits (q.wi - p.wi) p.limits }
  wi_le : p.wi ≤ q.wi
  bounded : q.wi - p.wi ≤ p.space
  length_eq : q.data.length = p.data.length
  outside : ∀ j, j < p.wi ∨ q.wi ≤ j → q.data[j]? = p.data[j]?

/-- `t` is `s` after Update (42_code_semantics.md R157 to R160): the entry, SAVE_CODE, WIDTH, PREV_CODE and PHASE as the rules
give them, and every other field as it was. -/
structure State.UpdatedTo (s t : State) : Prop where
  prefix_read : ∀ k, Table.read t.mem.prefixTab k =
    if k = s.saveCode.toNat ∧ s.saveCode.toNat ≤ 4095 ∧ s.saveCode.toNat ≠ s.endCode.toNat then some (s.prevCode.setWidth 16)
    else Table.read s.mem.prefixTab k
  suffix_read : ∀ k, Table.read t.mem.suffixTab k =
    if k = s.saveCode.toNat ∧ s.saveCode.toNat ≤ 4095 ∧ s.saveCode.toNat ≠ s.endCode.toNat then some s.first
    else Table.read s.mem.suffixTab k
  stack_eq : t.mem.stackTab = s.mem.stackTab
  save_eq : t.saveCode.toNat = if s.saveCode.toNat ≤ 4095 then s.saveCode.toNat + 1 else s.saveCode.toNat
  width_eq : t.width.toNat =
    if s.saveCode.toNat ≤ 4095 ∧ s.saveCode.toNat + 1 = 2 ^ s.width.toNat ∧ s.width.toNat < 12 then s.width.toNat + 1
    else s.width.toNat
  fields : t = { s with
    mem := t.mem, saveCode := t.saveCode, width := t.width, prevCode := s.code, phase := .fill }

/-- The errors a DECODE can raise from a state that meets the invariants: those of 60_exceptions.md R201 but
initializer-not-called, which needs INIT_DONE = 0, and lzw-prefix-chain-cyclical, which no stream reaches
(43_expansion_and_flush.md R188). -/
def decodeError (o : Status) : Prop :=
  o = .badLiteralWidth ∨ o = .unexpectedEof ∨ o = .closedForWrites ∨ o = .lzwCodeOutOfRange

/-- A DECODE that has ended: the response is STATUS, and STATUS is an error, or OK with PHASE = IDLE, or the suspension that
PHASE says (60_exceptions.md R202, R205). -/
def State.Ended (t : State) : Prop :=
  t.response = some t.status ∧
    (decodeError t.status ∨ (t.status = .ok ∧ t.phase = .idle) ∨ (t.status = .shortRead ∧ t.phase = .fill) ∨
      (t.status = .shortWrite ∧ (t.phase = .emitLit ∨ t.phase = .flush)))

/-- Two states a claim may not tell apart: the same outcome, INIT_DONE, LW_REG, ports, mark and host, and, unless the outcome is an
error, the same in all. After an error the rest is unspecified and "No claim may depend on" it (60_exceptions.md R210). -/
def State.AgreesWith (t u : State) : Prop :=
  t.status = u.status ∧ t.response = u.response ∧ t.initDone = u.initDone ∧ t.lwReg = u.lwReg ∧ t.src = u.src ∧ t.dst = u.dst ∧
    t.refusedMark = u.refusedMark ∧ t.host = u.host ∧ (isError t.status = false → t = u)

/-- Both answer a next state, and the two agree. -/
def answersAgree (x y : Host.Outcome State Fault Refusal) : Prop :=
  ∃ t u, x = .next t ∧ y = .next u ∧ t.AgreesWith u

/-- The code stream the block has still to decode, as one number: the accumulator, then the unread bytes, the oldest bit lowest
(20_memory.md R68, 30_encoding.md R82). -/
def State.streamValue (s : State) : Nat := s.bits.toNat + 2 ^ s.nbits.toNat * streamNat s.src.unread

/-- How many bits of it there are. -/
def State.streamLength (s : State) : Nat := s.nbits.toNat + 8 * (s.src.wi - s.src.ri)

end Sys2Proof.Machine
end

