-- ==== Sys2Proof/Certificates/Slice0/Obligations.lean ====
section
/-! DEFINITION. The statements for the provers, from the numbered rules of spec/. -/

open Sys2Proof Sys2Proof.Machine

/-! ### Encodings -/

/-- The command word's opcode is `word mod 256`, its arg `word div 256`; the three opcodes decode as the table says, INIT and
DECODE only with arg 0, and every other word is rejected by name (30_encoding.md R88, R89). -/
def Obligations.CommandWordDecodesByOpcodeAndArg : Prop :=
  ∀ w : CommandWord, decodeCommand w =
    if w.toNat % 256 = 1 then (if w.toNat / 256 = 0 then .ok .init else .error .nonzeroArg)
    else if w.toNat % 256 = 2 then .ok (.setLiteralWidth (BitVec.ofNat 24 (w.toNat / 256)))
    else if w.toNat % 256 = 3 then (if w.toNat / 256 = 0 then .ok .decode else .error .nonzeroArg)
    else .error .reservedOpcode

/-- HEADLINE (encoding). Every instruction, a command or a code of its class, is what the decoder reads from its encoding,
for every literal width and every SAVE_CODE (30_encoding.md R82 to R84, R86, R88, R89). -/
def Obligations.EncodedInstructionDecodesBack : Prop :=
  ∀ (lw : Nat) (k : CodeSpace) (i : Instr), k.legal lw = true → i.wfIn k = true → decode k (encode k i) = .ok i

/-- The other direction: a word or code that decodes is the encoding of what it decodes to, which meets the condition of its
class (30_encoding.md R83, R89). -/
def Obligations.DecodedWordEncodesBack : Prop :=
  ∀ (lw : Nat) (k : CodeSpace) (e : Encoded) (i : Instr), k.legal lw = true → decode k e = .ok i →
    encode k i = e ∧ i.wfIn k = true

/-- The six conditions of 30_encoding.md R83: exactly one holds of each code, and the decoder gives that class; with
SAVE_CODE = 4096 no code is KWKWK or OOR. -/
def Obligations.CodeClassesPartitionTheCodes : Prop :=
  ∀ (lw : Nat) (k : CodeSpace) (c : CodeValue), k.legal lw = true →
    ([decide (c.toNat < k.clearCode.toNat), decide (c.toNat = k.clearCode.toNat), decide (c.toNat = k.endCode.toNat),
        decide (k.endCode.toNat < c.toNat ∧ c.toNat < k.saveCode.toNat),
        decide (c.toNat = k.saveCode.toNat ∧ k.endCode.toNat < c.toNat),
        decide (k.saveCode.toNat < c.toNat)].count true = 1) ∧
      (c.toNat < k.clearCode.toNat → decodeCode k c = .lit c) ∧
      (c.toNat = k.clearCode.toNat → decodeCode k c = .clr) ∧
      (c.toNat = k.endCode.toNat → decodeCode k c = .endCode) ∧
      (k.endCode.toNat < c.toNat ∧ c.toNat < k.saveCode.toNat → decodeCode k c = .copy c) ∧
      (c.toNat = k.saveCode.toNat ∧ k.endCode.toNat < c.toNat → decodeCode k c = .kwkwk c) ∧
      (k.saveCode.toNat < c.toNat → decodeCode k c = .oor c) ∧
      (k.saveCode.toNat = 4096 → c.toNat < k.saveCode.toNat)

/-- Sanity: words and codes written out from 30_encoding.md R84, R89 and R93 decode to what they stand for. -/
def Obligations.WrittenOutWordsDecode : Prop :=
  decodeTableWord 32 0x00000001 = some .init ∧ decodeTableWord 32 0x00000202 = some (.setLiteralWidth 2) ∧
    decodeTableWord 32 0x00000003 = some .decode ∧ decodeTableWord 32 0x00000004 = none ∧
    decodeTableWord 32 0x00000101 = none ∧
    decodeCode { clearCode := 4, endCode := 5, saveCode := 7 } 3 = .lit 3 ∧
    decodeCode { clearCode := 4, endCode := 5, saveCode := 7 } 6 = .copy 6 ∧
    decodeCode { clearCode := 4, endCode := 5, saveCode := 7 } 7 = .kwkwk 7 ∧
    packCodes [(3, 4), (3, 0), (3, 5)] = [0x44, 0x01]

/-- The outcome codes: each decodes back, errors are the negative ones, OK is zero, suspensions are the positive ones
(30_encoding.md R91, 60_exceptions.md R200). -/
def Obligations.OutcomeCodesCarryTheirCategory : Prop :=
  ∀ o : Status, Status.ofCode o.code = some o ∧ (isError o = true ↔ o.code.toInt < 0) ∧
    (isOkTerminal o = true ↔ o.code.toInt = 0) ∧ (isSuspension o = true ↔ 0 < o.code.toInt) ∧
    (isSuspension o = true ↔ o = .shortRead ∨ o = .shortWrite) ∧ (isOkTerminal o = true ↔ o = .ok)

/-- Packing: the bytes of a code stream, read as stream bits, are its codes end to end, and there are `ceil(S / 8)` of them
(30_encoding.md R80, R82, R87). -/
def Obligations.PackedCodesAreTheStreamBits : Prop :=
  ∀ codes : List (Nat × CodeValue), streamNat (packCodes codes) = codesNat codes ∧
    (packCodes codes).length = (codesBits codes + 7) / 8

/-! ### The parser -/

/-- FILL and EXTRACT: when the accumulator and the available bytes hold WIDTH bits, the parser takes the low WIDTH bits of the
code stream as CODE, reads exactly the bytes the code needs, and changes nothing else (41_bitstream_parser.md R130, R131,
30_encoding.md R82). -/
def Obligations.ParserTakesTheLowWidthBitsOfTheStream : Prop :=
  ∀ s : State, s.src.wf = true → s.bits.toNat < 2 ^ s.nbits.toNat → s.width.toNat ≤ 12 →
    s.nbits.toNat < s.width.toNat + 8 → s.width.toNat ≤ s.nbits.toNat + 8 * s.src.available →
    ∃ t, parseCode s = .go () t ∧ t.code.toNat = s.streamValue % 2 ^ s.width.toNat ∧
      t.streamValue = s.streamValue / 2 ^ s.width.toNat ∧ t.streamLength + s.width.toNat = s.streamLength ∧
      t.src.ri = s.src.ri + (s.width.toNat - s.nbits.toNat + 7) / 8 ∧ t.nbits.toNat < 8 ∧
      s.src.ReadTo t.src ∧ t = { s with code := t.code, bits := t.bits, nbits := t.nbits, src := t.src }

/-- FILL suspended: when they do not, the command ends having read every available byte, with short-read at a limit or an open
end and unexpected-eof at a closed end, and after short-read no bit of the stream is lost (41_bitstream_parser.md R130, R133,
R134, 20_memory.md R63). -/
def Obligations.ParserSuspendsWithoutLosingBits : Prop :=
  ∀ s : State, s.src.wf = true → s.bits.toNat < 2 ^ s.nbits.toNat → s.width.toNat ≤ 12 →
    s.nbits.toNat + 8 * s.src.available < s.width.toNat →
    ∃ t, parseCode s = .stop t ∧ t.src.ri = s.src.ri + s.src.available ∧ s.src.ReadTo t.src ∧
      t.response = some t.status ∧ t.dst = s.dst ∧
      ((0 ∈ t.src.limits ∨ s.src.closed = false) →
        t.status = .shortRead ∧ t.streamValue = s.streamValue ∧ t.streamLength = s.streamLength ∧ t.phase = s.phase ∧
          t.width = s.width ∧ t.mem = s.mem) ∧
      ((0 ∉ t.src.limits ∧ s.src.closed = true) → t.status = .unexpectedEof)

/-! ### Ports -/

/-- The effective limit is the least element, and unbounded when there is none (20_memory.md R62). -/
def Obligations.EffectiveLimitIsTheLeast : Prop :=
  ∀ l : List Nat, (effectiveLimit l = none ↔ l = []) ∧
    ∀ m, effectiveLimit l = some m ↔ m ∈ l ∧ ∀ n ∈ l, m ≤ n

/-- SrcRead: limit 0 gives short-read, then empty and closed gives unexpected-eof, then empty and open short-read, else the byte
at the read-index, the read-index one up and every limit one down (20_memory.md R63). -/
def Obligations.SrcReadTestsLimitThenEmptyThenReads : Prop :=
  ∀ s : State, s.src.wf = true →
    if 0 ∈ s.src.limits ∨ (s.src.ri = s.src.wi ∧ s.src.closed = false) then
      srcRead s = .stop { s with status := .shortRead, response := some .shortRead }
    else if s.src.ri = s.src.wi then
      ∃ t, srcRead s = .stop t ∧ t.status = .unexpectedEof ∧ t.response = some .unexpectedEof ∧ t.src = s.src ∧ t.dst = s.dst
    else
      ∃ b, s.src.data[s.src.ri]? = some b ∧
        srcRead s = .go b { s with
          src := { s.src with ri := s.src.ri + 1, limits := s.src.limits.map (fun n => n - 1) } }

/-- DstWrite: closed raises closed-for-writes, then no space suspends with short-write, else the byte lands at the write-index, the
write-index one up and every limit one down (20_memory.md R66). -/
def Obligations.DstWriteTestsClosedThenSpaceThenWrites : Prop :=
  ∀ (b : Byte) (s : State), s.dst.wf = true →
    if s.dst.closed = true then
      ∃ t, dstWrite b s = .stop t ∧ t.status = .closedForWrites ∧ t.response = some .closedForWrites ∧ t.dst = s.dst ∧
        t.src = s.src
    else if s.dst.wi = s.dst.len ∨ 0 ∈ s.dst.limits then
      dstWrite b s = .stop { s with status := .shortWrite, response := some .shortWrite }
    else
      dstWrite b s = .go () { s with
        dst := { s.dst with
          data := s.dst.data.set s.dst.wi b, wi := s.dst.wi + 1, limits := s.dst.limits.map (fun n => n - 1) } }

/-- DstCopy: closed raises closed-for-writes, else the first `min(n, space)` bytes land at the write-index and that count is
yielded (20_memory.md R65, R67). -/
def Obligations.DstCopyMovesWhatFits : Prop :=
  ∀ (bytes : List Byte) (s : State), s.dst.wf = true →
    if s.dst.closed = true then
      ∃ t, dstCopy bytes s = .stop t ∧ t.status = .closedForWrites ∧ t.response = some .closedForWrites ∧ t.dst = s.dst ∧
        t.src = s.src
    else
      ∃ k t, dstCopy bytes s = .go k t ∧ k = min bytes.length s.dst.space ∧ t = { s with dst := t.dst } ∧
        t.dst = { s.dst with
          data := t.dst.data, wi := s.dst.wi + k, limits := s.dst.limits.map (fun n => n - k) } ∧
        (∀ j, j < k → t.dst.data[s.dst.wi + j]? = bytes[j]?) ∧
        (∀ j, j < s.dst.wi ∨ s.dst.wi + k ≤ j → t.dst.data[j]? = s.dst.data[j]?)

/-! ### Steps and the host -/

/-- A STEP RUNS THE DECODED INSTRUCTION: a command event whose word decodes to `i` is `exec i`, on the state without that event. -/
def Obligations.StepRunsTheDecodedCommand : Prop :=
  ∀ (s : State) (w : CommandWord) (rest : List HostEvent) (i : Instr), s.refusedMark = none →
    s.host = .command w :: rest → decodeCommand w = .ok i → step s = exec i { s with host := rest }

/-- And inside DECODE: when the parser has a code, the pass is `exec` of the instruction the code decodes to
(40_host_commands.md R107, 42_code_semantics.md R150). -/
def Obligations.DecodePassRunsTheParsedCode : Prop :=
  ∀ (s t : State), s.phase = .fill → parseCode s = .go () t → decodePass s = exec (decodeCode t.codeSpace t.code) t

/-- DECODE in every PHASE is its first pass, and then DECODE of what is left unless the pass has sent a response. In IDLE with
LW_REG in 2..8 that pass is the fresh start, so DECODE is DECODE from the fresh-start state; in FILL it is the first code's
instruction. All but for what is unspecified after an error (40_host_commands.md R103, R106, R107, R109, 42_code_semantics.md R150,
60_exceptions.md R210). -/
def Obligations.DecodeRunsTheStreamCodeByCode : Prop :=
  ∀ s : State, s.LoopInv → s.ready → s.portsAccepted →
    (∀ u, decodePass { s with response := none } = .next u →
      if u.response.isSome then exec .decode s = .next u else answersAgree (exec .decode s) (exec .decode u)) ∧
    (s.phase = .idle → 2 ≤ s.lwReg.toNat → s.lwReg.toNat ≤ 8 →
      ∃ u, u.lw.toNat = s.lwReg.toNat ∧ u.clearCode.toNat = 2 ^ s.lwReg.toNat ∧ u.endCode.toNat = 2 ^ s.lwReg.toNat + 1 ∧
        u.saveCode.toNat = 2 ^ s.lwReg.toNat + 1 ∧ u.width.toNat = s.lwReg.toNat + 1 ∧
        u = { s with
          lw := u.lw, clearCode := u.clearCode, endCode := u.endCode, saveCode := u.saveCode, prevCode := 0
          width := u.width, bits := 0, nbits := 0, phase := .fill, response := none } ∧
        answersAgree (exec .decode s) (exec .decode u)) ∧
    (s.phase = .fill → ∀ t u, parseCode { s with response := none } = .go () t →
      exec (decodeCode t.codeSpace t.code) t = .next u →
      if u.response.isSome then exec .decode s = .next u else answersAgree (exec .decode s) (exec .decode u))

/-- A refused action sets the mark, sends no response and changes nothing else: a word that does not decode, a command before the
last response, a source or destination change that is not allowed (70_reset_and_hazards.md R240 items 1, 2, 4, 6). That the
refused action itself is a step to the marked state, which keeps all else, is the model's (log entry 9). -/
def Obligations.RefusedActionsOnlySetTheMark : Prop :=
  ∀ (s : State) (rest : List HostEvent), s.refusedMark = none →
    (∀ w e, s.host = .command w :: rest → decodeCommand w = .error e →
      step s = .next { s with host := rest, refusedMark := some (.commandWord e), response := none }) ∧
    (∀ w, s.host = .concurrentCommand w :: rest →
      step s = .next { s with host := rest, refusedMark := some .concurrentCommand, response := none }) ∧
    (∀ p, s.host = .source p :: rest → srcChangeAllowed s.src p = false →
      step s = .next { s with host := rest, refusedMark := some .hostChange, response := none }) ∧
    (∀ p, s.host = .destination p :: rest → dstChangeAllowed s.dst p = false →
      step s = .next { s with host := rest, refusedMark := some .hostChange, response := none })

/-- The mark is kept for ever: no instruction clears it, not even INIT, and a marked state takes no step
(70_reset_and_hazards.md R240). How the model shows the mark is its own (log entry 9). -/
def Obligations.RefusedMarkIsSticky : Prop :=
  (∀ (i : Instr) (s t : State), exec i s = .next t → s.refusedMark.isSome = true → t.refusedMark.isSome = true) ∧
    ∀ (s : State) (a : RefusedAction), s.refusedMark = some a → step s = .refused (.marked a)

/-- The host's allowed changes keep the Cursor invariants, never reopen a source, and never add bytes to a closed one
(70_reset_and_hazards.md R243, R244). -/
def Obligations.AllowedHostChangesKeepTheCursors : Prop :=
  (∀ p q : SrcPort, srcChangeAllowed p q = true → p.wf = true →
      q.wf = true ∧ (p.closed = true → q.closed = true ∧ q.wi - q.ri ≤ p.wi - p.ri)) ∧
    ∀ p q : DstPort, dstChangeAllowed p q = true → p.wf = true → q.wf = true ∧ (p.closed = true → q.closed = true)

/-- What the host may do to the source: append on an open source, consume, compact into any array that holds the unread bytes
at some index, with room before and after them, overwrite unread bytes, close, push or pop a limit; and to the destination: drain, a new array, close, push or pop a limit (70_reset_and_hazards.md R243). Which end of
`limits` a push acts on is the model's choice (log entry 10), and so is that a replacement array may lie at the old address with the
old indices (log entry 20). -/
def Obligations.HostMayAppendConsumeCompactOverwriteCloseAndLimit : Prop :=
  (∀ (p : SrcPort) (bs : List Byte) (k n : Nat) (base : Nat) (old room : List Byte), p.wf = true →
    (p.closed = false → p.wi + bs.length ≤ p.data.length →
      srcChangeAllowed p { p with data := p.data.take p.wi ++ bs ++ p.data.drop (p.wi + bs.length), wi := p.wi + bs.length } =
        true) ∧
    (p.ri + k ≤ p.wi → srcChangeAllowed p { p with ri := p.ri + k } = true) ∧
    srcChangeAllowed p { p with
      base := base, data := old ++ p.unread ++ room, ri := old.length, wi := old.length + (p.wi - p.ri) } = true ∧
    (p.ri + bs.length ≤ p.data.length →
      srcChangeAllowed p { p with data := p.data.take p.ri ++ bs ++ p.data.drop (p.ri + bs.length) } = true) ∧
    srcChangeAllowed p { p with closed := true } = true ∧
    srcChangeAllowed p { p with limits := n :: p.limits } = true ∧
    srcChangeAllowed { p with limits := n :: p.limits } p = true) ∧
  ∀ (p : DstPort) (k n base : Nat) (bs : List Byte), p.wf = true →
    (k ≤ p.len → dstChangeAllowed p { p with wi := k } = true) ∧
    (k ≤ bs.length → dstChangeAllowed p { p with base := base, data := bs, wi := k, len := bs.length } = true) ∧
    dstChangeAllowed p { p with closed := true } = true ∧
    dstChangeAllowed p { p with limits := n :: p.limits } = true ∧
    dstChangeAllowed { p with limits := n :: p.limits } p = true

/-- A change the host may make replaces the Cursor and leaves all of the block alone, and with no host event nothing happens
(70_reset_and_hazards.md R243, 60_exceptions.md R213). The list of host events is the model's own (log entry 3). -/
def Obligations.AllowedHostChangesTouchOnlyTheCursor : Prop :=
  ∀ (s : State) (rest : List HostEvent), s.refusedMark = none →
    (∀ p, s.host = .source p :: rest → srcChangeAllowed s.src p = true → step s = .next { s with host := rest, src := p }) ∧
    (∀ p, s.host = .destination p :: rest → dstChangeAllowed s.dst p = true →
      step s = .next { s with host := rest, dst := p }) ∧
    (s.host = [] → step s = .next s)

/-- Power-on: INIT_DONE = 0, every table entry unwritten, the ports the host's own; and from there DECODE and SET_LITERAL_WIDTH
answer initializer-not-called, changing nothing (70_reset_and_hazards.md R230); that DECODE does so whatever the Cursors are is the
model's reading of 60_exceptions.md R207 (log entry 12). -/
def Obligations.PowerOnLeavesTheBlockUninitialized : Prop :=
  ∀ (s : State) (rest : List HostEvent), s.refusedMark = none → s.host = .powerOn :: rest →
    ∃ t, step s = .next t ∧ t.initDone = false ∧ t.mem = { prefixTab := [], suffixTab := [], stackTab := [] } ∧
      t.src = s.src ∧ t.dst = s.dst ∧ t.host = rest ∧ t.refusedMark = none ∧
      exec .decode t = .next { t with response := some .initializerNotCalled } ∧
      ∀ w, exec (.setLiteralWidth w) t = .next { t with response := some .initializerNotCalled }

/-- WHOLE MACHINE: INIT_DONE is set by INIT only and cleared by power-on only (10_state.md R22). -/
def Obligations.OnlyInitAndPowerOnChangeInitDone : Prop :=
  ∀ s t : State, step s = .next t → t.initDone ≠ s.initDone →
    (∃ rest, s.host = .powerOn :: rest ∧ t.initDone = false) ∨
      ∃ w rest, s.host = .command w :: rest ∧ decodeCommand w = .ok .init ∧ t.initDone = true

/-- WHOLE MACHINE: LW_REG is written by SET_LITERAL_WIDTH, which stores its operand, and by INIT, which stores 0; besides, only
power-on leaves it open (10_state.md R24). -/
def Obligations.OnlySetLiteralWidthAndInitWriteLwReg : Prop :=
  ∀ s t : State, step s = .next t → t.lwReg ≠ s.lwReg →
    (∃ rest, s.host = .powerOn :: rest) ∨
      (∃ w rest, s.host = .command w :: rest ∧ decodeCommand w = .ok .init ∧ t.lwReg = 0) ∨
      ∃ w rest v, s.host = .command w :: rest ∧ decodeCommand w = .ok (.setLiteralWidth v) ∧ t.lwReg = v

/-- WHOLE MACHINE: once STATUS holds an error, only INIT (and power-on) takes it away (60_exceptions.md R206, R211). -/
def Obligations.PinnedErrorStaysUntilInit : Prop :=
  ∀ s t : State, step s = .next t → s.initDone = true → isError s.status = true → t.status ≠ s.status →
    (∃ rest, s.host = .powerOn :: rest) ∨
      ∃ w rest, s.host = .command w :: rest ∧ decodeCommand w = .ok .init ∧ t.status = .ok

/-! ### INIT and SET_LITERAL_WIDTH -/

/-- INIT, from every state: the registers and tables of 70_reset_and_hazards.md R231, the response OK, the ports left alone. -/
def Obligations.InitSetsTheResetState : Prop :=
  ∀ s : State, ∃ t, exec .init s = .next t ∧ t.initDone = true ∧ t.status = .ok ∧ t.lwReg = 0 ∧ t.phase = .idle ∧
    (∀ i, Table.read t.mem.prefixTab i = none ∧ Table.read t.mem.suffixTab i = none ∧ Table.read t.mem.stackTab i = none) ∧
    t.response = some .ok ∧ t.src = s.src ∧ t.dst = s.dst ∧ t.refusedMark = s.refusedMark ∧ t.host = s.host

/-- SET_LITERAL_WIDTH with a legal width, initialized, unpinned and idle: LW_REG holds it, STATUS stands and is the response, and
nothing else changes (40_host_commands.md R102). -/
def Obligations.SetLiteralWidthStoresALegalWidth : Prop :=
  ∀ (w : BitVec 24) (s : State), s.ready → s.phase = .idle → 2 ≤ w.toNat → w.toNat ≤ 8 →
    exec (.setLiteralWidth w) s = .next { s with lwReg := w, response := some s.status }

/-- SET_LITERAL_WIDTH with a width outside 2..8: LW_REG holds it and bad-literal-width is pinned and sent; the ports are left alone
(40_host_commands.md R102, 60_exceptions.md R201). -/
def Obligations.SetLiteralWidthPinsAnIllegalWidth : Prop :=
  ∀ (w : BitVec 24) (s : State), s.ready → s.phase = .idle → w.toNat < 2 ∨ 8 < w.toNat →
    ∃ t, exec (.setLiteralWidth w) s = .next t ∧ t.lwReg = w ∧ t.status = .badLiteralWidth ∧
      t.response = some .badLiteralWidth ∧ t.initDone = true ∧ t.src = s.src ∧ t.dst = s.dst ∧
      t.refusedMark = s.refusedMark ∧ t.host = s.host

/-- SET_LITERAL_WIDTH's entry checks in their order: not initialized, then pinned, each with no state change but the response, then
a suspended decode, which is refused (60_exceptions.md R207, 70_reset_and_hazards.md R240 item 3, R241). That the refused command
is a step to the marked state, which keeps all else, is the model's (log entry 9). -/
def Obligations.SetLiteralWidthEntryChecksInOrder : Prop :=
  ∀ (w : BitVec 24) (s : State),
    if s.initDone = false then exec (.setLiteralWidth w) s = .next { s with response := some .initializerNotCalled }
    else if isError s.status = true then exec (.setLiteralWidth w) s = .next { s with response := some s.status }
    else s.phase ≠ .idle →
      exec (.setLiteralWidth w) s = .next { s with refusedMark := some .literalWidthWhileSuspended, response := none }

/-! ### DECODE -/

/-- DECODE's entry checks, before anything else and whatever the Cursors are: not initialized, then pinned, each with no state
change but the response (40_host_commands.md R104, R105, 60_exceptions.md R207). That the checks come before the refusals of
70_reset_and_hazards.md R240 items 5 and 7 too, so that the Cursors do not matter, is the model's reading of R207 (log entry 12). -/
def Obligations.DecodeEntryChecksInOrder : Prop :=
  ∀ s : State,
    if s.initDone = false then exec .decode s = .next { s with response := some .initializerNotCalled }
    else isError s.status = true → exec .decode s = .next { s with response := some s.status }

/-- DECODE past its entry checks, on a Cursor that breaks its invariant or on overlapping arrays, is refused
(70_reset_and_hazards.md R240 items 5 and 7, R244, R245). That the refusals come after the entry checks is read from
60_exceptions.md R207 (log entry 12); the place of an array in the host's memory (log entry 4), and that the refused DECODE is a
step to the marked state, which keeps all else (log entry 9), are the model's. -/
def Obligations.DecodeRefusesBrokenOrOverlappingPorts : Prop :=
  ∀ s : State, s.ready →
    (¬ (s.src.ri ≤ s.src.wi ∧ s.src.wi ≤ s.src.data.length ∧ s.dst.wi ≤ s.dst.len ∧ s.dst.len = s.dst.data.length) →
      exec .decode s = .next { s with refusedMark := some .brokenCursor, response := none }) ∧
    (s.cursorsLegal →
      (∃ a, s.src.base ≤ a ∧ a < s.src.base + s.src.data.length ∧ s.dst.base ≤ a ∧ a < s.dst.base + s.dst.data.length) →
      exec .decode s = .next { s with refusedMark := some .overlappingArrays, response := none })

/-- A fresh start with an LW_REG outside 2..8 raises bad-literal-width, and moves no byte (40_host_commands.md R106). -/
def Obligations.DecodeWithoutALiteralWidthFails : Prop :=
  ∀ s : State, s.ready → s.portsAccepted → s.phase = .idle → s.lwReg.toNat < 2 ∨ 8 < s.lwReg.toNat →
    ∃ t, exec .decode s = .next t ∧ t.status = .badLiteralWidth ∧ t.response = some .badLiteralWidth ∧ t.src = s.src ∧
      t.dst = s.dst ∧ t.lwReg = s.lwReg ∧ t.initDone = true

/-- The fresh start: with LW_REG in 2..8 it latches the literal width and sets the post-clear state with an empty accumulator, of
which CLR changes nothing; else it raises bad-literal-width (40_host_commands.md R106). -/
def Obligations.FreshStartIsTheClearedState : Prop :=
  ∀ s : State, s.phase = .idle →
    if 2 ≤ s.lwReg.toNat ∧ s.lwReg.toNat ≤ 8 then
      ∃ t, decodePass s = .next t ∧ t.lw.toNat = s.lwReg.toNat ∧ t.clearCode.toNat = 2 ^ s.lwReg.toNat ∧
        t.endCode.toNat = 2 ^ s.lwReg.toNat + 1 ∧ t.saveCode.toNat = 2 ^ s.lwReg.toNat + 1 ∧ t.prevCode = 0 ∧
        t.width.toNat = s.lwReg.toNat + 1 ∧ t.bits = 0 ∧ t.nbits = 0 ∧ t.phase = .fill ∧
        t = { s with
          lw := t.lw, clearCode := t.clearCode, endCode := t.endCode, saveCode := t.saveCode, prevCode := 0
          width := t.width, bits := 0, nbits := 0, phase := .fill } ∧
        exec .clr t = .next t
    else
      ∃ t, decodePass s = .next t ∧ t.status = .badLiteralWidth ∧ t.response = some .badLiteralWidth ∧ t.src = s.src ∧
        t.dst = s.dst ∧ t.lwReg = s.lwReg ∧ t.initDone = s.initDone

/-- Liveness and safety: from every state that meets the invariant, an accepted DECODE answers: it ends with OK, a
suspension that its PHASE says, or an error other than lzw-prefix-chain-cyclical and initializer-not-called, in a state that meets
the invariant again. It never reads an unwritten entry and never hangs (40_host_commands.md R108, R111, 43_expansion_and_flush.md
R188, 60_exceptions.md R202, R205). -/
def Obligations.DecodeAlwaysAnswersAndNeverFindsACycle : Prop :=
  ∀ s : State, s.Inv → s.ready → s.portsAccepted → ∃ t, exec .decode s = .next t ∧ t.Ended ∧ t.Inv

/-- DECODE's frame, from every state: INIT_DONE, LW_REG and the host's list stand; through the source only the read-index and the
limits move, by no more than was available; through the destination only the bytes from the old write-index to the new one, the
write-index and the limits, by no more than there was space (20_memory.md R60 to R62, R64, R65, R70). -/
def Obligations.DecodeMovesOnlyThroughThePorts : Prop :=
  ∀ s t : State, exec .decode s = .next t →
    t.initDone = s.initDone ∧ t.lwReg = s.lwReg ∧ t.host = s.host ∧ s.src.ReadTo t.src ∧ s.dst.WrittenTo t.dst

/-- A suspended DECODE issued again with nothing changed gives the same suspension and the same state
(70_reset_and_hazards.md R248). -/
def Obligations.ReissuedDecodeRepeatsItsSuspension : Prop :=
  ∀ s t : State, exec .decode s = .next t → t.response = some .shortRead ∨ t.response = some .shortWrite →
    exec .decode t = .next t

/-- An END code in the accumulator ends DECODE with OK: nothing is written, no byte is read, and PHASE is IDLE
(42_code_semantics.md R153). -/
def Obligations.DecodeEndsWithOkAtTheEndCode : Prop :=
  ∀ s : State, s.LoopInv → s.ready → s.portsAccepted → s.phase = .fill → s.width.toNat ≤ s.nbits.toNat →
    s.bits.toNat % 2 ^ s.width.toNat = s.endCode.toNat →
    ∃ t, exec .decode s = .next t ∧ t.status = .ok ∧ t.response = some .ok ∧ t.phase = .idle ∧ t.src = s.src ∧
      t.dst = s.dst ∧ t.mem = s.mem

/-- Chunk invariance, source side: cut the source of a DECODE anywhere and leave it open; if that DECODE suspends with
short-read, giving the rest of the source back and issuing DECODE again ends as the one DECODE with the whole source does, in
all but what is unspecified after an error (40_host_commands.md R110, 60_exceptions.md R210). -/
def Obligations.CuttingTheSourceChangesNothing : Prop :=
  ∀ (s t : State) (m : Nat), s.LoopInv → s.ready → s.portsAccepted → s.src.ri ≤ m → m ≤ s.src.wi →
    exec .decode { s with src := { s.src with wi := m, closed := false } } = .next t → t.response = some .shortRead →
    answersAgree (exec .decode { t with src := { t.src with wi := s.src.wi, closed := s.src.closed } }) (exec .decode s)

/-- Chunk invariance, destination side: cut the destination array of a DECODE anywhere at or above its write-index; if
that DECODE suspends with short-write, giving the rest of the array back and issuing DECODE again ends as the one DECODE with
the whole array does, in all but what is unspecified after an error (40_host_commands.md R110, 60_exceptions.md R210). -/
def Obligations.CuttingTheDestinationChangesNothing : Prop :=
  ∀ (s t : State) (m : Nat), s.LoopInv → s.ready → s.portsAccepted → s.dst.wi ≤ m → m ≤ s.dst.len →
    exec .decode { s with dst := { s.dst with data := s.dst.data.take m, len := m } } = .next t →
    t.response = some .shortWrite →
    answersAgree (exec .decode { t with dst := { t.dst with data := t.dst.data ++ s.dst.data.drop m, len := s.dst.len } })
      (exec .decode s)

/-! ### The codes -/

/-- LIT on an open destination with space: the byte c lands at the write-index, FIRST is c, and Update follows
(42_code_semantics.md R151, 43_expansion_and_flush.md R187, 42_code_semantics.md R157). That CODE takes c from the instruction is
log entry 13, and that LIT runs on a c outside its class is log entry 15. -/
def Obligations.LitWritesItsByteAndUpdates : Prop :=
  ∀ (c : CodeValue) (s : State), s.dst.wf = true → s.dst.closed = false → 0 < s.dst.space →
    ∃ t, exec (.lit c) s = .next t ∧
      State.UpdatedTo { s with
        code := c, first := c.setWidth 8
        dst := { s.dst with
          data := s.dst.data.set s.dst.wi (c.setWidth 8), wi := s.dst.wi + 1
          limits := s.dst.limits.map (fun n => n - 1) } } t

/-- LIT on a closed destination raises closed-for-writes and writes nothing; on an open one without space it suspends with
short-write in EMIT_LIT with CODE kept, and nothing else changes (42_code_semantics.md R151). That CODE takes c from the
instruction is log entry 13, and that LIT runs on a c outside its class is log entry 15. -/
def Obligations.LitWithoutSpaceKeepsItsCode : Prop :=
  ∀ (c : CodeValue) (s : State),
    (s.dst.closed = true → ∃ t, exec (.lit c) s = .next t ∧ t.status = .closedForWrites ∧
      t.response = some .closedForWrites ∧ t.dst = s.dst ∧ t.src = s.src) ∧
    (s.dst.closed = false → s.dst.space = 0 →
      exec (.lit c) s = .next { s with
        code := c, phase := .emitLit, status := .shortWrite, response := some .shortWrite })

/-- CLR: SAVE_CODE is END_CODE, PREV_CODE 0, WIDTH LW + 1, and every other register, every table entry, both ports, STATUS and the
response are as they were (42_code_semantics.md R152). -/
def Obligations.ClrResetsTheDictionaryOnly : Prop :=
  ∀ s : State, s.lw.toNat ≤ 8 → ∃ t, exec .clr s = .next t ∧ t.saveCode.toNat = s.endCode.toNat ∧ t.prevCode.toNat = 0 ∧
    t.width.toNat = s.lw.toNat + 1 ∧
    t = { s with saveCode := t.saveCode, prevCode := t.prevCode, width := t.width }

/-- END: PHASE is IDLE, STATUS and the response OK (42_code_semantics.md R153), and everything else is as it was. That BITS and NBITS
stand too, where 30_encoding.md R87 has the leftover bits discarded, is the model's reading (log entry 14). -/
def Obligations.EndFinishesTheStream : Prop :=
  ∀ s : State, ∃ t, exec .endCode s = .next t ∧ t.phase = .idle ∧ t.status = .ok ∧ t.response = some .ok ∧
    t = { s with phase := t.phase, status := t.status, response := t.response }

/-- OOR, on every operand: lzw-code-out-of-range is pinned and sent, and no byte is read or written (42_code_semantics.md R156,
60_exceptions.md R209). That OOR runs on a c outside its class is log entry 15. -/
def Obligations.OorRaisesCodeOutOfRange : Prop :=
  ∀ (c : CodeValue) (s : State), ∃ t, exec (.oor c) s = .next t ∧ t.status = .lzwCodeOutOfRange ∧
    t.response = some .lzwCodeOutOfRange ∧ t.initDone = s.initDone ∧ t.lwReg = s.lwReg ∧ t.src = s.src ∧ t.dst = s.dst ∧
    t.refusedMark = s.refusedMark ∧ t.host = s.host

/-- COPY of a code that has an expansion, on an open destination with space for it: `exp(c)` lands at the write-index in
forward order, STACK[STACK_START..4095] holds it, FIRST is its first byte, and Update follows (42_code_semantics.md R154,
43_expansion_and_flush.md R180, R182, R184, 20_memory.md R56). That CODE takes c from the instruction is log entry 13, and that
COPY runs on a literal c is log entry 15. -/
def Obligations.CopyWritesItsExpansionAndUpdates : Prop :=
  ∀ (c : CodeValue) (s : State) (l : List Byte), s.dst.wf = true → s.dst.closed = false → s.exp c = some l →
    l.length ≤ 4096 → l.length ≤ s.dst.space →
    ∃ t stack b, exec (.copy c) s = .next t ∧ l.head? = some b ∧
      Table.readRun stack (4096 - l.length) l.length = some l ∧
      (∀ j, j < 4096 - l.length → Table.read stack j = Table.read s.mem.stackTab j) ∧
      State.UpdatedTo { s with
        code := c, first := b, stackStart := BitVec.ofNat 12 (4096 - l.length), flushed := BitVec.ofNat 13 l.length
        mem := { s.mem with stackTab := stack }
        dst := { s.dst with
          data := s.dst.data.take s.dst.wi ++ l ++ s.dst.data.drop (s.dst.wi + l.length), wi := s.dst.wi + l.length
          limits := s.dst.limits.map (fun n => n - l.length) } } t

/-- KWKWK, likewise: `exp(PREV_CODE)` and its first byte again land at the write-index, FIRST is that byte, and Update
follows (42_code_semantics.md R155, 43_expansion_and_flush.md R180, R183). That CODE takes c from the instruction is log entry 13,
and that KWKWK runs on a c outside its class is log entry 15. -/
def Obligations.KwkwkWritesThePreviousExpansionAndItsFirstByte : Prop :=
  ∀ (c : CodeValue) (s : State) (l : List Byte) (b : Byte), s.dst.wf = true → s.dst.closed = false →
    s.exp s.prevCode = some l → l.head? = some b → l.length ≤ 4095 → l.length + 1 ≤ s.dst.space →
    ∃ t stack, exec (.kwkwk c) s = .next t ∧
      Table.readRun stack (4095 - l.length) (l.length + 1) = some (l ++ [b]) ∧
      (∀ j, j < 4095 - l.length → Table.read stack j = Table.read s.mem.stackTab j) ∧
      State.UpdatedTo { s with
        code := c, first := b, stackStart := BitVec.ofNat 12 (4095 - l.length), flushed := BitVec.ofNat 13 (l.length + 1)
        mem := { s.mem with stackTab := stack }
        dst := { s.dst with
          data := s.dst.data.take s.dst.wi ++ (l ++ [b]) ++ s.dst.data.drop (s.dst.wi + (l.length + 1))
          wi := s.dst.wi + (l.length + 1), limits := s.dst.limits.map (fun n => n - (l.length + 1)) } } t

/-- After a KWKWK of the next-free code has written its bytes and updated, `exp(c)` is exactly those bytes
(42_code_semantics.md R155). -/
def Obligations.KwkwkEntryExpandsToWhatItWrote : Prop :=
  ∀ (c : CodeValue) (s t : State) (l : List Byte) (b : Byte), s.LoopInv → s.decoding → s.phase = .fill →
    c.toNat = s.saveCode.toNat → s.endCode.toNat < c.toNat → s.dst.closed = false → s.exp s.prevCode = some l →
    l.head? = some b → l.length + 1 ≤ s.dst.space → exec (.kwkwk c) s = .next t → t.exp c = some (l ++ [b])

/-- COPY and KWKWK whose bytes do not fit suspend with short-write in FLUSH: the bytes that fit are written, FLUSHED counts them,
STACK_START marks where the expansion begins, CODE is kept, and the table entry is not made (42_code_semantics.md R154, R155,
43_expansion_and_flush.md R184, 70_reset_and_hazards.md R246); STACK below STACK_START stands. That CODE takes c from the instruction
is log entry 13, and that the two run on a c outside their class is log entry 15. -/
def Obligations.ExpansionThatDoesNotFitSuspendsInFlush : Prop :=
  ∀ (kw : Bool) (c : CodeValue) (s : State) (l : List Byte), s.dst.wf = true → s.dst.closed = false →
    (if kw then ∃ p b, s.exp s.prevCode = some p ∧ p.head? = some b ∧ p.length ≤ 4095 ∧ l = p ++ [b]
      else s.exp c = some l ∧ l.length ≤ 4096) →
    s.dst.space < l.length →
    ∃ t stack b, exec (if kw then .kwkwk c else .copy c) s = .next t ∧ l.head? = some b ∧
      Table.readRun stack (4096 - l.length) l.length = some l ∧
      (∀ j, j < 4096 - l.length → Table.read stack j = Table.read s.mem.stackTab j) ∧
      t = { s with
        code := c, first := b, phase := .flush, stackStart := BitVec.ofNat 12 (4096 - l.length)
        flushed := BitVec.ofNat 13 s.dst.space, mem := { s.mem with stackTab := stack }
        status := .shortWrite, response := some .shortWrite
        dst := { s.dst with
          data := s.dst.data.take s.dst.wi ++ l.take s.dst.space ++ s.dst.data.drop (s.dst.wi + s.dst.space)
          wi := s.dst.wi + s.dst.space, limits := s.dst.limits.map (fun n => n - s.dst.space) } }

/-- A resumed flush writes the tail that is left, with no walk: all of it and Update, or what fits and short-write again with
FLUSHED raised by that much (43_expansion_and_flush.md R184, R185). -/
def Obligations.ResumedFlushWritesOnlyTheTail : Prop :=
  ∀ (s : State) (l : List Byte), s.phase = .flush → s.dst.wf = true → s.dst.closed = false →
    Table.readRun s.mem.stackTab (s.stackStart.toNat + s.flushed.toNat)
      (4096 - (s.stackStart.toNat + s.flushed.toNat)) = some l →
    s.stackStart.toNat + s.flushed.toNat < 4096 →
    if l.length ≤ s.dst.space then
      ∃ t, decodePass s = .next t ∧
        State.UpdatedTo { s with
          flushed := BitVec.ofNat 13 (4096 - s.stackStart.toNat)
          dst := { s.dst with
            data := s.dst.data.take s.dst.wi ++ l ++ s.dst.data.drop (s.dst.wi + l.length), wi := s.dst.wi + l.length
            limits := s.dst.limits.map (fun n => n - l.length) } } t
    else
      decodePass s = .next { s with
        flushed := BitVec.ofNat 13 (s.flushed.toNat + s.dst.space), status := .shortWrite, response := some .shortWrite
        dst := { s.dst with
          data := s.dst.data.take s.dst.wi ++ l.take s.dst.space ++ s.dst.data.drop (s.dst.wi + s.dst.space)
          wi := s.dst.wi + s.dst.space, limits := s.dst.limits.map (fun n => n - s.dst.space) } }

/-- COPY and KWKWK on a closed destination raise closed-for-writes even when the bytes would fit, and write nothing
(42_code_semantics.md R154, R155, 43_expansion_and_flush.md R184). That the two run on a c outside their class is log entry 15. -/
def Obligations.ExpansionOnAClosedDestinationFails : Prop :=
  ∀ (kw : Bool) (c : CodeValue) (s : State) (l : List Byte), s.dst.closed = true →
    s.exp (if kw then s.prevCode else c) = some l → (l.length ≤ if kw then 4095 else 4096) →
    ∃ t, exec (if kw then .kwkwk c else .copy c) s = .next t ∧ t.status = .closedForWrites ∧
      t.response = some .closedForWrites ∧ t.dst = s.dst ∧ t.src = s.src

/-- The cycle check and its exact bound. `x` lists the codes of the chain, from c for COPY and from PREV_CODE for KWKWK; the slots
are 4096 for COPY and 4095 for KWKWK. If the first `slots` codes of the chain are entries, so that it needs more links than there are
slots, lzw-prefix-chain-cyclical is raised and no byte is written; if it comes to a literal after `n < slots` links, it is not raised
(43_expansion_and_flush.md R181, R189). The walk needs neither the class of c (log entry 15) nor a decreasing chain: a longer one
is reached by no stream. -/
def Obligations.ChainLongerThanTheStackIsCyclical : Prop :=
  ∀ (kw : Bool) (c : CodeValue) (s : State) (slots n : Nat) (x : Nat → CodeValue),
    slots = (if kw then 4095 else 4096) → x 0 = (if kw then s.prevCode else c) →
    (∀ k, k < n → s.clearCode.toNat ≤ (x k).toNat ∧ (Table.read s.mem.suffixTab (x k).toNat).isSome = true) →
    (∀ k, k < n → k + 1 < slots → ∃ p, Table.read s.mem.prefixTab (x k).toNat = some p ∧ x (k + 1) = p.setWidth 12) →
    (n = slots → ∃ t, exec (if kw then .kwkwk c else .copy c) s = .next t ∧ t.status = .lzwPrefixChainCyclical ∧
      t.response = some .lzwPrefixChainCyclical ∧ t.dst = s.dst ∧ t.src = s.src) ∧
    (n < slots → (x n).toNat < s.clearCode.toNat → s.status ≠ .lzwPrefixChainCyclical →
      ∀ t, exec (if kw then .kwkwk c else .copy c) s = .next t → t.status ≠ .lzwPrefixChainCyclical)

/-- A walk that reads an unwritten table entry is the model fault ReadUnwrittenTable (20_memory.md R54, 43_expansion_and_flush.md
R180). `x` lists the codes of the chain, from c for COPY and from PREV_CODE for KWKWK; the slots are 4096 and 4095. After `n < slots`
written entries the walk comes to the entry `x n`, whose suffix is unwritten, or whose prefix is and it is not the last slot, where
the prefix is not read. That the two run on a c outside their class is log entry 15. -/
def Obligations.WalkOverAnUnwrittenEntryFaults : Prop :=
  ∀ (kw : Bool) (c : CodeValue) (s : State) (slots n : Nat) (x : Nat → CodeValue),
    slots = (if kw then 4095 else 4096) → x 0 = (if kw then s.prevCode else c) → n < slots →
    (∀ k, k < n → s.clearCode.toNat ≤ (x k).toNat ∧ (Table.read s.mem.suffixTab (x k).toNat).isSome = true) →
    (∀ k, k < n → ∃ p, Table.read s.mem.prefixTab (x k).toNat = some p ∧ x (k + 1) = p.setWidth 12) →
    s.clearCode.toNat ≤ (x n).toNat →
    (Table.read s.mem.suffixTab (x n).toNat = none ∨
      (n + 1 < slots ∧ Table.read s.mem.prefixTab (x n).toNat = none)) →
    exec (if kw then .kwkwk c else .copy c) s = .fault .readUnwrittenTable

/-- The frame of LIT, COPY and KWKWK when they answer: INIT_DONE, LW_REG, the source port, the host's list and the mark stand, and
of the destination only the bytes from the old write-index to the new one change. If the answer is not an error, LW, CLEAR_CODE,
END_CODE, BITS, NBITS stand, and so does every entry of PREFIX and SUFFIX but the one at SAVE_CODE; and for LIT also STACK,
STACK_START and FLUSHED (42_code_semantics.md R151, R154, R155, R157). -/
def Obligations.OrdinaryCodeFrame : Prop :=
  ∀ (i : Instr) (c : CodeValue) (s t : State), i = .lit c ∨ i = .copy c ∨ i = .kwkwk c → exec i s = .next t →
    t.initDone = s.initDone ∧ t.lwReg = s.lwReg ∧ t.src = s.src ∧ t.host = s.host ∧ t.refusedMark = s.refusedMark ∧
      s.dst.WrittenTo t.dst ∧
      (t.status ≠ .closedForWrites → t.status ≠ .lzwPrefixChainCyclical →
        t.lw = s.lw ∧ t.clearCode = s.clearCode ∧ t.endCode = s.endCode ∧ t.bits = s.bits ∧ t.nbits = s.nbits ∧
          t.code = c ∧
          (∀ k, k ≠ s.saveCode.toNat → Table.read t.mem.prefixTab k = Table.read s.mem.prefixTab k ∧
            Table.read t.mem.suffixTab k = Table.read s.mem.suffixTab k) ∧
          (i = .lit c → t.mem.stackTab = s.mem.stackTab ∧ t.stackStart = s.stackStart ∧ t.flushed = s.flushed))

/-- Update: the entry, SAVE_CODE, the width growth, PREV_CODE and PHASE (42_code_semantics.md R157, R160). -/
def Obligations.UpdateMakesTheEntryAndGrowsTheWidth : Prop := ∀ s : State, s.UpdatedTo s.update

/-- Table full, SAVE_CODE = 4096: Update moves PREV_CODE and PHASE only, so that the tables, SAVE_CODE and WIDTH stand; every code
above END_CODE is COPY; in a legal decoding state WIDTH is 12 and the parser takes 12 bits for a code; and LIT, COPY and KWKWK that
end in no error leave PREFIX, SUFFIX, SAVE_CODE and WIDTH as they were (42_code_semantics.md R157, R159, R160). With a full table no
code is KWKWK (30_encoding.md R83): that KWKWK, and LIT and COPY of a c outside their class, run at all is log entry 15. -/
def Obligations.FullTableStaysFrozen : Prop :=
  ∀ s : State, s.saveCode.toNat = 4096 →
    s.update = { s with prevCode := s.code, phase := .fill } ∧
    (s.endCode.toNat = s.clearCode.toNat + 1 → ∀ c : CodeValue, s.endCode.toNat < c.toNat →
      decodeCode s.codeSpace c = .copy c) ∧
    (s.LoopInv → s.decoding → s.width.toNat = 12 ∧
      ∀ t, s.phase = .fill → parseCode s = .go () t → t.code.toNat = s.streamValue % 2 ^ 12 ∧
        t.streamLength + 12 = s.streamLength ∧ t.saveCode = s.saveCode ∧ t.width = s.width ∧ t.mem = s.mem) ∧
    ∀ (i : Instr) (c : CodeValue) (t : State), i = .lit c ∨ i = .copy c ∨ i = .kwkwk c → exec i s = .next t →
      t.status ≠ .closedForWrites → t.status ≠ .lzwPrefixChainCyclical →
      t.saveCode = s.saveCode ∧ t.width = s.width ∧ t.mem.prefixTab = s.mem.prefixTab ∧ t.mem.suffixTab = s.mem.suffixTab

/-- Every ordinary code below SAVE_CODE has an expansion, of one byte for a literal, of at most `c − END_CODE + 1` bytes for an
entry, and so of at most `4096 − END_CODE` (20_memory.md R56, R57, R58). -/
def Obligations.ExpansionsExistAndAreBounded : Prop :=
  ∀ (s : State) (c : CodeValue), s.LoopInv → s.decoding → s.ordinaryCode c → c.toNat < s.saveCode.toNat →
    ∃ l, s.exp c = some l ∧ 0 < l.length ∧ (c.toNat < s.clearCode.toNat → l = [c.setWidth 8]) ∧
      (s.endCode.toNat < c.toNat → l.length ≤ c.toNat - s.endCode.toNat + 1) ∧ l.length ≤ 4096 - s.endCode.toNat

/-! ### Invariants -/

/-- Reset meets the invariant; INIT_DONE is 0 and every table entry unwritten there (70_reset_and_hazards.md R230). The invariant's
legal Cursors (R244) rest at reset on the empty ports that the model chose (log entry 2); no register value it chose is part of it
(log entry 1). -/
def Obligations.ResetMeetsTheInvariant : Prop :=
  State.reset.Inv ∧ State.reset.initDone = false ∧
    ∀ i, Table.read State.reset.mem.prefixTab i = none ∧ Table.read State.reset.mem.suffixTab i = none ∧
      Table.read State.reset.mem.stackTab i = none

/-- HEADLINE (invariant). Every step keeps the invariant: the tables canonical, the Cursors legal, the registers, the code table
and the pending expansion as 10_state.md R41 and 20_memory.md R57 say while a decode is in progress, WIDTH 12 with a full table, and
STATUS and PHASE in agreement between commands (10_state.md R41, 20_memory.md R51, R57, 42_code_semantics.md R159, 60_exceptions.md
R202). -/
def Obligations.StepKeepsTheInvariant : Prop := ∀ s t : State, s.Inv → step s = .next t → t.Inv

/-- Every step keeps the tables in canonical form, from every state that has it. The form is the model's own: the spec's tables
are indices 0 to 4095 of entries written or unwritten (20_memory.md R50, R54). -/
def Obligations.StepKeepsTheTablesCanonical : Prop :=
  ∀ s t : State, s.mem.wf = true → step s = .next t → t.mem.wf = true
end

