-- ==== Sys2Proof/Laws/State.lean ====
section
/-! SUPPORT. Beside State: for each named update one lemma per field, true by rfl, so that no proof unfolds a record update. -/

namespace Sys2Proof.Machine

/-! ### `State.respond` -/

@[simp] theorem State.respond_initDone (o : Status) (s : State) :
    (s.respond o).initDone = s.initDone := rfl

@[simp] theorem State.respond_status (o : Status) (s : State) :
    (s.respond o).status = s.status := rfl

@[simp] theorem State.respond_lwReg (o : Status) (s : State) :
    (s.respond o).lwReg = s.lwReg := rfl

@[simp] theorem State.respond_phase (o : Status) (s : State) :
    (s.respond o).phase = s.phase := rfl

@[simp] theorem State.respond_lw (o : Status) (s : State) :
    (s.respond o).lw = s.lw := rfl

@[simp] theorem State.respond_clearCode (o : Status) (s : State) :
    (s.respond o).clearCode = s.clearCode := rfl

@[simp] theorem State.respond_endCode (o : Status) (s : State) :
    (s.respond o).endCode = s.endCode := rfl

@[simp] theorem State.respond_saveCode (o : Status) (s : State) :
    (s.respond o).saveCode = s.saveCode := rfl

@[simp] theorem State.respond_prevCode (o : Status) (s : State) :
    (s.respond o).prevCode = s.prevCode := rfl

@[simp] theorem State.respond_width (o : Status) (s : State) :
    (s.respond o).width = s.width := rfl

@[simp] theorem State.respond_bits (o : Status) (s : State) :
    (s.respond o).bits = s.bits := rfl

@[simp] theorem State.respond_nbits (o : Status) (s : State) :
    (s.respond o).nbits = s.nbits := rfl

@[simp] theorem State.respond_code (o : Status) (s : State) :
    (s.respond o).code = s.code := rfl

@[simp] theorem State.respond_first (o : Status) (s : State) :
    (s.respond o).first = s.first := rfl

@[simp] theorem State.respond_stackStart (o : Status) (s : State) :
    (s.respond o).stackStart = s.stackStart := rfl

@[simp] theorem State.respond_flushed (o : Status) (s : State) :
    (s.respond o).flushed = s.flushed := rfl

@[simp] theorem State.respond_mem (o : Status) (s : State) :
    (s.respond o).mem = s.mem := rfl

@[simp] theorem State.respond_src (o : Status) (s : State) :
    (s.respond o).src = s.src := rfl

@[simp] theorem State.respond_dst (o : Status) (s : State) :
    (s.respond o).dst = s.dst := rfl

@[simp] theorem State.respond_response (o : Status) (s : State) :
    (s.respond o).response = some o := rfl

@[simp] theorem State.respond_refusedMark (o : Status) (s : State) :
    (s.respond o).refusedMark = s.refusedMark := rfl

@[simp] theorem State.respond_host (o : Status) (s : State) :
    (s.respond o).host = s.host := rfl

@[simp] theorem State.respond_draws (o : Status) (s : State) :
    (s.respond o).draws = s.draws := rfl


/-! ### `State.ret` -/

@[simp] theorem State.ret_initDone (o : Status) (s : State) :
    (s.ret o).initDone = s.initDone := rfl

@[simp] theorem State.ret_status (o : Status) (s : State) :
    (s.ret o).status = o := rfl

@[simp] theorem State.ret_lwReg (o : Status) (s : State) :
    (s.ret o).lwReg = s.lwReg := rfl

@[simp] theorem State.ret_phase (o : Status) (s : State) :
    (s.ret o).phase = s.phase := rfl

@[simp] theorem State.ret_lw (o : Status) (s : State) :
    (s.ret o).lw = s.lw := rfl

@[simp] theorem State.ret_clearCode (o : Status) (s : State) :
    (s.ret o).clearCode = s.clearCode := rfl

@[simp] theorem State.ret_endCode (o : Status) (s : State) :
    (s.ret o).endCode = s.endCode := rfl

@[simp] theorem State.ret_saveCode (o : Status) (s : State) :
    (s.ret o).saveCode = s.saveCode := rfl

@[simp] theorem State.ret_prevCode (o : Status) (s : State) :
    (s.ret o).prevCode = s.prevCode := rfl

@[simp] theorem State.ret_width (o : Status) (s : State) :
    (s.ret o).width = s.width := rfl

@[simp] theorem State.ret_bits (o : Status) (s : State) :
    (s.ret o).bits = s.bits := rfl

@[simp] theorem State.ret_nbits (o : Status) (s : State) :
    (s.ret o).nbits = s.nbits := rfl

@[simp] theorem State.ret_code (o : Status) (s : State) :
    (s.ret o).code = s.code := rfl

@[simp] theorem State.ret_first (o : Status) (s : State) :
    (s.ret o).first = s.first := rfl

@[simp] theorem State.ret_stackStart (o : Status) (s : State) :
    (s.ret o).stackStart = s.stackStart := rfl

@[simp] theorem State.ret_flushed (o : Status) (s : State) :
    (s.ret o).flushed = s.flushed := rfl

@[simp] theorem State.ret_mem (o : Status) (s : State) :
    (s.ret o).mem = s.mem := rfl

@[simp] theorem State.ret_src (o : Status) (s : State) :
    (s.ret o).src = s.src := rfl

@[simp] theorem State.ret_dst (o : Status) (s : State) :
    (s.ret o).dst = s.dst := rfl

@[simp] theorem State.ret_response (o : Status) (s : State) :
    (s.ret o).response = some o := rfl

@[simp] theorem State.ret_refusedMark (o : Status) (s : State) :
    (s.ret o).refusedMark = s.refusedMark := rfl

@[simp] theorem State.ret_host (o : Status) (s : State) :
    (s.ret o).host = s.host := rfl

@[simp] theorem State.ret_draws (o : Status) (s : State) :
    (s.ret o).draws = s.draws := rfl


/-! ### `State.drawWorking` -/

@[simp] theorem State.drawWorking_initDone (s : State) :
    (s.drawWorking).initDone = s.initDone := rfl

@[simp] theorem State.drawWorking_status (s : State) :
    (s.drawWorking).status = s.status := rfl

@[simp] theorem State.drawWorking_lwReg (s : State) :
    (s.drawWorking).lwReg = s.lwReg := rfl

@[simp] theorem State.drawWorking_phase (s : State) :
    (s.drawWorking).phase = s.phase := rfl

@[simp] theorem State.drawWorking_lw (s : State) :
    (s.drawWorking).lw = Config.freeRegister 4 4 s.draws := rfl

@[simp] theorem State.drawWorking_clearCode (s : State) :
    (s.drawWorking).clearCode = Config.freeRegister 5 9 s.draws := rfl

@[simp] theorem State.drawWorking_endCode (s : State) :
    (s.drawWorking).endCode = Config.freeRegister 6 9 s.draws := rfl

@[simp] theorem State.drawWorking_saveCode (s : State) :
    (s.drawWorking).saveCode = Config.freeRegister 7 13 s.draws := rfl

@[simp] theorem State.drawWorking_prevCode (s : State) :
    (s.drawWorking).prevCode = Config.freeRegister 8 12 s.draws := rfl

@[simp] theorem State.drawWorking_width (s : State) :
    (s.drawWorking).width = Config.freeRegister 9 4 s.draws := rfl

@[simp] theorem State.drawWorking_bits (s : State) :
    (s.drawWorking).bits = Config.freeRegister 10 32 s.draws := rfl

@[simp] theorem State.drawWorking_nbits (s : State) :
    (s.drawWorking).nbits = Config.freeRegister 11 5 s.draws := rfl

@[simp] theorem State.drawWorking_code (s : State) :
    (s.drawWorking).code = Config.freeRegister 12 12 s.draws := rfl

@[simp] theorem State.drawWorking_first (s : State) :
    (s.drawWorking).first = Config.freeRegister 13 8 s.draws := rfl

@[simp] theorem State.drawWorking_stackStart (s : State) :
    (s.drawWorking).stackStart = Config.freeRegister 14 12 s.draws := rfl

@[simp] theorem State.drawWorking_flushed (s : State) :
    (s.drawWorking).flushed = Config.freeRegister 15 13 s.draws := rfl

@[simp] theorem State.drawWorking_mem (s : State) :
    (s.drawWorking).mem = s.mem := rfl

@[simp] theorem State.drawWorking_src (s : State) :
    (s.drawWorking).src = s.src := rfl

@[simp] theorem State.drawWorking_dst (s : State) :
    (s.drawWorking).dst = s.dst := rfl

@[simp] theorem State.drawWorking_response (s : State) :
    (s.drawWorking).response = s.response := rfl

@[simp] theorem State.drawWorking_refusedMark (s : State) :
    (s.drawWorking).refusedMark = s.refusedMark := rfl

@[simp] theorem State.drawWorking_host (s : State) :
    (s.drawWorking).host = s.host := rfl

@[simp] theorem State.drawWorking_draws (s : State) :
    (s.drawWorking).draws = s.draws + 1 := rfl


/-! ### `State.drawAfterError` -/

@[simp] theorem State.drawAfterError_initDone (s : State) :
    (s.drawAfterError).initDone = s.initDone := rfl

@[simp] theorem State.drawAfterError_status (s : State) :
    (s.drawAfterError).status = s.status := rfl

@[simp] theorem State.drawAfterError_lwReg (s : State) :
    (s.drawAfterError).lwReg = s.lwReg := rfl

@[simp] theorem State.drawAfterError_phase (s : State) :
    (s.drawAfterError).phase = Config.freePhase s.draws := rfl

@[simp] theorem State.drawAfterError_lw (s : State) :
    (s.drawAfterError).lw = Config.freeRegister 4 4 s.draws := rfl

@[simp] theorem State.drawAfterError_clearCode (s : State) :
    (s.drawAfterError).clearCode = Config.freeRegister 5 9 s.draws := rfl

@[simp] theorem State.drawAfterError_endCode (s : State) :
    (s.drawAfterError).endCode = Config.freeRegister 6 9 s.draws := rfl

@[simp] theorem State.drawAfterError_saveCode (s : State) :
    (s.drawAfterError).saveCode = Config.freeRegister 7 13 s.draws := rfl

@[simp] theorem State.drawAfterError_prevCode (s : State) :
    (s.drawAfterError).prevCode = Config.freeRegister 8 12 s.draws := rfl

@[simp] theorem State.drawAfterError_width (s : State) :
    (s.drawAfterError).width = Config.freeRegister 9 4 s.draws := rfl

@[simp] theorem State.drawAfterError_bits (s : State) :
    (s.drawAfterError).bits = Config.freeRegister 10 32 s.draws := rfl

@[simp] theorem State.drawAfterError_nbits (s : State) :
    (s.drawAfterError).nbits = Config.freeRegister 11 5 s.draws := rfl

@[simp] theorem State.drawAfterError_code (s : State) :
    (s.drawAfterError).code = Config.freeRegister 12 12 s.draws := rfl

@[simp] theorem State.drawAfterError_first (s : State) :
    (s.drawAfterError).first = Config.freeRegister 13 8 s.draws := rfl

@[simp] theorem State.drawAfterError_stackStart (s : State) :
    (s.drawAfterError).stackStart = Config.freeRegister 14 12 s.draws := rfl

@[simp] theorem State.drawAfterError_flushed (s : State) :
    (s.drawAfterError).flushed = Config.freeRegister 15 13 s.draws := rfl

@[simp] theorem State.drawAfterError_mem (s : State) :
    (s.drawAfterError).mem = freeMemory s.draws := rfl

@[simp] theorem State.drawAfterError_src (s : State) :
    (s.drawAfterError).src = s.src := rfl

@[simp] theorem State.drawAfterError_dst (s : State) :
    (s.drawAfterError).dst = s.dst := rfl

@[simp] theorem State.drawAfterError_response (s : State) :
    (s.drawAfterError).response = s.response := rfl

@[simp] theorem State.drawAfterError_refusedMark (s : State) :
    (s.drawAfterError).refusedMark = s.refusedMark := rfl

@[simp] theorem State.drawAfterError_host (s : State) :
    (s.drawAfterError).host = s.host := rfl

@[simp] theorem State.drawAfterError_draws (s : State) :
    (s.drawAfterError).draws = s.draws + 1 := rfl


/-! ### `State.powerOn` -/

@[simp] theorem State.powerOn_initDone (s : State) :
    (s.powerOn).initDone = false := rfl

@[simp] theorem State.powerOn_status (s : State) :
    (s.powerOn).status = Config.freeStatus s.draws := rfl

@[simp] theorem State.powerOn_lwReg (s : State) :
    (s.powerOn).lwReg = Config.freeRegister 2 24 s.draws := rfl

@[simp] theorem State.powerOn_phase (s : State) :
    (s.powerOn).phase = Config.freePhase s.draws := rfl

@[simp] theorem State.powerOn_lw (s : State) :
    (s.powerOn).lw = Config.freeRegister 4 4 s.draws := rfl

@[simp] theorem State.powerOn_clearCode (s : State) :
    (s.powerOn).clearCode = Config.freeRegister 5 9 s.draws := rfl

@[simp] theorem State.powerOn_endCode (s : State) :
    (s.powerOn).endCode = Config.freeRegister 6 9 s.draws := rfl

@[simp] theorem State.powerOn_saveCode (s : State) :
    (s.powerOn).saveCode = Config.freeRegister 7 13 s.draws := rfl

@[simp] theorem State.powerOn_prevCode (s : State) :
    (s.powerOn).prevCode = Config.freeRegister 8 12 s.draws := rfl

@[simp] theorem State.powerOn_width (s : State) :
    (s.powerOn).width = Config.freeRegister 9 4 s.draws := rfl

@[simp] theorem State.powerOn_bits (s : State) :
    (s.powerOn).bits = Config.freeRegister 10 32 s.draws := rfl

@[simp] theorem State.powerOn_nbits (s : State) :
    (s.powerOn).nbits = Config.freeRegister 11 5 s.draws := rfl

@[simp] theorem State.powerOn_code (s : State) :
    (s.powerOn).code = Config.freeRegister 12 12 s.draws := rfl

@[simp] theorem State.powerOn_first (s : State) :
    (s.powerOn).first = Config.freeRegister 13 8 s.draws := rfl

@[simp] theorem State.powerOn_stackStart (s : State) :
    (s.powerOn).stackStart = Config.freeRegister 14 12 s.draws := rfl

@[simp] theorem State.powerOn_flushed (s : State) :
    (s.powerOn).flushed = Config.freeRegister 15 13 s.draws := rfl

@[simp] theorem State.powerOn_mem (s : State) :
    (s.powerOn).mem = Memory.unwritten := rfl

@[simp] theorem State.powerOn_src (s : State) :
    (s.powerOn).src = s.src := rfl

@[simp] theorem State.powerOn_dst (s : State) :
    (s.powerOn).dst = s.dst := rfl

@[simp] theorem State.powerOn_response (s : State) :
    (s.powerOn).response = none := rfl

@[simp] theorem State.powerOn_refusedMark (s : State) :
    (s.powerOn).refusedMark = s.refusedMark := rfl

@[simp] theorem State.powerOn_host (s : State) :
    (s.powerOn).host = s.host := rfl

@[simp] theorem State.powerOn_draws (s : State) :
    (s.powerOn).draws = s.draws + 1 := rfl


/-! ### `State.raise` -/

@[simp] theorem State.raise_initDone (e : Status) (s : State) :
    (s.raise e).initDone = s.initDone := rfl

@[simp] theorem State.raise_status (e : Status) (s : State) :
    (s.raise e).status = e := rfl

@[simp] theorem State.raise_lwReg (e : Status) (s : State) :
    (s.raise e).lwReg = s.lwReg := rfl

@[simp] theorem State.raise_phase (e : Status) (s : State) :
    (s.raise e).phase = Config.freePhase s.draws := rfl

@[simp] theorem State.raise_lw (e : Status) (s : State) :
    (s.raise e).lw = Config.freeRegister 4 4 s.draws := rfl

@[simp] theorem State.raise_clearCode (e : Status) (s : State) :
    (s.raise e).clearCode = Config.freeRegister 5 9 s.draws := rfl

@[simp] theorem State.raise_endCode (e : Status) (s : State) :
    (s.raise e).endCode = Config.freeRegister 6 9 s.draws := rfl

@[simp] theorem State.raise_saveCode (e : Status) (s : State) :
    (s.raise e).saveCode = Config.freeRegister 7 13 s.draws := rfl

@[simp] theorem State.raise_prevCode (e : Status) (s : State) :
    (s.raise e).prevCode = Config.freeRegister 8 12 s.draws := rfl

@[simp] theorem State.raise_width (e : Status) (s : State) :
    (s.raise e).width = Config.freeRegister 9 4 s.draws := rfl

@[simp] theorem State.raise_bits (e : Status) (s : State) :
    (s.raise e).bits = Config.freeRegister 10 32 s.draws := rfl

@[simp] theorem State.raise_nbits (e : Status) (s : State) :
    (s.raise e).nbits = Config.freeRegister 11 5 s.draws := rfl

@[simp] theorem State.raise_code (e : Status) (s : State) :
    (s.raise e).code = Config.freeRegister 12 12 s.draws := rfl

@[simp] theorem State.raise_first (e : Status) (s : State) :
    (s.raise e).first = Config.freeRegister 13 8 s.draws := rfl

@[simp] theorem State.raise_stackStart (e : Status) (s : State) :
    (s.raise e).stackStart = Config.freeRegister 14 12 s.draws := rfl

@[simp] theorem State.raise_flushed (e : Status) (s : State) :
    (s.raise e).flushed = Config.freeRegister 15 13 s.draws := rfl

@[simp] theorem State.raise_mem (e : Status) (s : State) :
    (s.raise e).mem = freeMemory s.draws := rfl

@[simp] theorem State.raise_src (e : Status) (s : State) :
    (s.raise e).src = s.src := rfl

@[simp] theorem State.raise_dst (e : Status) (s : State) :
    (s.raise e).dst = s.dst := rfl

@[simp] theorem State.raise_response (e : Status) (s : State) :
    (s.raise e).response = some e := rfl

@[simp] theorem State.raise_refusedMark (e : Status) (s : State) :
    (s.raise e).refusedMark = s.refusedMark := rfl

@[simp] theorem State.raise_host (e : Status) (s : State) :
    (s.raise e).host = s.host := rfl

@[simp] theorem State.raise_draws (e : Status) (s : State) :
    (s.raise e).draws = s.draws + 1 := rfl


/-! ### `State.markRefused` -/

@[simp] theorem State.markRefused_initDone (a : RefusedAction) (s : State) :
    (s.markRefused a).initDone = s.initDone := rfl

@[simp] theorem State.markRefused_status (a : RefusedAction) (s : State) :
    (s.markRefused a).status = s.status := rfl

@[simp] theorem State.markRefused_lwReg (a : RefusedAction) (s : State) :
    (s.markRefused a).lwReg = s.lwReg := rfl

@[simp] theorem State.markRefused_phase (a : RefusedAction) (s : State) :
    (s.markRefused a).phase = s.phase := rfl

@[simp] theorem State.markRefused_lw (a : RefusedAction) (s : State) :
    (s.markRefused a).lw = s.lw := rfl

@[simp] theorem State.markRefused_clearCode (a : RefusedAction) (s : State) :
    (s.markRefused a).clearCode = s.clearCode := rfl

@[simp] theorem State.markRefused_endCode (a : RefusedAction) (s : State) :
    (s.markRefused a).endCode = s.endCode := rfl

@[simp] theorem State.markRefused_saveCode (a : RefusedAction) (s : State) :
    (s.markRefused a).saveCode = s.saveCode := rfl

@[simp] theorem State.markRefused_prevCode (a : RefusedAction) (s : State) :
    (s.markRefused a).prevCode = s.prevCode := rfl

@[simp] theorem State.markRefused_width (a : RefusedAction) (s : State) :
    (s.markRefused a).width = s.width := rfl

@[simp] theorem State.markRefused_bits (a : RefusedAction) (s : State) :
    (s.markRefused a).bits = s.bits := rfl

@[simp] theorem State.markRefused_nbits (a : RefusedAction) (s : State) :
    (s.markRefused a).nbits = s.nbits := rfl

@[simp] theorem State.markRefused_code (a : RefusedAction) (s : State) :
    (s.markRefused a).code = s.code := rfl

@[simp] theorem State.markRefused_first (a : RefusedAction) (s : State) :
    (s.markRefused a).first = s.first := rfl

@[simp] theorem State.markRefused_stackStart (a : RefusedAction) (s : State) :
    (s.markRefused a).stackStart = s.stackStart := rfl

@[simp] theorem State.markRefused_flushed (a : RefusedAction) (s : State) :
    (s.markRefused a).flushed = s.flushed := rfl

@[simp] theorem State.markRefused_mem (a : RefusedAction) (s : State) :
    (s.markRefused a).mem = s.mem := rfl

@[simp] theorem State.markRefused_src (a : RefusedAction) (s : State) :
    (s.markRefused a).src = s.src := rfl

@[simp] theorem State.markRefused_dst (a : RefusedAction) (s : State) :
    (s.markRefused a).dst = s.dst := rfl

@[simp] theorem State.markRefused_response (a : RefusedAction) (s : State) :
    (s.markRefused a).response = none := rfl

@[simp] theorem State.markRefused_refusedMark (a : RefusedAction) (s : State) :
    (s.markRefused a).refusedMark = some a := rfl

@[simp] theorem State.markRefused_host (a : RefusedAction) (s : State) :
    (s.markRefused a).host = s.host := rfl

@[simp] theorem State.markRefused_draws (a : RefusedAction) (s : State) :
    (s.markRefused a).draws = s.draws := rfl


/-! ### `State.beginCommand` -/

@[simp] theorem State.beginCommand_initDone (s : State) :
    (s.beginCommand).initDone = s.initDone := rfl

@[simp] theorem State.beginCommand_status (s : State) :
    (s.beginCommand).status = s.status := rfl

@[simp] theorem State.beginCommand_lwReg (s : State) :
    (s.beginCommand).lwReg = s.lwReg := rfl

@[simp] theorem State.beginCommand_phase (s : State) :
    (s.beginCommand).phase = s.phase := rfl

@[simp] theorem State.beginCommand_lw (s : State) :
    (s.beginCommand).lw = s.lw := rfl

@[simp] theorem State.beginCommand_clearCode (s : State) :
    (s.beginCommand).clearCode = s.clearCode := rfl

@[simp] theorem State.beginCommand_endCode (s : State) :
    (s.beginCommand).endCode = s.endCode := rfl

@[simp] theorem State.beginCommand_saveCode (s : State) :
    (s.beginCommand).saveCode = s.saveCode := rfl

@[simp] theorem State.beginCommand_prevCode (s : State) :
    (s.beginCommand).prevCode = s.prevCode := rfl

@[simp] theorem State.beginCommand_width (s : State) :
    (s.beginCommand).width = s.width := rfl

@[simp] theorem State.beginCommand_bits (s : State) :
    (s.beginCommand).bits = s.bits := rfl

@[simp] theorem State.beginCommand_nbits (s : State) :
    (s.beginCommand).nbits = s.nbits := rfl

@[simp] theorem State.beginCommand_code (s : State) :
    (s.beginCommand).code = s.code := rfl

@[simp] theorem State.beginCommand_first (s : State) :
    (s.beginCommand).first = s.first := rfl

@[simp] theorem State.beginCommand_stackStart (s : State) :
    (s.beginCommand).stackStart = s.stackStart := rfl

@[simp] theorem State.beginCommand_flushed (s : State) :
    (s.beginCommand).flushed = s.flushed := rfl

@[simp] theorem State.beginCommand_mem (s : State) :
    (s.beginCommand).mem = s.mem := rfl

@[simp] theorem State.beginCommand_src (s : State) :
    (s.beginCommand).src = s.src := rfl

@[simp] theorem State.beginCommand_dst (s : State) :
    (s.beginCommand).dst = s.dst := rfl

@[simp] theorem State.beginCommand_response (s : State) :
    (s.beginCommand).response = none := rfl

@[simp] theorem State.beginCommand_refusedMark (s : State) :
    (s.beginCommand).refusedMark = s.refusedMark := rfl

@[simp] theorem State.beginCommand_host (s : State) :
    (s.beginCommand).host = s.host := rfl

@[simp] theorem State.beginCommand_draws (s : State) :
    (s.beginCommand).draws = s.draws := rfl


/-! ### `State.setSrc` -/

@[simp] theorem State.setSrc_initDone (p : SrcPort) (s : State) :
    (s.setSrc p).initDone = s.initDone := rfl

@[simp] theorem State.setSrc_status (p : SrcPort) (s : State) :
    (s.setSrc p).status = s.status := rfl

@[simp] theorem State.setSrc_lwReg (p : SrcPort) (s : State) :
    (s.setSrc p).lwReg = s.lwReg := rfl

@[simp] theorem State.setSrc_phase (p : SrcPort) (s : State) :
    (s.setSrc p).phase = s.phase := rfl

@[simp] theorem State.setSrc_lw (p : SrcPort) (s : State) :
    (s.setSrc p).lw = s.lw := rfl

@[simp] theorem State.setSrc_clearCode (p : SrcPort) (s : State) :
    (s.setSrc p).clearCode = s.clearCode := rfl

@[simp] theorem State.setSrc_endCode (p : SrcPort) (s : State) :
    (s.setSrc p).endCode = s.endCode := rfl

@[simp] theorem State.setSrc_saveCode (p : SrcPort) (s : State) :
    (s.setSrc p).saveCode = s.saveCode := rfl

@[simp] theorem State.setSrc_prevCode (p : SrcPort) (s : State) :
    (s.setSrc p).prevCode = s.prevCode := rfl

@[simp] theorem State.setSrc_width (p : SrcPort) (s : State) :
    (s.setSrc p).width = s.width := rfl

@[simp] theorem State.setSrc_bits (p : SrcPort) (s : State) :
    (s.setSrc p).bits = s.bits := rfl

@[simp] theorem State.setSrc_nbits (p : SrcPort) (s : State) :
    (s.setSrc p).nbits = s.nbits := rfl

@[simp] theorem State.setSrc_code (p : SrcPort) (s : State) :
    (s.setSrc p).code = s.code := rfl

@[simp] theorem State.setSrc_first (p : SrcPort) (s : State) :
    (s.setSrc p).first = s.first := rfl

@[simp] theorem State.setSrc_stackStart (p : SrcPort) (s : State) :
    (s.setSrc p).stackStart = s.stackStart := rfl

@[simp] theorem State.setSrc_flushed (p : SrcPort) (s : State) :
    (s.setSrc p).flushed = s.flushed := rfl

@[simp] theorem State.setSrc_mem (p : SrcPort) (s : State) :
    (s.setSrc p).mem = s.mem := rfl

@[simp] theorem State.setSrc_src (p : SrcPort) (s : State) :
    (s.setSrc p).src = p := rfl

@[simp] theorem State.setSrc_dst (p : SrcPort) (s : State) :
    (s.setSrc p).dst = s.dst := rfl

@[simp] theorem State.setSrc_response (p : SrcPort) (s : State) :
    (s.setSrc p).response = s.response := rfl

@[simp] theorem State.setSrc_refusedMark (p : SrcPort) (s : State) :
    (s.setSrc p).refusedMark = s.refusedMark := rfl

@[simp] theorem State.setSrc_host (p : SrcPort) (s : State) :
    (s.setSrc p).host = s.host := rfl

@[simp] theorem State.setSrc_draws (p : SrcPort) (s : State) :
    (s.setSrc p).draws = s.draws := rfl


/-! ### `State.setDst` -/

@[simp] theorem State.setDst_initDone (p : DstPort) (s : State) :
    (s.setDst p).initDone = s.initDone := rfl

@[simp] theorem State.setDst_status (p : DstPort) (s : State) :
    (s.setDst p).status = s.status := rfl

@[simp] theorem State.setDst_lwReg (p : DstPort) (s : State) :
    (s.setDst p).lwReg = s.lwReg := rfl

@[simp] theorem State.setDst_phase (p : DstPort) (s : State) :
    (s.setDst p).phase = s.phase := rfl

@[simp] theorem State.setDst_lw (p : DstPort) (s : State) :
    (s.setDst p).lw = s.lw := rfl

@[simp] theorem State.setDst_clearCode (p : DstPort) (s : State) :
    (s.setDst p).clearCode = s.clearCode := rfl

@[simp] theorem State.setDst_endCode (p : DstPort) (s : State) :
    (s.setDst p).endCode = s.endCode := rfl

@[simp] theorem State.setDst_saveCode (p : DstPort) (s : State) :
    (s.setDst p).saveCode = s.saveCode := rfl

@[simp] theorem State.setDst_prevCode (p : DstPort) (s : State) :
    (s.setDst p).prevCode = s.prevCode := rfl

@[simp] theorem State.setDst_width (p : DstPort) (s : State) :
    (s.setDst p).width = s.width := rfl

@[simp] theorem State.setDst_bits (p : DstPort) (s : State) :
    (s.setDst p).bits = s.bits := rfl

@[simp] theorem State.setDst_nbits (p : DstPort) (s : State) :
    (s.setDst p).nbits = s.nbits := rfl

@[simp] theorem State.setDst_code (p : DstPort) (s : State) :
    (s.setDst p).code = s.code := rfl

@[simp] theorem State.setDst_first (p : DstPort) (s : State) :
    (s.setDst p).first = s.first := rfl

@[simp] theorem State.setDst_stackStart (p : DstPort) (s : State) :
    (s.setDst p).stackStart = s.stackStart := rfl

@[simp] theorem State.setDst_flushed (p : DstPort) (s : State) :
    (s.setDst p).flushed = s.flushed := rfl

@[simp] theorem State.setDst_mem (p : DstPort) (s : State) :
    (s.setDst p).mem = s.mem := rfl

@[simp] theorem State.setDst_src (p : DstPort) (s : State) :
    (s.setDst p).src = s.src := rfl

@[simp] theorem State.setDst_dst (p : DstPort) (s : State) :
    (s.setDst p).dst = p := rfl

@[simp] theorem State.setDst_response (p : DstPort) (s : State) :
    (s.setDst p).response = s.response := rfl

@[simp] theorem State.setDst_refusedMark (p : DstPort) (s : State) :
    (s.setDst p).refusedMark = s.refusedMark := rfl

@[simp] theorem State.setDst_host (p : DstPort) (s : State) :
    (s.setDst p).host = s.host := rfl

@[simp] theorem State.setDst_draws (p : DstPort) (s : State) :
    (s.setDst p).draws = s.draws := rfl


/-! ### `State.setPhase` -/

@[simp] theorem State.setPhase_initDone (p : Phase) (s : State) :
    (s.setPhase p).initDone = s.initDone := rfl

@[simp] theorem State.setPhase_status (p : Phase) (s : State) :
    (s.setPhase p).status = s.status := rfl

@[simp] theorem State.setPhase_lwReg (p : Phase) (s : State) :
    (s.setPhase p).lwReg = s.lwReg := rfl

@[simp] theorem State.setPhase_phase (p : Phase) (s : State) :
    (s.setPhase p).phase = p := rfl

@[simp] theorem State.setPhase_lw (p : Phase) (s : State) :
    (s.setPhase p).lw = s.lw := rfl

@[simp] theorem State.setPhase_clearCode (p : Phase) (s : State) :
    (s.setPhase p).clearCode = s.clearCode := rfl

@[simp] theorem State.setPhase_endCode (p : Phase) (s : State) :
    (s.setPhase p).endCode = s.endCode := rfl

@[simp] theorem State.setPhase_saveCode (p : Phase) (s : State) :
    (s.setPhase p).saveCode = s.saveCode := rfl

@[simp] theorem State.setPhase_prevCode (p : Phase) (s : State) :
    (s.setPhase p).prevCode = s.prevCode := rfl

@[simp] theorem State.setPhase_width (p : Phase) (s : State) :
    (s.setPhase p).width = s.width := rfl

@[simp] theorem State.setPhase_bits (p : Phase) (s : State) :
    (s.setPhase p).bits = s.bits := rfl

@[simp] theorem State.setPhase_nbits (p : Phase) (s : State) :
    (s.setPhase p).nbits = s.nbits := rfl

@[simp] theorem State.setPhase_code (p : Phase) (s : State) :
    (s.setPhase p).code = s.code := rfl

@[simp] theorem State.setPhase_first (p : Phase) (s : State) :
    (s.setPhase p).first = s.first := rfl

@[simp] theorem State.setPhase_stackStart (p : Phase) (s : State) :
    (s.setPhase p).stackStart = s.stackStart := rfl

@[simp] theorem State.setPhase_flushed (p : Phase) (s : State) :
    (s.setPhase p).flushed = s.flushed := rfl

@[simp] theorem State.setPhase_mem (p : Phase) (s : State) :
    (s.setPhase p).mem = s.mem := rfl

@[simp] theorem State.setPhase_src (p : Phase) (s : State) :
    (s.setPhase p).src = s.src := rfl

@[simp] theorem State.setPhase_dst (p : Phase) (s : State) :
    (s.setPhase p).dst = s.dst := rfl

@[simp] theorem State.setPhase_response (p : Phase) (s : State) :
    (s.setPhase p).response = s.response := rfl

@[simp] theorem State.setPhase_refusedMark (p : Phase) (s : State) :
    (s.setPhase p).refusedMark = s.refusedMark := rfl

@[simp] theorem State.setPhase_host (p : Phase) (s : State) :
    (s.setPhase p).host = s.host := rfl

@[simp] theorem State.setPhase_draws (p : Phase) (s : State) :
    (s.setPhase p).draws = s.draws := rfl


/-! ### `State.enterCode` -/

@[simp] theorem State.enterCode_initDone (c : CodeValue) (p : Phase) (s : State) :
    (s.enterCode c p).initDone = s.initDone := rfl

@[simp] theorem State.enterCode_status (c : CodeValue) (p : Phase) (s : State) :
    (s.enterCode c p).status = s.status := rfl

@[simp] theorem State.enterCode_lwReg (c : CodeValue) (p : Phase) (s : State) :
    (s.enterCode c p).lwReg = s.lwReg := rfl

@[simp] theorem State.enterCode_phase (c : CodeValue) (p : Phase) (s : State) :
    (s.enterCode c p).phase = p := rfl

@[simp] theorem State.enterCode_lw (c : CodeValue) (p : Phase) (s : State) :
    (s.enterCode c p).lw = s.lw := rfl

@[simp] theorem State.enterCode_clearCode (c : CodeValue) (p : Phase) (s : State) :
    (s.enterCode c p).clearCode = s.clearCode := rfl

@[simp] theorem State.enterCode_endCode (c : CodeValue) (p : Phase) (s : State) :
    (s.enterCode c p).endCode = s.endCode := rfl

@[simp] theorem State.enterCode_saveCode (c : CodeValue) (p : Phase) (s : State) :
    (s.enterCode c p).saveCode = s.saveCode := rfl

@[simp] theorem State.enterCode_prevCode (c : CodeValue) (p : Phase) (s : State) :
    (s.enterCode c p).prevCode = s.prevCode := rfl

@[simp] theorem State.enterCode_width (c : CodeValue) (p : Phase) (s : State) :
    (s.enterCode c p).width = s.width := rfl

@[simp] theorem State.enterCode_bits (c : CodeValue) (p : Phase) (s : State) :
    (s.enterCode c p).bits = s.bits := rfl

@[simp] theorem State.enterCode_nbits (c : CodeValue) (p : Phase) (s : State) :
    (s.enterCode c p).nbits = s.nbits := rfl

@[simp] theorem State.enterCode_code (c : CodeValue) (p : Phase) (s : State) :
    (s.enterCode c p).code = c := rfl

@[simp] theorem State.enterCode_first (c : CodeValue) (p : Phase) (s : State) :
    (s.enterCode c p).first = s.first := rfl

@[simp] theorem State.enterCode_stackStart (c : CodeValue) (p : Phase) (s : State) :
    (s.enterCode c p).stackStart = s.stackStart := rfl

@[simp] theorem State.enterCode_flushed (c : CodeValue) (p : Phase) (s : State) :
    (s.enterCode c p).flushed = s.flushed := rfl

@[simp] theorem State.enterCode_mem (c : CodeValue) (p : Phase) (s : State) :
    (s.enterCode c p).mem = s.mem := rfl

@[simp] theorem State.enterCode_src (c : CodeValue) (p : Phase) (s : State) :
    (s.enterCode c p).src = s.src := rfl

@[simp] theorem State.enterCode_dst (c : CodeValue) (p : Phase) (s : State) :
    (s.enterCode c p).dst = s.dst := rfl

@[simp] theorem State.enterCode_response (c : CodeValue) (p : Phase) (s : State) :
    (s.enterCode c p).response = s.response := rfl

@[simp] theorem State.enterCode_refusedMark (c : CodeValue) (p : Phase) (s : State) :
    (s.enterCode c p).refusedMark = s.refusedMark := rfl

@[simp] theorem State.enterCode_host (c : CodeValue) (p : Phase) (s : State) :
    (s.enterCode c p).host = s.host := rfl

@[simp] theorem State.enterCode_draws (c : CodeValue) (p : Phase) (s : State) :
    (s.enterCode c p).draws = s.draws := rfl


/-! ### `State.pushByte` -/

@[simp] theorem State.pushByte_initDone (b : Byte) (s : State) :
    (s.pushByte b).initDone = s.initDone := rfl

@[simp] theorem State.pushByte_status (b : Byte) (s : State) :
    (s.pushByte b).status = s.status := rfl

@[simp] theorem State.pushByte_lwReg (b : Byte) (s : State) :
    (s.pushByte b).lwReg = s.lwReg := rfl

@[simp] theorem State.pushByte_phase (b : Byte) (s : State) :
    (s.pushByte b).phase = s.phase := rfl

@[simp] theorem State.pushByte_lw (b : Byte) (s : State) :
    (s.pushByte b).lw = s.lw := rfl

@[simp] theorem State.pushByte_clearCode (b : Byte) (s : State) :
    (s.pushByte b).clearCode = s.clearCode := rfl

@[simp] theorem State.pushByte_endCode (b : Byte) (s : State) :
    (s.pushByte b).endCode = s.endCode := rfl

@[simp] theorem State.pushByte_saveCode (b : Byte) (s : State) :
    (s.pushByte b).saveCode = s.saveCode := rfl

@[simp] theorem State.pushByte_prevCode (b : Byte) (s : State) :
    (s.pushByte b).prevCode = s.prevCode := rfl

@[simp] theorem State.pushByte_width (b : Byte) (s : State) :
    (s.pushByte b).width = s.width := rfl

@[simp] theorem State.pushByte_bits (b : Byte) (s : State) :
    (s.pushByte b).bits = s.bits ||| (b.setWidth 32 <<< s.nbits.toNat) := rfl

@[simp] theorem State.pushByte_nbits (b : Byte) (s : State) :
    (s.pushByte b).nbits = s.nbits + 8 := rfl

@[simp] theorem State.pushByte_code (b : Byte) (s : State) :
    (s.pushByte b).code = s.code := rfl

@[simp] theorem State.pushByte_first (b : Byte) (s : State) :
    (s.pushByte b).first = s.first := rfl

@[simp] theorem State.pushByte_stackStart (b : Byte) (s : State) :
    (s.pushByte b).stackStart = s.stackStart := rfl

@[simp] theorem State.pushByte_flushed (b : Byte) (s : State) :
    (s.pushByte b).flushed = s.flushed := rfl

@[simp] theorem State.pushByte_mem (b : Byte) (s : State) :
    (s.pushByte b).mem = s.mem := rfl

@[simp] theorem State.pushByte_src (b : Byte) (s : State) :
    (s.pushByte b).src = s.src := rfl

@[simp] theorem State.pushByte_dst (b : Byte) (s : State) :
    (s.pushByte b).dst = s.dst := rfl

@[simp] theorem State.pushByte_response (b : Byte) (s : State) :
    (s.pushByte b).response = s.response := rfl

@[simp] theorem State.pushByte_refusedMark (b : Byte) (s : State) :
    (s.pushByte b).refusedMark = s.refusedMark := rfl

@[simp] theorem State.pushByte_host (b : Byte) (s : State) :
    (s.pushByte b).host = s.host := rfl

@[simp] theorem State.pushByte_draws (b : Byte) (s : State) :
    (s.pushByte b).draws = s.draws := rfl


/-! ### `State.extract` -/

@[simp] theorem State.extract_initDone (s : State) :
    (s.extract).initDone = s.initDone := rfl

@[simp] theorem State.extract_status (s : State) :
    (s.extract).status = s.status := rfl

@[simp] theorem State.extract_lwReg (s : State) :
    (s.extract).lwReg = s.lwReg := rfl

@[simp] theorem State.extract_phase (s : State) :
    (s.extract).phase = s.phase := rfl

@[simp] theorem State.extract_lw (s : State) :
    (s.extract).lw = s.lw := rfl

@[simp] theorem State.extract_clearCode (s : State) :
    (s.extract).clearCode = s.clearCode := rfl

@[simp] theorem State.extract_endCode (s : State) :
    (s.extract).endCode = s.endCode := rfl

@[simp] theorem State.extract_saveCode (s : State) :
    (s.extract).saveCode = s.saveCode := rfl

@[simp] theorem State.extract_prevCode (s : State) :
    (s.extract).prevCode = s.prevCode := rfl

@[simp] theorem State.extract_width (s : State) :
    (s.extract).width = s.width := rfl

@[simp] theorem State.extract_bits (s : State) :
    (s.extract).bits = s.bits >>> s.width.toNat := rfl

@[simp] theorem State.extract_nbits (s : State) :
    (s.extract).nbits = s.nbits - s.width.setWidth 5 := rfl

@[simp] theorem State.extract_code (s : State) :
    (s.extract).code = codeField s.bits s.width := rfl

@[simp] theorem State.extract_first (s : State) :
    (s.extract).first = s.first := rfl

@[simp] theorem State.extract_stackStart (s : State) :
    (s.extract).stackStart = s.stackStart := rfl

@[simp] theorem State.extract_flushed (s : State) :
    (s.extract).flushed = s.flushed := rfl

@[simp] theorem State.extract_mem (s : State) :
    (s.extract).mem = s.mem := rfl

@[simp] theorem State.extract_src (s : State) :
    (s.extract).src = s.src := rfl

@[simp] theorem State.extract_dst (s : State) :
    (s.extract).dst = s.dst := rfl

@[simp] theorem State.extract_response (s : State) :
    (s.extract).response = s.response := rfl

@[simp] theorem State.extract_refusedMark (s : State) :
    (s.extract).refusedMark = s.refusedMark := rfl

@[simp] theorem State.extract_host (s : State) :
    (s.extract).host = s.host := rfl

@[simp] theorem State.extract_draws (s : State) :
    (s.extract).draws = s.draws := rfl


/-! ### `State.setExpansion` -/

@[simp] theorem State.setExpansion_initDone (stack : Table 8) (start : Nat) (head : Byte) (s : State) :
    (s.setExpansion stack start head).initDone = s.initDone := rfl

@[simp] theorem State.setExpansion_status (stack : Table 8) (start : Nat) (head : Byte) (s : State) :
    (s.setExpansion stack start head).status = s.status := rfl

@[simp] theorem State.setExpansion_lwReg (stack : Table 8) (start : Nat) (head : Byte) (s : State) :
    (s.setExpansion stack start head).lwReg = s.lwReg := rfl

@[simp] theorem State.setExpansion_phase (stack : Table 8) (start : Nat) (head : Byte) (s : State) :
    (s.setExpansion stack start head).phase = s.phase := rfl

@[simp] theorem State.setExpansion_lw (stack : Table 8) (start : Nat) (head : Byte) (s : State) :
    (s.setExpansion stack start head).lw = s.lw := rfl

@[simp] theorem State.setExpansion_clearCode (stack : Table 8) (start : Nat) (head : Byte) (s : State) :
    (s.setExpansion stack start head).clearCode = s.clearCode := rfl

@[simp] theorem State.setExpansion_endCode (stack : Table 8) (start : Nat) (head : Byte) (s : State) :
    (s.setExpansion stack start head).endCode = s.endCode := rfl

@[simp] theorem State.setExpansion_saveCode (stack : Table 8) (start : Nat) (head : Byte) (s : State) :
    (s.setExpansion stack start head).saveCode = s.saveCode := rfl

@[simp] theorem State.setExpansion_prevCode (stack : Table 8) (start : Nat) (head : Byte) (s : State) :
    (s.setExpansion stack start head).prevCode = s.prevCode := rfl

@[simp] theorem State.setExpansion_width (stack : Table 8) (start : Nat) (head : Byte) (s : State) :
    (s.setExpansion stack start head).width = s.width := rfl

@[simp] theorem State.setExpansion_bits (stack : Table 8) (start : Nat) (head : Byte) (s : State) :
    (s.setExpansion stack start head).bits = s.bits := rfl

@[simp] theorem State.setExpansion_nbits (stack : Table 8) (start : Nat) (head : Byte) (s : State) :
    (s.setExpansion stack start head).nbits = s.nbits := rfl

@[simp] theorem State.setExpansion_code (stack : Table 8) (start : Nat) (head : Byte) (s : State) :
    (s.setExpansion stack start head).code = s.code := rfl

@[simp] theorem State.setExpansion_first (stack : Table 8) (start : Nat) (head : Byte) (s : State) :
    (s.setExpansion stack start head).first = head := rfl

@[simp] theorem State.setExpansion_stackStart (stack : Table 8) (start : Nat) (head : Byte) (s : State) :
    (s.setExpansion stack start head).stackStart = BitVec.ofNat 12 start := rfl

@[simp] theorem State.setExpansion_flushed (stack : Table 8) (start : Nat) (head : Byte) (s : State) :
    (s.setExpansion stack start head).flushed = 0 := rfl

@[simp] theorem State.setExpansion_mem (stack : Table 8) (start : Nat) (head : Byte) (s : State) :
    (s.setExpansion stack start head).mem = { s.mem with stackTab := stack } := rfl

@[simp] theorem State.setExpansion_src (stack : Table 8) (start : Nat) (head : Byte) (s : State) :
    (s.setExpansion stack start head).src = s.src := rfl

@[simp] theorem State.setExpansion_dst (stack : Table 8) (start : Nat) (head : Byte) (s : State) :
    (s.setExpansion stack start head).dst = s.dst := rfl

@[simp] theorem State.setExpansion_response (stack : Table 8) (start : Nat) (head : Byte) (s : State) :
    (s.setExpansion stack start head).response = s.response := rfl

@[simp] theorem State.setExpansion_refusedMark (stack : Table 8) (start : Nat) (head : Byte) (s : State) :
    (s.setExpansion stack start head).refusedMark = s.refusedMark := rfl

@[simp] theorem State.setExpansion_host (stack : Table 8) (start : Nat) (head : Byte) (s : State) :
    (s.setExpansion stack start head).host = s.host := rfl

@[simp] theorem State.setExpansion_draws (stack : Table 8) (start : Nat) (head : Byte) (s : State) :
    (s.setExpansion stack start head).draws = s.draws := rfl


/-! ### `State.addFlushed` -/

@[simp] theorem State.addFlushed_initDone (k : Nat) (s : State) :
    (s.addFlushed k).initDone = s.initDone := rfl

@[simp] theorem State.addFlushed_status (k : Nat) (s : State) :
    (s.addFlushed k).status = s.status := rfl

@[simp] theorem State.addFlushed_lwReg (k : Nat) (s : State) :
    (s.addFlushed k).lwReg = s.lwReg := rfl

@[simp] theorem State.addFlushed_phase (k : Nat) (s : State) :
    (s.addFlushed k).phase = s.phase := rfl

@[simp] theorem State.addFlushed_lw (k : Nat) (s : State) :
    (s.addFlushed k).lw = s.lw := rfl

@[simp] theorem State.addFlushed_clearCode (k : Nat) (s : State) :
    (s.addFlushed k).clearCode = s.clearCode := rfl

@[simp] theorem State.addFlushed_endCode (k : Nat) (s : State) :
    (s.addFlushed k).endCode = s.endCode := rfl

@[simp] theorem State.addFlushed_saveCode (k : Nat) (s : State) :
    (s.addFlushed k).saveCode = s.saveCode := rfl

@[simp] theorem State.addFlushed_prevCode (k : Nat) (s : State) :
    (s.addFlushed k).prevCode = s.prevCode := rfl

@[simp] theorem State.addFlushed_width (k : Nat) (s : State) :
    (s.addFlushed k).width = s.width := rfl

@[simp] theorem State.addFlushed_bits (k : Nat) (s : State) :
    (s.addFlushed k).bits = s.bits := rfl

@[simp] theorem State.addFlushed_nbits (k : Nat) (s : State) :
    (s.addFlushed k).nbits = s.nbits := rfl

@[simp] theorem State.addFlushed_code (k : Nat) (s : State) :
    (s.addFlushed k).code = s.code := rfl

@[simp] theorem State.addFlushed_first (k : Nat) (s : State) :
    (s.addFlushed k).first = s.first := rfl

@[simp] theorem State.addFlushed_stackStart (k : Nat) (s : State) :
    (s.addFlushed k).stackStart = s.stackStart := rfl

@[simp] theorem State.addFlushed_flushed (k : Nat) (s : State) :
    (s.addFlushed k).flushed = s.flushed + BitVec.ofNat 13 k := rfl

@[simp] theorem State.addFlushed_mem (k : Nat) (s : State) :
    (s.addFlushed k).mem = s.mem := rfl

@[simp] theorem State.addFlushed_src (k : Nat) (s : State) :
    (s.addFlushed k).src = s.src := rfl

@[simp] theorem State.addFlushed_dst (k : Nat) (s : State) :
    (s.addFlushed k).dst = s.dst := rfl

@[simp] theorem State.addFlushed_response (k : Nat) (s : State) :
    (s.addFlushed k).response = s.response := rfl

@[simp] theorem State.addFlushed_refusedMark (k : Nat) (s : State) :
    (s.addFlushed k).refusedMark = s.refusedMark := rfl

@[simp] theorem State.addFlushed_host (k : Nat) (s : State) :
    (s.addFlushed k).host = s.host := rfl

@[simp] theorem State.addFlushed_draws (k : Nat) (s : State) :
    (s.addFlushed k).draws = s.draws := rfl


/-! ### `State.setFirstFromCode` -/

@[simp] theorem State.setFirstFromCode_initDone (s : State) :
    (s.setFirstFromCode).initDone = s.initDone := rfl

@[simp] theorem State.setFirstFromCode_status (s : State) :
    (s.setFirstFromCode).status = s.status := rfl

@[simp] theorem State.setFirstFromCode_lwReg (s : State) :
    (s.setFirstFromCode).lwReg = s.lwReg := rfl

@[simp] theorem State.setFirstFromCode_phase (s : State) :
    (s.setFirstFromCode).phase = s.phase := rfl

@[simp] theorem State.setFirstFromCode_lw (s : State) :
    (s.setFirstFromCode).lw = s.lw := rfl

@[simp] theorem State.setFirstFromCode_clearCode (s : State) :
    (s.setFirstFromCode).clearCode = s.clearCode := rfl

@[simp] theorem State.setFirstFromCode_endCode (s : State) :
    (s.setFirstFromCode).endCode = s.endCode := rfl

@[simp] theorem State.setFirstFromCode_saveCode (s : State) :
    (s.setFirstFromCode).saveCode = s.saveCode := rfl

@[simp] theorem State.setFirstFromCode_prevCode (s : State) :
    (s.setFirstFromCode).prevCode = s.prevCode := rfl

@[simp] theorem State.setFirstFromCode_width (s : State) :
    (s.setFirstFromCode).width = s.width := rfl

@[simp] theorem State.setFirstFromCode_bits (s : State) :
    (s.setFirstFromCode).bits = s.bits := rfl

@[simp] theorem State.setFirstFromCode_nbits (s : State) :
    (s.setFirstFromCode).nbits = s.nbits := rfl

@[simp] theorem State.setFirstFromCode_code (s : State) :
    (s.setFirstFromCode).code = s.code := rfl

@[simp] theorem State.setFirstFromCode_first (s : State) :
    (s.setFirstFromCode).first = literalByte s.code := rfl

@[simp] theorem State.setFirstFromCode_stackStart (s : State) :
    (s.setFirstFromCode).stackStart = s.stackStart := rfl

@[simp] theorem State.setFirstFromCode_flushed (s : State) :
    (s.setFirstFromCode).flushed = s.flushed := rfl

@[simp] theorem State.setFirstFromCode_mem (s : State) :
    (s.setFirstFromCode).mem = s.mem := rfl

@[simp] theorem State.setFirstFromCode_src (s : State) :
    (s.setFirstFromCode).src = s.src := rfl

@[simp] theorem State.setFirstFromCode_dst (s : State) :
    (s.setFirstFromCode).dst = s.dst := rfl

@[simp] theorem State.setFirstFromCode_response (s : State) :
    (s.setFirstFromCode).response = s.response := rfl

@[simp] theorem State.setFirstFromCode_refusedMark (s : State) :
    (s.setFirstFromCode).refusedMark = s.refusedMark := rfl

@[simp] theorem State.setFirstFromCode_host (s : State) :
    (s.setFirstFromCode).host = s.host := rfl

@[simp] theorem State.setFirstFromCode_draws (s : State) :
    (s.setFirstFromCode).draws = s.draws := rfl


/-! ### `State.addEntry` -/

@[simp] theorem State.addEntry_initDone (s : State) :
    (s.addEntry).initDone = s.initDone := rfl

@[simp] theorem State.addEntry_status (s : State) :
    (s.addEntry).status = s.status := rfl

@[simp] theorem State.addEntry_lwReg (s : State) :
    (s.addEntry).lwReg = s.lwReg := rfl

@[simp] theorem State.addEntry_phase (s : State) :
    (s.addEntry).phase = s.phase := rfl

@[simp] theorem State.addEntry_lw (s : State) :
    (s.addEntry).lw = s.lw := rfl

@[simp] theorem State.addEntry_clearCode (s : State) :
    (s.addEntry).clearCode = s.clearCode := rfl

@[simp] theorem State.addEntry_endCode (s : State) :
    (s.addEntry).endCode = s.endCode := rfl

@[simp] theorem State.addEntry_saveCode (s : State) :
    (s.addEntry).saveCode = s.saveCode := rfl

@[simp] theorem State.addEntry_prevCode (s : State) :
    (s.addEntry).prevCode = s.prevCode := rfl

@[simp] theorem State.addEntry_width (s : State) :
    (s.addEntry).width = s.width := rfl

@[simp] theorem State.addEntry_bits (s : State) :
    (s.addEntry).bits = s.bits := rfl

@[simp] theorem State.addEntry_nbits (s : State) :
    (s.addEntry).nbits = s.nbits := rfl

@[simp] theorem State.addEntry_code (s : State) :
    (s.addEntry).code = s.code := rfl

@[simp] theorem State.addEntry_first (s : State) :
    (s.addEntry).first = s.first := rfl

@[simp] theorem State.addEntry_stackStart (s : State) :
    (s.addEntry).stackStart = s.stackStart := rfl

@[simp] theorem State.addEntry_flushed (s : State) :
    (s.addEntry).flushed = s.flushed := rfl

@[simp] theorem State.addEntry_mem (s : State) :
    (s.addEntry).mem = { s.mem with
      prefixTab := Table.write s.mem.prefixTab s.saveCode.toNat (prefixEntry s.prevCode)
      suffixTab := Table.write s.mem.suffixTab s.saveCode.toNat s.first } := rfl

@[simp] theorem State.addEntry_src (s : State) :
    (s.addEntry).src = s.src := rfl

@[simp] theorem State.addEntry_dst (s : State) :
    (s.addEntry).dst = s.dst := rfl

@[simp] theorem State.addEntry_response (s : State) :
    (s.addEntry).response = s.response := rfl

@[simp] theorem State.addEntry_refusedMark (s : State) :
    (s.addEntry).refusedMark = s.refusedMark := rfl

@[simp] theorem State.addEntry_host (s : State) :
    (s.addEntry).host = s.host := rfl

@[simp] theorem State.addEntry_draws (s : State) :
    (s.addEntry).draws = s.draws := rfl


/-! ### `State.bumpSave` -/

@[simp] theorem State.bumpSave_initDone (s : State) :
    (s.bumpSave).initDone = s.initDone := rfl

@[simp] theorem State.bumpSave_status (s : State) :
    (s.bumpSave).status = s.status := rfl

@[simp] theorem State.bumpSave_lwReg (s : State) :
    (s.bumpSave).lwReg = s.lwReg := rfl

@[simp] theorem State.bumpSave_phase (s : State) :
    (s.bumpSave).phase = s.phase := rfl

@[simp] theorem State.bumpSave_lw (s : State) :
    (s.bumpSave).lw = s.lw := rfl

@[simp] theorem State.bumpSave_clearCode (s : State) :
    (s.bumpSave).clearCode = s.clearCode := rfl

@[simp] theorem State.bumpSave_endCode (s : State) :
    (s.bumpSave).endCode = s.endCode := rfl

@[simp] theorem State.bumpSave_saveCode (s : State) :
    (s.bumpSave).saveCode = s.saveCode + 1 := rfl

@[simp] theorem State.bumpSave_prevCode (s : State) :
    (s.bumpSave).prevCode = s.prevCode := rfl

@[simp] theorem State.bumpSave_width (s : State) :
    (s.bumpSave).width = if widthGrows (s.saveCode + 1) s.width then s.width + 1 else s.width := rfl

@[simp] theorem State.bumpSave_bits (s : State) :
    (s.bumpSave).bits = s.bits := rfl

@[simp] theorem State.bumpSave_nbits (s : State) :
    (s.bumpSave).nbits = s.nbits := rfl

@[simp] theorem State.bumpSave_code (s : State) :
    (s.bumpSave).code = s.code := rfl

@[simp] theorem State.bumpSave_first (s : State) :
    (s.bumpSave).first = s.first := rfl

@[simp] theorem State.bumpSave_stackStart (s : State) :
    (s.bumpSave).stackStart = s.stackStart := rfl

@[simp] theorem State.bumpSave_flushed (s : State) :
    (s.bumpSave).flushed = s.flushed := rfl

@[simp] theorem State.bumpSave_mem (s : State) :
    (s.bumpSave).mem = s.mem := rfl

@[simp] theorem State.bumpSave_src (s : State) :
    (s.bumpSave).src = s.src := rfl

@[simp] theorem State.bumpSave_dst (s : State) :
    (s.bumpSave).dst = s.dst := rfl

@[simp] theorem State.bumpSave_response (s : State) :
    (s.bumpSave).response = s.response := rfl

@[simp] theorem State.bumpSave_refusedMark (s : State) :
    (s.bumpSave).refusedMark = s.refusedMark := rfl

@[simp] theorem State.bumpSave_host (s : State) :
    (s.bumpSave).host = s.host := rfl

@[simp] theorem State.bumpSave_draws (s : State) :
    (s.bumpSave).draws = s.draws := rfl


/-! ### `State.endOrdinary` -/

@[simp] theorem State.endOrdinary_initDone (s : State) :
    (s.endOrdinary).initDone = s.initDone := rfl

@[simp] theorem State.endOrdinary_status (s : State) :
    (s.endOrdinary).status = s.status := rfl

@[simp] theorem State.endOrdinary_lwReg (s : State) :
    (s.endOrdinary).lwReg = s.lwReg := rfl

@[simp] theorem State.endOrdinary_phase (s : State) :
    (s.endOrdinary).phase = .fill := rfl

@[simp] theorem State.endOrdinary_lw (s : State) :
    (s.endOrdinary).lw = s.lw := rfl

@[simp] theorem State.endOrdinary_clearCode (s : State) :
    (s.endOrdinary).clearCode = s.clearCode := rfl

@[simp] theorem State.endOrdinary_endCode (s : State) :
    (s.endOrdinary).endCode = s.endCode := rfl

@[simp] theorem State.endOrdinary_saveCode (s : State) :
    (s.endOrdinary).saveCode = s.saveCode := rfl

@[simp] theorem State.endOrdinary_prevCode (s : State) :
    (s.endOrdinary).prevCode = s.code := rfl

@[simp] theorem State.endOrdinary_width (s : State) :
    (s.endOrdinary).width = s.width := rfl

@[simp] theorem State.endOrdinary_bits (s : State) :
    (s.endOrdinary).bits = s.bits := rfl

@[simp] theorem State.endOrdinary_nbits (s : State) :
    (s.endOrdinary).nbits = s.nbits := rfl

@[simp] theorem State.endOrdinary_code (s : State) :
    (s.endOrdinary).code = s.code := rfl

@[simp] theorem State.endOrdinary_first (s : State) :
    (s.endOrdinary).first = s.first := rfl

@[simp] theorem State.endOrdinary_stackStart (s : State) :
    (s.endOrdinary).stackStart = s.stackStart := rfl

@[simp] theorem State.endOrdinary_flushed (s : State) :
    (s.endOrdinary).flushed = s.flushed := rfl

@[simp] theorem State.endOrdinary_mem (s : State) :
    (s.endOrdinary).mem = s.mem := rfl

@[simp] theorem State.endOrdinary_src (s : State) :
    (s.endOrdinary).src = s.src := rfl

@[simp] theorem State.endOrdinary_dst (s : State) :
    (s.endOrdinary).dst = s.dst := rfl

@[simp] theorem State.endOrdinary_response (s : State) :
    (s.endOrdinary).response = s.response := rfl

@[simp] theorem State.endOrdinary_refusedMark (s : State) :
    (s.endOrdinary).refusedMark = s.refusedMark := rfl

@[simp] theorem State.endOrdinary_host (s : State) :
    (s.endOrdinary).host = s.host := rfl

@[simp] theorem State.endOrdinary_draws (s : State) :
    (s.endOrdinary).draws = s.draws := rfl


/-! ### `State.clearState` -/

@[simp] theorem State.clearState_initDone (s : State) :
    (s.clearState).initDone = s.initDone := rfl

@[simp] theorem State.clearState_status (s : State) :
    (s.clearState).status = s.status := rfl

@[simp] theorem State.clearState_lwReg (s : State) :
    (s.clearState).lwReg = s.lwReg := rfl

@[simp] theorem State.clearState_phase (s : State) :
    (s.clearState).phase = s.phase := rfl

@[simp] theorem State.clearState_lw (s : State) :
    (s.clearState).lw = s.lw := rfl

@[simp] theorem State.clearState_clearCode (s : State) :
    (s.clearState).clearCode = s.clearCode := rfl

@[simp] theorem State.clearState_endCode (s : State) :
    (s.clearState).endCode = s.endCode := rfl

@[simp] theorem State.clearState_saveCode (s : State) :
    (s.clearState).saveCode = s.endCode.setWidth 13 := rfl

@[simp] theorem State.clearState_prevCode (s : State) :
    (s.clearState).prevCode = 0 := rfl

@[simp] theorem State.clearState_width (s : State) :
    (s.clearState).width = initialWidth s.lw := rfl

@[simp] theorem State.clearState_bits (s : State) :
    (s.clearState).bits = s.bits := rfl

@[simp] theorem State.clearState_nbits (s : State) :
    (s.clearState).nbits = s.nbits := rfl

@[simp] theorem State.clearState_code (s : State) :
    (s.clearState).code = s.code := rfl

@[simp] theorem State.clearState_first (s : State) :
    (s.clearState).first = s.first := rfl

@[simp] theorem State.clearState_stackStart (s : State) :
    (s.clearState).stackStart = s.stackStart := rfl

@[simp] theorem State.clearState_flushed (s : State) :
    (s.clearState).flushed = s.flushed := rfl

@[simp] theorem State.clearState_mem (s : State) :
    (s.clearState).mem = s.mem := rfl

@[simp] theorem State.clearState_src (s : State) :
    (s.clearState).src = s.src := rfl

@[simp] theorem State.clearState_dst (s : State) :
    (s.clearState).dst = s.dst := rfl

@[simp] theorem State.clearState_response (s : State) :
    (s.clearState).response = s.response := rfl

@[simp] theorem State.clearState_refusedMark (s : State) :
    (s.clearState).refusedMark = s.refusedMark := rfl

@[simp] theorem State.clearState_host (s : State) :
    (s.clearState).host = s.host := rfl

@[simp] theorem State.clearState_draws (s : State) :
    (s.clearState).draws = s.draws := rfl


/-! ### `State.setLwReg` -/

@[simp] theorem State.setLwReg_initDone (w : BitVec 24) (s : State) :
    (s.setLwReg w).initDone = s.initDone := rfl

@[simp] theorem State.setLwReg_status (w : BitVec 24) (s : State) :
    (s.setLwReg w).status = s.status := rfl

@[simp] theorem State.setLwReg_lwReg (w : BitVec 24) (s : State) :
    (s.setLwReg w).lwReg = w := rfl

@[simp] theorem State.setLwReg_phase (w : BitVec 24) (s : State) :
    (s.setLwReg w).phase = s.phase := rfl

@[simp] theorem State.setLwReg_lw (w : BitVec 24) (s : State) :
    (s.setLwReg w).lw = s.lw := rfl

@[simp] theorem State.setLwReg_clearCode (w : BitVec 24) (s : State) :
    (s.setLwReg w).clearCode = s.clearCode := rfl

@[simp] theorem State.setLwReg_endCode (w : BitVec 24) (s : State) :
    (s.setLwReg w).endCode = s.endCode := rfl

@[simp] theorem State.setLwReg_saveCode (w : BitVec 24) (s : State) :
    (s.setLwReg w).saveCode = s.saveCode := rfl

@[simp] theorem State.setLwReg_prevCode (w : BitVec 24) (s : State) :
    (s.setLwReg w).prevCode = s.prevCode := rfl

@[simp] theorem State.setLwReg_width (w : BitVec 24) (s : State) :
    (s.setLwReg w).width = s.width := rfl

@[simp] theorem State.setLwReg_bits (w : BitVec 24) (s : State) :
    (s.setLwReg w).bits = s.bits := rfl

@[simp] theorem State.setLwReg_nbits (w : BitVec 24) (s : State) :
    (s.setLwReg w).nbits = s.nbits := rfl

@[simp] theorem State.setLwReg_code (w : BitVec 24) (s : State) :
    (s.setLwReg w).code = s.code := rfl

@[simp] theorem State.setLwReg_first (w : BitVec 24) (s : State) :
    (s.setLwReg w).first = s.first := rfl

@[simp] theorem State.setLwReg_stackStart (w : BitVec 24) (s : State) :
    (s.setLwReg w).stackStart = s.stackStart := rfl

@[simp] theorem State.setLwReg_flushed (w : BitVec 24) (s : State) :
    (s.setLwReg w).flushed = s.flushed := rfl

@[simp] theorem State.setLwReg_mem (w : BitVec 24) (s : State) :
    (s.setLwReg w).mem = s.mem := rfl

@[simp] theorem State.setLwReg_src (w : BitVec 24) (s : State) :
    (s.setLwReg w).src = s.src := rfl

@[simp] theorem State.setLwReg_dst (w : BitVec 24) (s : State) :
    (s.setLwReg w).dst = s.dst := rfl

@[simp] theorem State.setLwReg_response (w : BitVec 24) (s : State) :
    (s.setLwReg w).response = s.response := rfl

@[simp] theorem State.setLwReg_refusedMark (w : BitVec 24) (s : State) :
    (s.setLwReg w).refusedMark = s.refusedMark := rfl

@[simp] theorem State.setLwReg_host (w : BitVec 24) (s : State) :
    (s.setLwReg w).host = s.host := rfl

@[simp] theorem State.setLwReg_draws (w : BitVec 24) (s : State) :
    (s.setLwReg w).draws = s.draws := rfl


/-! ### `State.latchStream` -/

@[simp] theorem State.latchStream_initDone (s : State) :
    (s.latchStream).initDone = s.initDone := rfl

@[simp] theorem State.latchStream_status (s : State) :
    (s.latchStream).status = s.status := rfl

@[simp] theorem State.latchStream_lwReg (s : State) :
    (s.latchStream).lwReg = s.lwReg := rfl

@[simp] theorem State.latchStream_phase (s : State) :
    (s.latchStream).phase = .fill := rfl

@[simp] theorem State.latchStream_lw (s : State) :
    (s.latchStream).lw = s.lwReg.setWidth 4 := rfl

@[simp] theorem State.latchStream_clearCode (s : State) :
    (s.latchStream).clearCode = clearCodeOf (s.lwReg.setWidth 4) := rfl

@[simp] theorem State.latchStream_endCode (s : State) :
    (s.latchStream).endCode = endCodeOf (s.lwReg.setWidth 4) := rfl

@[simp] theorem State.latchStream_saveCode (s : State) :
    (s.latchStream).saveCode = (endCodeOf (s.lwReg.setWidth 4)).setWidth 13 := rfl

@[simp] theorem State.latchStream_prevCode (s : State) :
    (s.latchStream).prevCode = 0 := rfl

@[simp] theorem State.latchStream_width (s : State) :
    (s.latchStream).width = initialWidth (s.lwReg.setWidth 4) := rfl

@[simp] theorem State.latchStream_bits (s : State) :
    (s.latchStream).bits = 0 := rfl

@[simp] theorem State.latchStream_nbits (s : State) :
    (s.latchStream).nbits = 0 := rfl

@[simp] theorem State.latchStream_code (s : State) :
    (s.latchStream).code = s.code := rfl

@[simp] theorem State.latchStream_first (s : State) :
    (s.latchStream).first = s.first := rfl

@[simp] theorem State.latchStream_stackStart (s : State) :
    (s.latchStream).stackStart = s.stackStart := rfl

@[simp] theorem State.latchStream_flushed (s : State) :
    (s.latchStream).flushed = s.flushed := rfl

@[simp] theorem State.latchStream_mem (s : State) :
    (s.latchStream).mem = s.mem := rfl

@[simp] theorem State.latchStream_src (s : State) :
    (s.latchStream).src = s.src := rfl

@[simp] theorem State.latchStream_dst (s : State) :
    (s.latchStream).dst = s.dst := rfl

@[simp] theorem State.latchStream_response (s : State) :
    (s.latchStream).response = s.response := rfl

@[simp] theorem State.latchStream_refusedMark (s : State) :
    (s.latchStream).refusedMark = s.refusedMark := rfl

@[simp] theorem State.latchStream_host (s : State) :
    (s.latchStream).host = s.host := rfl

@[simp] theorem State.latchStream_draws (s : State) :
    (s.latchStream).draws = s.draws := rfl


/-! ### `State.initialize` -/

@[simp] theorem State.initialize_initDone (s : State) :
    (s.initialize).initDone = true := rfl

@[simp] theorem State.initialize_status (s : State) :
    (s.initialize).status = .ok := rfl

@[simp] theorem State.initialize_lwReg (s : State) :
    (s.initialize).lwReg = 0 := rfl

@[simp] theorem State.initialize_phase (s : State) :
    (s.initialize).phase = .idle := rfl

@[simp] theorem State.initialize_lw (s : State) :
    (s.initialize).lw = Config.freeRegister 4 4 s.draws := rfl

@[simp] theorem State.initialize_clearCode (s : State) :
    (s.initialize).clearCode = Config.freeRegister 5 9 s.draws := rfl

@[simp] theorem State.initialize_endCode (s : State) :
    (s.initialize).endCode = Config.freeRegister 6 9 s.draws := rfl

@[simp] theorem State.initialize_saveCode (s : State) :
    (s.initialize).saveCode = Config.freeRegister 7 13 s.draws := rfl

@[simp] theorem State.initialize_prevCode (s : State) :
    (s.initialize).prevCode = Config.freeRegister 8 12 s.draws := rfl

@[simp] theorem State.initialize_width (s : State) :
    (s.initialize).width = Config.freeRegister 9 4 s.draws := rfl

@[simp] theorem State.initialize_bits (s : State) :
    (s.initialize).bits = Config.freeRegister 10 32 s.draws := rfl

@[simp] theorem State.initialize_nbits (s : State) :
    (s.initialize).nbits = Config.freeRegister 11 5 s.draws := rfl

@[simp] theorem State.initialize_code (s : State) :
    (s.initialize).code = Config.freeRegister 12 12 s.draws := rfl

@[simp] theorem State.initialize_first (s : State) :
    (s.initialize).first = Config.freeRegister 13 8 s.draws := rfl

@[simp] theorem State.initialize_stackStart (s : State) :
    (s.initialize).stackStart = Config.freeRegister 14 12 s.draws := rfl

@[simp] theorem State.initialize_flushed (s : State) :
    (s.initialize).flushed = Config.freeRegister 15 13 s.draws := rfl

@[simp] theorem State.initialize_mem (s : State) :
    (s.initialize).mem = Memory.unwritten := rfl

@[simp] theorem State.initialize_src (s : State) :
    (s.initialize).src = s.src := rfl

@[simp] theorem State.initialize_dst (s : State) :
    (s.initialize).dst = s.dst := rfl

@[simp] theorem State.initialize_response (s : State) :
    (s.initialize).response = s.response := rfl

@[simp] theorem State.initialize_refusedMark (s : State) :
    (s.initialize).refusedMark = s.refusedMark := rfl

@[simp] theorem State.initialize_host (s : State) :
    (s.initialize).host = s.host := rfl

@[simp] theorem State.initialize_draws (s : State) :
    (s.initialize).draws = s.draws + 1 := rfl


/-! ### `State.popHost` -/

@[simp] theorem State.popHost_initDone (s : State) :
    (s.popHost).initDone = s.initDone := rfl

@[simp] theorem State.popHost_status (s : State) :
    (s.popHost).status = s.status := rfl

@[simp] theorem State.popHost_lwReg (s : State) :
    (s.popHost).lwReg = s.lwReg := rfl

@[simp] theorem State.popHost_phase (s : State) :
    (s.popHost).phase = s.phase := rfl

@[simp] theorem State.popHost_lw (s : State) :
    (s.popHost).lw = s.lw := rfl

@[simp] theorem State.popHost_clearCode (s : State) :
    (s.popHost).clearCode = s.clearCode := rfl

@[simp] theorem State.popHost_endCode (s : State) :
    (s.popHost).endCode = s.endCode := rfl

@[simp] theorem State.popHost_saveCode (s : State) :
    (s.popHost).saveCode = s.saveCode := rfl

@[simp] theorem State.popHost_prevCode (s : State) :
    (s.popHost).prevCode = s.prevCode := rfl

@[simp] theorem State.popHost_width (s : State) :
    (s.popHost).width = s.width := rfl

@[simp] theorem State.popHost_bits (s : State) :
    (s.popHost).bits = s.bits := rfl

@[simp] theorem State.popHost_nbits (s : State) :
    (s.popHost).nbits = s.nbits := rfl

@[simp] theorem State.popHost_code (s : State) :
    (s.popHost).code = s.code := rfl

@[simp] theorem State.popHost_first (s : State) :
    (s.popHost).first = s.first := rfl

@[simp] theorem State.popHost_stackStart (s : State) :
    (s.popHost).stackStart = s.stackStart := rfl

@[simp] theorem State.popHost_flushed (s : State) :
    (s.popHost).flushed = s.flushed := rfl

@[simp] theorem State.popHost_mem (s : State) :
    (s.popHost).mem = s.mem := rfl

@[simp] theorem State.popHost_src (s : State) :
    (s.popHost).src = s.src := rfl

@[simp] theorem State.popHost_dst (s : State) :
    (s.popHost).dst = s.dst := rfl

@[simp] theorem State.popHost_response (s : State) :
    (s.popHost).response = s.response := rfl

@[simp] theorem State.popHost_refusedMark (s : State) :
    (s.popHost).refusedMark = s.refusedMark := rfl

@[simp] theorem State.popHost_host (s : State) :
    (s.popHost).host = s.host.tail := rfl

@[simp] theorem State.popHost_draws (s : State) :
    (s.popHost).draws = s.draws := rfl


/-! ### `State.codeSpace` -/

@[simp] theorem State.codeSpace_clearCode (s : State) : s.codeSpace.clearCode = s.clearCode := rfl
@[simp] theorem State.codeSpace_endCode (s : State) : s.codeSpace.endCode = s.endCode := rfl
@[simp] theorem State.codeSpace_saveCode (s : State) : s.codeSpace.saveCode = s.saveCode := rfl

end Sys2Proof.Machine
end

