-- ==== Sys2Proof/Laws/Memory.lean ====
section
/-! SUPPORT. The laws of the tables: read after write, the canonical form and that every operation keeps it, and that equal
contents in canonical form are equal data. -/

namespace Sys2Proof.Machine

variable {w : Nat}

theorem Table.read_write_same (t : Table w) (i : Nat) (v : BitVec w) : Table.read (Table.write t i v) i = some v := by
  induction t with
  | nil => simp [Table.write, Table.read]
  | cons e t ih =>
    obtain ⟨k, u⟩ := e
    simp only [Table.write]
    split
    · simp [Table.read]
    · split
      · simp [Table.read]
      · rename_i h1 h2
        have : k ≠ i := fun h => h2 h.symm
        simp [Table.read, this, ih]

theorem Table.read_write_other (t : Table w) {i j : Nat} (v : BitVec w) (h : i ≠ j) :
    Table.read (Table.write t i v) j = Table.read t j := by
  induction t with
  | nil => simp [Table.write, Table.read, h]
  | cons e t ih =>
    obtain ⟨k, u⟩ := e
    simp only [Table.write]
    split
    · simp [Table.read, h]
    · split
      · rename_i h1 h2
        have : k ≠ j := h2 ▸ h
        simp [Table.read, h, this]
      · simp [Table.read, ih]

theorem Table.read_write (t : Table w) (i j : Nat) (v : BitVec w) :
    Table.read (Table.write t i v) j = if i = j then some v else Table.read t j := by
  split
  · rename_i h
    rw [← h, Table.read_write_same]
  · exact Table.read_write_other t v ‹_›

theorem Table.sortedFrom_cons (lo k : Nat) (v : BitVec w) (t : Table w) :
    Table.sortedFrom lo ((k, v) :: t) = true ↔ lo ≤ k ∧ k < 4096 ∧ Table.sortedFrom (k + 1) t = true := by
  simp only [Table.sortedFrom, Bool.and_eq_true, decide_eq_true_eq, and_assoc]
  exact Iff.rfl

theorem Table.sortedFrom_mono {lo lo' : Nat} (t : Table w) (h : lo' ≤ lo) (ht : Table.sortedFrom lo t = true) :
    Table.sortedFrom lo' t = true := by
  cases t with
  | nil => rfl
  | cons e t =>
    rw [Table.sortedFrom_cons] at ht ⊢
    exact ⟨by omega, ht.2⟩

theorem Table.sortedFrom_write (t : Table w) {lo i : Nat} (v : BitVec w) (ht : Table.sortedFrom lo t = true)
    (hlo : lo ≤ i) (hi : i < 4096) : Table.sortedFrom lo (Table.write t i v) = true := by
  induction t generalizing lo with
  | nil => exact (Table.sortedFrom_cons _ _ _ _).2 ⟨hlo, hi, rfl⟩
  | cons e t ih =>
    obtain ⟨k, u⟩ := e
    rw [Table.sortedFrom_cons] at ht
    simp only [Table.write]
    split
    · rw [Table.sortedFrom_cons, Table.sortedFrom_cons]
      exact ⟨hlo, hi, by omega, ht.2⟩
    · split
      · rename_i h1 h2
        subst h2
        rw [Table.sortedFrom_cons]
        exact ht
      · rw [Table.sortedFrom_cons]
        exact ⟨ht.1, ht.2.1, ih ht.2.2 (by omega)⟩

/-- A write inside the table keeps the canonical form. -/
theorem Table.wf_write {t : Table w} {i : Nat} (v : BitVec w) (ht : Table.wf t = true) (hi : i < 4096) :
    Table.wf (Table.write t i v) = true :=
  Table.sortedFrom_write t v ht (Nat.zero_le _) hi

theorem Table.read_lt_none (t : Table w) {lo i : Nat} (ht : Table.sortedFrom lo t = true) (hi : i < lo) :
    Table.read t i = none := by
  induction t generalizing lo with
  | nil => rfl
  | cons e t ih =>
    obtain ⟨k, u⟩ := e
    rw [Table.sortedFrom_cons] at ht
    have : k ≠ i := by omega
    simp only [Table.read, this, if_false]
    exact ih ht.2.2 (by omega)

theorem Table.ext_sortedFrom (t u : Table w) {lo : Nat} (ht : Table.sortedFrom lo t = true)
    (hu : Table.sortedFrom lo u = true) (h : ∀ i, Table.read t i = Table.read u i) : t = u := by
  induction t generalizing lo u with
  | nil =>
    cases u with
    | nil => rfl
    | cons e u =>
      have := h e.1
      simp [Table.read] at this
  | cons e t ih =>
    cases u with
    | nil =>
      have := h e.1
      simp [Table.read] at this
    | cons f u =>
      obtain ⟨k, a⟩ := e
      obtain ⟨l, b⟩ := f
      rw [Table.sortedFrom_cons] at ht hu
      have hk := h k
      have hl := h l
      simp only [Table.read, if_true] at hk hl
      have hkl : k = l := by
        by_contra hne
        rcases Nat.lt_or_gt_of_ne hne with hlt | hgt
        · rw [if_neg (fun e => hne e.symm), Table.read_lt_none u hu.2.2 (by omega)] at hk
          cases hk
        · rw [if_neg hne, Table.read_lt_none t ht.2.2 (by omega)] at hl
          cases hl
      subst hkl
      simp only [if_true, Option.some.injEq] at hk
      subst hk
      congr 1
      refine ih u ht.2.2 hu.2.2 (fun i => ?_)
      have hi := h i
      simp only [Table.read] at hi
      by_cases e : k = i
      · subst e
        rw [Table.read_lt_none t ht.2.2 (by omega), Table.read_lt_none u hu.2.2 (by omega)]
      · simpa [e] using hi

/-- Two canonical tables that read alike are the same data. -/
theorem Table.ext_of_wf {t u : Table w} (ht : Table.wf t = true) (hu : Table.wf u = true)
    (h : ∀ i, Table.read t i = Table.read u i) : t = u :=
  Table.ext_sortedFrom t u ht hu h

theorem freeTable_sortedFrom (table w draw n i : Nat) (h : i + n ≤ 4096) :
    Table.sortedFrom i (freeTable table w draw n i) = true := by
  induction n generalizing i with
  | zero => rfl
  | succ n ih =>
    simp only [freeTable]
    split
    · rw [Table.sortedFrom_cons]
      exact ⟨Nat.le_refl _, by omega, ih (i + 1) (by omega)⟩
    · exact Table.sortedFrom_mono _ (by omega) (ih (i + 1) (by omega))

@[simp] theorem freeMemory_wf (draw : Nat) : (freeMemory draw).wf = true := by
  simp only [Memory.wf, freeMemory, Table.wf, Bool.and_eq_true]
  refine ⟨⟨?_, ?_⟩, ?_⟩ <;> exact freeTable_sortedFrom _ _ _ _ _ (by simp [Config.tableSize])

@[simp] theorem Memory.unwritten_wf : Memory.unwritten.wf = true := rfl

theorem Memory.wf_iff (m : Memory) :
    m.wf = true ↔ Table.wf m.prefixTab = true ∧ Table.wf m.suffixTab = true ∧ Table.wf m.stackTab = true := by
  simp [Memory.wf, and_assoc]

/-- The table update keeps the canonical form (42_code_semantics.md R157). -/
theorem State.addEntry_wf (s : State) (h : s.mem.wf = true) (hs : s.saveCode.toNat ≤ 4095) :
    s.addEntry.mem.wf = true := by
  rw [Memory.wf_iff] at h ⊢
  exact ⟨Table.wf_write _ h.1 (by omega), Table.wf_write _ h.2.1 (by omega), h.2.2⟩

/-- A run that can be read has each of its entries. -/
theorem Table.readRun_eq_some_iff (t : Table w) (i n : Nat) (l : List (BitVec w)) :
    Table.readRun t i n = some l ↔ l.length = n ∧ ∀ j, j < n → Table.read t (i + j) = l[j]? := by
  induction n generalizing i l with
  | zero =>
    cases l <;> simp [Table.readRun]
  | succ n ih =>
    simp only [Table.readRun]
    cases hr : Table.read t i with
    | none =>
      simp only [reduceCtorEq, false_iff, not_and]
      intro hl hj
      have := hj 0 (by omega)
      rw [Nat.add_zero, hr] at this
      cases l with
      | nil => simp at hl
      | cons a l => simp at this
    | some v =>
      cases hrr : Table.readRun t (i + 1) n with
      | none =>
        simp only [reduceCtorEq, false_iff, not_and]
        intro hl hj
        cases l with
        | nil => simp at hl
        | cons a l =>
          have : Table.readRun t (i + 1) n = some l := by
            rw [ih]
            refine ⟨by simpa using hl, fun j hjn => ?_⟩
            have := hj (j + 1) (by omega)
            rw [Nat.add_assoc, Nat.add_comm 1 j]
            simpa using this
          rw [hrr] at this
          cases this
      | some vs =>
        have hvs := (ih (i + 1) vs).1 hrr
        simp only [Option.some.injEq]
        constructor
        · rintro rfl
          refine ⟨by simp [hvs.1], fun j hj => ?_⟩
          cases j with
          | zero => simp [hr]
          | succ j =>
            have := hvs.2 j (by omega)
            rw [Nat.add_assoc, Nat.add_comm 1 j] at this
            simpa using this
        · rintro ⟨hl, hj⟩
          cases l with
          | nil => simp at hl
          | cons a l =>
            have h0 := hj 0 (by omega)
            rw [Nat.add_zero, hr] at h0
            have h0 : v = a := by simpa using h0
            subst h0
            congr 1
            have : Table.readRun t (i + 1) n = some l := by
              rw [ih]
              refine ⟨by simpa using hl, fun j hjn => ?_⟩
              have := hj (j + 1) (by omega)
              rw [Nat.add_assoc, Nat.add_comm 1 j]
              simpa using this
            rw [hrr] at this
            exact Option.some.inj this

/-- A write outside a run leaves the run. -/
theorem Table.readRun_write_outside (t : Table w) (i n j : Nat) (v : BitVec w) (h : j < i ∨ i + n ≤ j) :
    Table.readRun (Table.write t j v) i n = Table.readRun t i n := by
  induction n generalizing i with
  | zero => rfl
  | succ n ih =>
    simp only [Table.readRun]
    rw [Table.read_write_other t v (by omega : j ≠ i), ih (i + 1) (by omega)]

/-- A run is its first part and the rest. -/
theorem Table.readRun_append (t : Table w) (i n m : Nat) :
    Table.readRun t i (n + m) =
      (Table.readRun t i n).bind (fun a => (Table.readRun t (i + n) m).map (fun b => a ++ b)) := by
  induction n generalizing i with
  | zero => simp [Table.readRun]
  | succ n ih =>
    rw [show n + 1 + m = (n + m) + 1 by omega]
    simp only [Table.readRun]
    rw [ih (i + 1), show i + 1 + n = i + (n + 1) by omega]
    cases Table.read t i <;> cases Table.readRun t (i + 1) n <;> cases Table.readRun t (i + (n + 1)) m <;> simp

end Sys2Proof.Machine
end

