-- ==== Sys2Proof/Laws/Ports.lean ====
section
/-! SUPPORT. What the port operations can do: one lemma per way each of SrcRead, DstWrite and DstCopy ends, and the arithmetic of
limits. -/

namespace Sys2Proof.Machine

/-! ### Flow -/

@[simp] theorem Flow.andThen_go {α β : Type} (a : α) (s : State) (f : α → State → Flow β) :
    (Flow.go a s).andThen f = f a s := rfl

@[simp] theorem Flow.andThen_stop {α β : Type} (s : State) (f : α → State → Flow β) :
    (Flow.stop s : Flow α).andThen f = .stop s := rfl

@[simp] theorem Flow.andThen_fault {α β : Type} (e : Fault) (f : α → State → Flow β) :
    (Flow.fault e : Flow α).andThen f = .fault e := rfl

@[simp] theorem Flow.toOutcome_go (s : State) : (Flow.go () s).toOutcome = .next s := rfl

@[simp] theorem Flow.toOutcome_stop (s : State) : (Flow.stop s).toOutcome = .next s := rfl

@[simp] theorem Flow.toOutcome_fault (e : Fault) : (Flow.fault e).toOutcome = .fault e := rfl

theorem Flow.andThen_eq_go {α β : Type} {x : Flow α} {f : α → State → Flow β} {b : β} {u : State}
    (h : x.andThen f = .go b u) : ∃ a t, x = .go a t ∧ f a t = .go b u := by
  cases x with
  | go a t => exact ⟨a, t, rfl, h⟩
  | stop t => cases h
  | fault e => cases h

theorem Flow.andThen_eq_stop {α β : Type} {x : Flow α} {f : α → State → Flow β} {u : State}
    (h : x.andThen f = .stop u) : x = .stop u ∨ ∃ a t, x = .go a t ∧ f a t = .stop u := by
  cases x with
  | go a t => exact .inr ⟨a, t, rfl, h⟩
  | stop t => exact .inl (by simpa using h)
  | fault e => cases h

theorem Flow.andThen_eq_fault {α β : Type} {x : Flow α} {f : α → State → Flow β} {e : Fault}
    (h : x.andThen f = .fault e) : x = .fault e ∨ ∃ a t, x = .go a t ∧ f a t = .fault e := by
  cases x with
  | go a t => exact .inr ⟨a, t, rfl, h⟩
  | stop t => cases h
  | fault e => exact .inl (by simpa using h)

theorem Flow.toOutcome_eq_next {x : Flow Unit} {u : State} (h : x.toOutcome = .next u) : x = .go () u ∨ x = .stop u := by
  cases x with
  | go a t => exact .inl (by simpa [Flow.toOutcome] using h)
  | stop t => exact .inr (by simpa using h)
  | fault e => cases h

/-! ### Limits -/

theorem effectiveLimit_eq_zero_iff (l : List Nat) : effectiveLimit l = some 0 ↔ 0 ∈ l := by
  induction l with
  | nil => simp [effectiveLimit]
  | cons n l ih =>
    simp only [effectiveLimit]
    cases h : effectiveLimit l with
    | none =>
      have : 0 ∉ l := fun hm => by rw [← ih, h] at hm; cases hm
      simp [this, eq_comm]
    | some m =>
      rw [h] at ih
      simp only [Option.some.injEq, List.mem_cons] at ih ⊢
      rw [← ih]
      omega

theorem le_capByLimit_iff (k n : Nat) (l : List Nat) : k ≤ capByLimit n l ↔ k ≤ n ∧ ∀ m ∈ l, k ≤ m := by
  have key : ∀ l : List Nat, (∀ m ∈ l, k ≤ m) ↔ ∀ m, effectiveLimit l = some m → k ≤ m := by
    intro l
    induction l with
    | nil => simp [effectiveLimit]
    | cons n l ih =>
      simp only [effectiveLimit, List.forall_mem_cons, ih]
      cases effectiveLimit l with
      | none => simp
      | some m => simp
  rw [key]
  unfold capByLimit
  cases effectiveLimit l with
  | none => simp
  | some m => simp

theorem capByLimit_le (n : Nat) (l : List Nat) : capByLimit n l ≤ n :=
  ((le_capByLimit_iff _ n l).1 (Nat.le_refl _)).1

theorem capByLimit_le_limit (n : Nat) {l : List Nat} {m : Nat} (h : m ∈ l) : capByLimit n l ≤ m :=
  ((le_capByLimit_iff _ n l).1 (Nat.le_refl _)).2 m h

theorem capByLimit_eq_zero_iff (n : Nat) (l : List Nat) : capByLimit n l = 0 ↔ n = 0 ∨ 0 ∈ l := by
  have h := le_capByLimit_iff 1 n l
  constructor
  · intro h0
    by_contra hn
    rw [not_or] at hn
    have : 1 ≤ capByLimit n l := h.2 ⟨by omega, fun m hm => by
      rcases Nat.eq_zero_or_pos m with e | e
      · exact absurd (e ▸ hm) hn.2
      · exact e⟩
    omega
  · rintro (h0 | h0)
    · have := capByLimit_le n l
      omega
    · have := capByLimit_le_limit n h0
      omega

@[simp] theorem decrementLimits_zero (l : List Nat) : decrementLimits 0 l = l := by
  simp [decrementLimits]

theorem decrementLimits_add (j k : Nat) (l : List Nat) :
    decrementLimits k (decrementLimits j l) = decrementLimits (j + k) l := by
  simp only [decrementLimits, List.map_map]
  apply List.map_congr_left
  intro a _
  simp only [Function.comp_apply]
  omega

/-- What is left of a bounded count once `k` bytes have moved (20_memory.md R62). -/
theorem capByLimit_sub {n k : Nat} {l : List Nat} (h : k ≤ capByLimit n l) :
    capByLimit (n - k) (decrementLimits k l) = capByLimit n l - k := by
  apply Nat.le_antisymm
  · have h1 := (le_capByLimit_iff _ _ _).1 (Nat.le_refl (capByLimit (n - k) (decrementLimits k l)))
    have : capByLimit (n - k) (decrementLimits k l) + k ≤ capByLimit n l := by
      rw [le_capByLimit_iff] at h ⊢
      refine ⟨by omega, fun m hm => ?_⟩
      have := h1.2 (m - k) (by simpa [decrementLimits] using ⟨m, hm, rfl⟩)
      have := h.2 m hm
      omega
    omega
  · have h1 := (le_capByLimit_iff _ _ _).1 (Nat.le_refl (capByLimit n l))
    have : capByLimit n l - k ≤ capByLimit (n - k) (decrementLimits k l) := by
      rw [le_capByLimit_iff]
      refine ⟨by omega, fun m hm => ?_⟩
      simp only [decrementLimits, List.mem_map] at hm
      obtain ⟨a, ha, rfl⟩ := hm
      have := h1.2 a ha
      omega
    exact this

/-! ### SrcRead -/

theorem SrcPort.wf_iff (p : SrcPort) : p.wf = true ↔ p.ri ≤ p.wi ∧ p.wi ≤ p.data.length := by
  simp [SrcPort.wf]

theorem SrcPort.advance_wf {p : SrcPort} (h : p.wf = true) (hne : p.ri ≠ p.wi) : p.advance.wf = true := by
  rw [SrcPort.wf_iff] at h ⊢
  simp only [SrcPort.advance]
  omega

/-- SrcRead goes on exactly with the byte at the read-index (20_memory.md R63). -/
theorem srcRead_go {s t : State} {b : Byte} (h : srcRead s = .go b t) :
    s.src.data[s.src.ri]? = some b ∧ s.src.ri ≠ s.src.wi ∧ 0 ∉ s.src.limits ∧ t = s.setSrc s.src.advance := by
  unfold srcRead at h
  simp only [effectiveLimit_eq_zero_iff] at h
  split at h
  · cases h
  · split at h
    · split at h <;> cases h
    · split at h
      · cases h
      · injection h with h1 h2
        subst h1
        exact ⟨‹_›, ‹_›, ‹_›, h2.symm⟩

/-- SrcRead ends the command with short-read or unexpected-eof (20_memory.md R63). -/
theorem srcRead_stop {s t : State} (h : srcRead s = .stop t) :
    (t = s.ret .shortRead ∧ (0 ∈ s.src.limits ∨ (s.src.ri = s.src.wi ∧ s.src.closed = false))) ∨
      (t = s.raise .unexpectedEof ∧ 0 ∉ s.src.limits ∧ s.src.ri = s.src.wi ∧ s.src.closed = true) := by
  unfold srcRead at h
  simp only [effectiveLimit_eq_zero_iff] at h
  split at h
  · injection h with h
    exact .inl ⟨h.symm, .inl ‹_›⟩
  · split at h
    · split at h <;> injection h with h
      · exact .inr ⟨h.symm, ‹_›, ‹_›, ‹_›⟩
      · exact .inl ⟨h.symm, .inr ⟨‹_›, by simpa using ‹¬ s.src.closed = true›⟩⟩
    · split at h <;> cases h

/-- With a legal source Cursor SrcRead does not fault. -/
theorem srcRead_no_fault {s : State} (hw : s.src.wf = true) (f : Fault) : srcRead s ≠ .fault f := by
  rw [SrcPort.wf_iff] at hw
  unfold srcRead
  split
  · simp
  · split
    · split <;> simp
    · split
      · rename_i h1 h2 h3
        rw [List.getElem?_eq_none_iff] at h3
        omega
      · simp

/-! ### DstWrite and DstCopy -/

theorem DstPort.wf_iff (p : DstPort) : p.wf = true ↔ p.wi ≤ p.len ∧ p.len = p.data.length := by
  simp [DstPort.wf]

theorem DstPort.append_length {p : DstPort} {bytes : List Byte} (h : p.wi + bytes.length ≤ p.data.length) :
    (p.append bytes).data.length = p.data.length := by
  simp only [DstPort.append, List.length_append, List.length_take, List.length_drop]
  omega

theorem DstPort.append_wf {p : DstPort} {bytes : List Byte} (hw : p.wf = true)
    (h : p.wi + bytes.length ≤ p.data.length) : (p.append bytes).wf = true := by
  rw [DstPort.wf_iff] at hw ⊢
  rw [DstPort.append_length h]
  simp only [DstPort.append]
  omega

/-- Appending leaves every byte outside the appended run. -/
theorem DstPort.append_outside {p : DstPort} {bytes : List Byte} (h : p.wi + bytes.length ≤ p.data.length) {j : Nat}
    (hj : j < p.wi ∨ p.wi + bytes.length ≤ j) : (p.append bytes).data[j]? = p.data[j]? := by
  simp only [DstPort.append]
  rcases hj with hj | hj
  · rw [List.append_assoc, List.getElem?_append_left (by simp; omega), List.getElem?_take_of_lt hj]
  · rw [List.getElem?_append_right (by simp; omega), List.getElem?_drop]
    congr 1
    simp
    omega

@[simp] theorem DstPort.append_nil (p : DstPort) : p.append [] = p := by
  simp [DstPort.append]

theorem DstPort.space_le (p : DstPort) : p.space ≤ p.len - p.wi := capByLimit_le _ _

theorem dstAppend_of_le {s : State} {bytes : List Byte} (h : s.dst.wi + bytes.length ≤ s.dst.data.length) :
    dstAppend bytes s = .go () (s.setDst (s.dst.append bytes)) := by
  simp [dstAppend, h]

theorem dstAppend_go {s t : State} {bytes : List Byte} {u : Unit} (h : dstAppend bytes s = .go u t) :
    s.dst.wi + bytes.length ≤ s.dst.data.length ∧ t = (s.setDst (s.dst.append bytes)) := by
  unfold dstAppend at h
  split at h
  · injection h with _ h
    exact ⟨‹_›, h.symm⟩
  · cases h

theorem dstAppend_no_stop {s t : State} {bytes : List Byte} : dstAppend bytes s ≠ .stop t := by
  unfold dstAppend
  split <;> simp

/-- DstWrite goes on having appended the byte (20_memory.md R66). -/
theorem dstWrite_go {s t : State} {b : Byte} {u : Unit} (h : dstWrite b s = .go u t) :
    s.dst.closed = false ∧ s.dst.space ≠ 0 ∧ s.dst.wi + 1 ≤ s.dst.data.length ∧
      t = (s.setDst (s.dst.append [b])) := by
  unfold dstWrite at h
  split at h
  · cases h
  · split at h
    · cases h
    · exact ⟨by simpa using ‹¬ s.dst.closed = true›, ‹_›, dstAppend_go h⟩

/-- DstWrite ends the command with closed-for-writes or short-write (20_memory.md R66). -/
theorem dstWrite_stop {s t : State} {b : Byte} (h : dstWrite b s = .stop t) :
    (s.dst.closed = true ∧ t = s.raise .closedForWrites) ∨
      (s.dst.closed = false ∧ s.dst.space = 0 ∧ t = s.ret .shortWrite) := by
  unfold dstWrite at h
  split at h
  · injection h with h
    exact .inl ⟨‹_›, h.symm⟩
  · split at h
    · injection h with h
      exact .inr ⟨by simpa using ‹¬ s.dst.closed = true›, ‹_›, h.symm⟩
    · exact absurd h dstAppend_no_stop

/-- With a legal destination Cursor DstWrite does not fault. -/
theorem dstWrite_no_fault {s : State} {b : Byte} (hw : s.dst.wf = true) (f : Fault) : dstWrite b s ≠ .fault f := by
  rw [DstPort.wf_iff] at hw
  unfold dstWrite
  split
  · simp
  · split
    · simp
    · have := s.dst.space_le
      rw [dstAppend_of_le (by simp; omega)]
      simp

/-- The bytes DstCopy moves (20_memory.md R67). -/
def copied (bytes : List Byte) (s : State) : List Byte := bytes.take (min bytes.length s.dst.space)

theorem copied_length (bytes : List Byte) (s : State) : (copied bytes s).length = min bytes.length s.dst.space := by
  simp [copied]

/-- DstCopy goes on having appended as many bytes as fit (20_memory.md R67). -/
theorem dstCopy_go {s t : State} {bytes : List Byte} {k : Nat} (h : dstCopy bytes s = .go k t) :
    s.dst.closed = false ∧ k = min bytes.length s.dst.space ∧ s.dst.wi + k ≤ s.dst.data.length ∧
      t = (s.setDst (s.dst.append (copied bytes s))) := by
  unfold dstCopy at h
  split at h
  · cases h
  · obtain ⟨_, u, h1, h2⟩ := Flow.andThen_eq_go h
    injection h2 with h2 h3
    obtain ⟨h4, h5⟩ := dstAppend_go h1
    subst h3
    refine ⟨by simpa using ‹¬ s.dst.closed = true›, h2.symm, ?_, h5⟩
    rw [← h2, ← copied_length]
    exact h4

/-- DstCopy ends the command with closed-for-writes only (20_memory.md R67). -/
theorem dstCopy_stop {s t : State} {bytes : List Byte} (h : dstCopy bytes s = .stop t) :
    s.dst.closed = true ∧ t = s.raise .closedForWrites := by
  unfold dstCopy at h
  split at h
  · injection h with h
    exact ⟨‹_›, h.symm⟩
  · rcases Flow.andThen_eq_stop h with h | ⟨_, _, _, h⟩
    · exact absurd h dstAppend_no_stop
    · cases h

/-- With a legal, open destination Cursor DstCopy goes on. -/
theorem dstCopy_of_open {s : State} (bytes : List Byte) (hw : s.dst.wf = true) (ho : s.dst.closed = false) :
    dstCopy bytes s = .go (min bytes.length s.dst.space) (s.setDst (s.dst.append (copied bytes s))) := by
  rw [DstPort.wf_iff] at hw
  have := s.dst.space_le
  have hl := copied_length bytes s
  unfold copied at hl
  unfold dstCopy
  rw [if_neg (by simp [ho]), dstAppend_of_le (by omega)]
  rfl

/-- With a legal destination Cursor DstCopy does not fault. -/
theorem dstCopy_no_fault {s : State} {bytes : List Byte} (hw : s.dst.wf = true) (f : Fault) :
    dstCopy bytes s ≠ .fault f := by
  cases ho : s.dst.closed with
  | true => simp [dstCopy, ho]
  | false => simp [dstCopy_of_open bytes hw ho]

end Sys2Proof.Machine
end

