-- ==== Sys2Proof/Laws/Parser.lean ====
section
/-! SUPPORT. What the parser can do: FILL and EXTRACT as arithmetic on the code stream, and what they leave alone. -/

namespace Sys2Proof.Machine

theorem SrcPort.ReadTo.refl (p : SrcPort) : p.ReadTo p := by
  refine ⟨?_, Nat.le_refl _, by simp⟩
  simp

theorem SrcPort.ReadTo.trans {p q r : SrcPort} (h : p.ReadTo q) (h' : q.ReadTo r) : p.ReadTo r := by
  have e := h.fields
  have e' := h'.fields
  have l : q.limits = decrementLimits (q.ri - p.ri) p.limits := by rw [e]
  have a := h.ri_le
  have a' := h'.ri_le
  have b := h.bounded
  have b' := h'.bounded
  have w : q.wi = p.wi := by rw [e]
  refine ⟨?_, by omega, ?_⟩
  · rw [e', l, decrementLimits_add, show q.ri - p.ri + (r.ri - q.ri) = r.ri - p.ri by omega]
    rw [e]
  · unfold SrcPort.available at b b' ⊢
    rw [l, w, show p.wi - q.ri = p.wi - p.ri - (q.ri - p.ri) by omega, capByLimit_sub b] at b'
    omega

theorem SrcPort.advance_readTo {p : SrcPort} (hw : p.ri < p.wi) (hl : 0 ∉ p.limits) : p.ReadTo p.advance := by
  refine ⟨by simp [SrcPort.advance], by simp [SrcPort.advance], ?_⟩
  simp only [SrcPort.advance, SrcPort.available, Nat.add_sub_cancel_left]
  have := capByLimit_eq_zero_iff (p.wi - p.ri) p.limits
  have : capByLimit (p.wi - p.ri) p.limits ≠ 0 := by
    rw [Ne, this]
    simp only [not_or]
    exact ⟨by omega, hl⟩
  omega

/-- The byte at the read-index is the first unread byte. -/
theorem SrcPort.unread_eq_cons {p : SrcPort} {b : Byte} (hb : p.data[p.ri]? = some b) (hw : p.ri < p.wi) :
    p.unread = b :: p.advance.unread := by
  simp only [SrcPort.unread, SrcPort.advance]
  obtain ⟨hl, he⟩ := List.getElem?_eq_some_iff.1 hb
  rw [List.drop_eq_getElem_cons hl, he, show p.wi - p.ri = (p.wi - (p.ri + 1)) + 1 by omega, List.take_succ_cons]

theorem State.pushByte_bits_toNat {s : State} (b : Byte) (hb : s.bits.toNat < 2 ^ s.nbits.toNat)
    (hn : s.nbits.toNat ≤ 16) :
    (s.pushByte b).bits.toNat = s.bits.toNat + 2 ^ s.nbits.toNat * b.toNat ∧
      (s.pushByte b).nbits.toNat = s.nbits.toNat + 8 := by
  have hbl : b.toNat < 256 := b.isLt
  constructor
  · rw [State.pushByte_bits, BitVec.toNat_or, BitVec.toNat_shiftLeft, BitVec.toNat_setWidth]
    have hp : (2 : Nat) ^ s.nbits.toNat ≤ 2 ^ 16 := Nat.pow_le_pow_right (by omega) hn
    rw [Nat.mod_eq_of_lt (by omega : b.toNat < 2 ^ 32), Nat.shiftLeft_eq, Nat.mul_comm]
    have hm : 2 ^ s.nbits.toNat * b.toNat < 2 ^ 32 := by
      calc 2 ^ s.nbits.toNat * b.toNat ≤ 2 ^ 16 * b.toNat := Nat.mul_le_mul_right _ hp
        _ < 2 ^ 32 := by omega
    rw [Nat.mod_eq_of_lt hm, Nat.or_comm, Nat.add_comm, Nat.two_pow_add_eq_or_of_lt hb]
  · rw [State.pushByte_nbits, BitVec.toNat_add]
    have : (8 : BitVec 5).toNat = 8 := rfl
    omega

/-- One FILL read moves a byte from the source to the accumulator: the stream is the same. -/
theorem State.pushByte_stream {s : State} {b : Byte} (hb : s.bits.toNat < 2 ^ s.nbits.toNat) (hn : s.nbits.toNat ≤ 16)
    (hd : s.src.data[s.src.ri]? = some b) (hw : s.src.ri < s.src.wi) :
    ((s.setSrc s.src.advance).pushByte b).streamValue = s.streamValue ∧
      ((s.setSrc s.src.advance).pushByte b).streamLength = s.streamLength := by
  obtain ⟨h1, h2⟩ := State.pushByte_bits_toNat (s := s.setSrc s.src.advance) b hb hn
  constructor
  · unfold State.streamValue
    rw [h1, h2, SrcPort.unread_eq_cons hd hw]
    simp only [State.pushByte_src, streamNat]
    rw [Nat.pow_add, Nat.mul_add, Nat.mul_assoc, Nat.add_assoc]
    rfl
  · unfold State.streamLength
    rw [h2]
    simp only [State.pushByte_src, State.setSrc_src, State.setSrc_nbits, SrcPort.advance]
    omega

/-- What FILL may change, and what it keeps. -/
structure State.FilledTo (s t : State) : Prop where
  fields : t = { s with bits := t.bits, nbits := t.nbits, src := t.src }
  src : s.src.ReadTo t.src
  src_wf : s.src.wf = true → t.src.wf = true

theorem State.FilledTo.refl (s : State) : s.FilledTo s := ⟨rfl, .refl _, id⟩

theorem State.FilledTo.trans {s t u : State} (h : s.FilledTo t) (h' : t.FilledTo u) : s.FilledTo u := by
  refine ⟨?_, h.src.trans h'.src, fun hw => h'.src_wf (h.src_wf hw)⟩
  rw [h'.fields, h.fields]

/-- The accumulator's own invariant (10_state.md R31, R32). -/
def State.accumulatorLegal (s : State) : Prop := s.bits.toNat < 2 ^ s.nbits.toNat

theorem srcRead_filledTo {s t : State} {b : Byte} (hw : s.src.wf = true) (h : srcRead s = .go b t) :
    s.FilledTo (t.pushByte b) ∧
      (s.accumulatorLegal → s.nbits.toNat ≤ 16 →
        (t.pushByte b).accumulatorLegal ∧ (t.pushByte b).nbits.toNat = s.nbits.toNat + 8 ∧
          (t.pushByte b).streamValue = s.streamValue ∧ (t.pushByte b).streamLength = s.streamLength) := by
  obtain ⟨hd, hne, hl, rfl⟩ := srcRead_go h
  have hw' := (SrcPort.wf_iff _).1 hw
  have hlt : s.src.ri < s.src.wi := by omega
  refine ⟨⟨rfl, SrcPort.advance_readTo hlt hl, fun hw => SrcPort.advance_wf hw hne⟩, fun ha hn => ?_⟩
  obtain ⟨h1, h2⟩ := State.pushByte_bits_toNat (s := s.setSrc s.src.advance) b ha hn
  obtain ⟨h3, h4⟩ := State.pushByte_stream (s := s) ha hn hd hlt
  refine ⟨?_, h2, h3, h4⟩
  unfold State.accumulatorLegal at ha ⊢
  rw [h1, h2, Nat.pow_add]
  have hb : b.toNat < 2 ^ 8 := b.isLt
  show s.bits.toNat + 2 ^ s.nbits.toNat * b.toNat < 2 ^ s.nbits.toNat * 2 ^ 8
  calc s.bits.toNat + 2 ^ s.nbits.toNat * b.toNat < 2 ^ s.nbits.toNat + 2 ^ s.nbits.toNat * b.toNat := by
        omega
    _ = 2 ^ s.nbits.toNat * (b.toNat + 1) := by rw [Nat.mul_add, Nat.mul_one, Nat.add_comm]
    _ ≤ 2 ^ s.nbits.toNat * 2 ^ 8 := Nat.mul_le_mul_left _ (by omega)

/-- FILL's loop goes on: only BITS, NBITS and the source move, and enough passes leave at least WIDTH bits. -/
theorem fillLoop_go {n : Nat} {s t : State} {u : Unit} (hw : s.src.wf = true) (h : fillLoop n s = .go u t) :
    s.FilledTo t ∧
      (s.accumulatorLegal → s.width.toNat ≤ 12 → s.nbits.toNat < s.width.toNat + 8 → s.width.toNat ≤ s.nbits.toNat + 8 * n →
        t.accumulatorLegal ∧ t.width.toNat ≤ t.nbits.toNat ∧ t.nbits.toNat < t.width.toNat + 8 ∧
          t.streamValue = s.streamValue ∧ t.streamLength = s.streamLength) := by
  induction n generalizing s with
  | zero =>
    injection h with _ h
    subst h
    exact ⟨.refl _, fun ha _ _ hn => ⟨ha, by omega, ‹_›, rfl, rfl⟩⟩
  | succ n ih =>
    simp only [fillLoop] at h
    split at h
    · obtain ⟨b, r, hr, hf⟩ := Flow.andThen_eq_go h
      obtain ⟨h1, h2⟩ := srcRead_filledTo hw hr
      obtain ⟨h3, h4⟩ := ih (h1.src_wf hw) hf
      refine ⟨h1.trans h3, fun ha hmax hlt hn => ?_⟩
      obtain ⟨a1, a2, a3, a4⟩ := h2 ha (by omega)
      have hwd : (r.pushByte b).width = s.width := by rw [h1.fields]
      rw [hwd, a2] at h4
      obtain ⟨b1, b2, b3, b4, b5⟩ := h4 a1 hmax (by omega) (by omega)
      exact ⟨b1, b2, b3, b4.trans a3, b5.trans a4⟩
    · injection h with _ h
      subst h
      exact ⟨.refl _, fun ha _ hlt hn => ⟨ha, by omega, hlt, rfl, rfl⟩⟩

/-- FILL's loop stops: SrcRead ended the command after some bytes were pushed. -/
theorem fillLoop_stop {n : Nat} {s t : State} (hw : s.src.wf = true) (h : fillLoop n s = .stop t) :
    ∃ r, s.FilledTo r ∧ srcRead r = .stop t ∧ r.nbits.toNat < r.width.toNat ∧
      (s.accumulatorLegal → s.width.toNat ≤ 12 → s.nbits.toNat < s.width.toNat + 8 →
        r.accumulatorLegal ∧ r.streamValue = s.streamValue ∧ r.streamLength = s.streamLength) := by
  induction n generalizing s with
  | zero => cases h
  | succ n ih =>
    simp only [fillLoop] at h
    split at h
    · rename_i hlt
      rcases Flow.andThen_eq_stop h with h | ⟨b, r, hr, hf⟩
      · exact ⟨s, .refl _, h, hlt, fun ha _ _ => ⟨ha, rfl, rfl⟩⟩
      · obtain ⟨h1, h2⟩ := srcRead_filledTo hw hr
        obtain ⟨q, h3, h4, h5, h6⟩ := ih (h1.src_wf hw) hf
        refine ⟨q, h1.trans h3, h4, h5, fun ha hmax hlt' => ?_⟩
        obtain ⟨a1, a2, a3, a4⟩ := h2 ha (by omega)
        have hwd : (r.pushByte b).width = s.width := by rw [h1.fields]
        rw [hwd, a2] at h6
        obtain ⟨b1, b2, b3⟩ := h6 a1 hmax (by omega)
        exact ⟨b1, b2.trans a3, b3.trans a4⟩
    · cases h

theorem fillLoop_no_fault {n : Nat} {s : State} (hw : s.src.wf = true) (f : Fault) : fillLoop n s ≠ .fault f := by
  induction n generalizing s with
  | zero => simp [fillLoop]
  | succ n ih =>
    simp only [fillLoop]
    split
    · intro h
      rcases Flow.andThen_eq_fault h with h | ⟨b, r, hr, hf⟩
      · exact srcRead_no_fault hw f h
      · exact ih ((srcRead_filledTo hw hr).1.src_wf hw) hf
    · simp

/-- EXTRACT as arithmetic (41_bitstream_parser.md R131). -/
theorem State.extract_toNat {s : State} (hw : s.width.toNat ≤ 12) (hn : s.width.toNat ≤ s.nbits.toNat) :
    s.extract.code.toNat = s.bits.toNat % 2 ^ s.width.toNat ∧
      s.extract.bits.toNat = s.bits.toNat / 2 ^ s.width.toNat ∧
      s.extract.nbits.toNat = s.nbits.toNat - s.width.toNat := by
  have hp : (2 : Nat) ^ s.width.toNat ≤ 2 ^ 12 := Nat.pow_le_pow_right (by omega) hw
  have hpos : 0 < (2 : Nat) ^ s.width.toNat := Nat.two_pow_pos _
  refine ⟨?_, ?_, ?_⟩
  · rw [State.extract_code, codeField, BitVec.toNat_ofNat, Nat.mod_eq_of_lt]
    exact Nat.lt_of_lt_of_le (Nat.mod_lt _ hpos) hp
  · rw [State.extract_bits, BitVec.toNat_ushiftRight, Nat.shiftRight_eq_div_pow]
  · rw [State.extract_nbits, BitVec.toNat_sub, BitVec.toNat_setWidth]
    have := s.nbits.isLt
    omega

/-- ParseCode goes on: the code is the low WIDTH bits of the stream, and the stream is what is left above them. -/
theorem parseCode_go {s t : State} {u : Unit} (hw : s.src.wf = true) (h : parseCode s = .go u t) :
    t = { s with code := t.code, bits := t.bits, nbits := t.nbits, src := t.src } ∧ s.src.ReadTo t.src ∧
      t.src.wf = true ∧
      (s.accumulatorLegal → s.width.toNat ≤ 12 → s.nbits.toNat < s.width.toNat + 8 →
        t.accumulatorLegal ∧ t.nbits.toNat < 8 ∧ t.code.toNat = s.streamValue % 2 ^ s.width.toNat ∧
          t.streamValue = s.streamValue / 2 ^ s.width.toNat ∧ t.streamLength + s.width.toNat = s.streamLength) := by
  unfold parseCode at h
  obtain ⟨_, r, hr, he⟩ := Flow.andThen_eq_go h
  injection he with _ he
  subst he
  obtain ⟨h1, h2⟩ := fillLoop_go hw hr
  refine ⟨?_, ?_, ?_, fun ha hmax hlt => ?_⟩
  · rw [h1.fields]
    rfl
  · rw [State.extract_src]
    exact h1.src
  · rw [State.extract_src]
    exact h1.src_wf hw
  · obtain ⟨a1, a2, a3, a4, a5⟩ := h2 ha hmax hlt (by omega)
    have hwd : r.width = s.width := by rw [h1.fields]
    rw [hwd] at a2 a3
    obtain ⟨e1, e2, e3⟩ := State.extract_toNat (s := r) (by rw [hwd]; exact hmax) (by rw [hwd]; exact a2)
    rw [hwd] at e1 e2 e3
    have hsplit : (2 : Nat) ^ r.nbits.toNat = 2 ^ s.width.toNat * 2 ^ (r.nbits.toNat - s.width.toNat) := by
      rw [← Nat.pow_add]
      congr 1
      omega
    have hpos : 0 < (2 : Nat) ^ s.width.toNat := Nat.two_pow_pos _
    unfold State.accumulatorLegal at a1 ⊢
    refine ⟨?_, by omega, ?_, ?_, ?_⟩
    · rw [e2, e3]
      apply Nat.div_lt_of_lt_mul
      rw [← hsplit]
      exact a1
    · rw [e1, ← a4, State.streamValue, hsplit, Nat.mul_assoc, Nat.add_mul_mod_self_left]
    · rw [← a4]
      unfold State.streamValue
      rw [e2, e3, State.extract_src, hsplit, Nat.mul_assoc, Nat.add_mul_div_left _ _ hpos]
    · rw [← a5]
      unfold State.streamLength
      rw [e3, State.extract_src]
      omega

end Sys2Proof.Machine
end

