-- ==== Sys2Proof/Laws/Expand.lean ====
section
/-! SUPPORT. The chain walk against the expansion of 20_memory.md R56, and what the flush and the literal write can do. -/

namespace Sys2Proof.Machine

section
variable {k : CodeSpace} {pre : Table 16} {suf : Table 8}

theorem expansion_pos {fuel : Nat} {c : CodeValue} {l : List Byte} (h : expansion k pre suf fuel c = some l) :
    0 < l.length := by
  cases fuel with
  | zero =>
    simp only [expansion] at h
    split at h
    · simp only [Option.some.injEq] at h
      simp [← h]
    · cases h
  | succ n =>
    simp only [expansion] at h
    split at h
    · simp only [Option.some.injEq] at h
      simp [← h]
    · split at h
      · split at h
        · rw [Option.map_eq_some_iff] at h
          obtain ⟨a, _, rfl⟩ := h
          simp
        · cases h
      · cases h

/-- More links change nothing once the expansion is found. -/
theorem expansion_mono {f f' : Nat} {c : CodeValue} {l : List Byte} (h : expansion k pre suf f c = some l)
    (hf : f ≤ f') : expansion k pre suf f' c = some l := by
  induction f generalizing f' c l with
  | zero =>
    simp only [expansion] at h
    split at h
    · cases f' <;> simp [expansion, *]
    · cases h
  | succ n ih =>
    obtain ⟨m, rfl⟩ : ∃ m, f' = m + 1 := ⟨f' - 1, by omega⟩
    simp only [expansion] at h ⊢
    split at h
    · rw [if_pos ‹_›]
      exact h
    · rw [if_neg ‹_›]
      split at h
      · rw [if_pos ‹_›]
        split at h
        · rename_i p b hp hb
          rw [Option.map_eq_some_iff] at h
          obtain ⟨a, ha, rfl⟩ := h
          have := ih (f' := m) ha (by omega)
          simp [this]
        · cases h
      · cases h

/-- `exp(c)` is defined for literals and entries below SAVE_CODE only (20_memory.md R56). -/
theorem expansion_domain {fuel : Nat} {c : CodeValue} {l : List Byte} (h : expansion k pre suf fuel c = some l) :
    c.toNat < k.clearCode.toNat ∨ (k.endCode.toNat < c.toNat ∧ c.toNat < k.saveCode.toNat) := by
  by_cases hl : c.toNat < k.clearCode.toNat
  · exact .inl hl
  · refine .inr ?_
    by_contra hn
    cases fuel <;> simp [expansion, hl, hn] at h

/-- A longer table that keeps the entries below SAVE_CODE keeps every expansion (20_memory.md R56). -/
theorem expansion_grow {k' : CodeSpace} {pre' : Table 16} {suf' : Table 8} (hc : k'.clearCode = k.clearCode)
    (he : k'.endCode = k.endCode) (hs : k.saveCode.toNat ≤ k'.saveCode.toNat)
    (hr : ∀ i, i < k.saveCode.toNat → Table.read pre' i = Table.read pre i ∧ Table.read suf' i = Table.read suf i)
    {fuel : Nat} {c : CodeValue} {l : List Byte} (h : expansion k pre suf fuel c = some l) :
    expansion k' pre' suf' fuel c = some l := by
  induction fuel generalizing c l with
  | zero => simpa [expansion, hc] using h
  | succ n ih =>
    simp only [expansion, hc, he] at h ⊢
    split at h
    · rwa [if_pos ‹_›]
    · rw [if_neg ‹_›]
      split at h
      · rename_i hd
        rw [if_pos ⟨hd.1, by omega⟩, (hr _ hd.2).1, (hr _ hd.2).2]
        split at h
        · rw [Option.map_eq_some_iff] at h
          obtain ⟨a, ha, rfl⟩ := h
          simp [ih ha]
        · cases h
      · cases h

/-- The walk from STACK index `s` writes the expansion below and at `s`, and nothing above (43_expansion_and_flush.md R180). -/
theorem walkChain_of_expansion {fuel : Nat} {x : CodeValue} {l : List Byte}
    (h : expansion k pre suf fuel x = some l) {s : Nat} (hs : l.length ≤ s + 1) (hmax : s < 4096) (stack : Table 8) :
    ∃ stack' head, walkChain k.clearCode pre suf s x stack = .literal stack' (s + 1 - l.length) head ∧
      l.head? = some (literalByte head) ∧ Table.readRun stack' (s + 1 - l.length) l.length = some l ∧
      (∀ j, s < j ∨ j < s + 1 - l.length → Table.read stack' j = Table.read stack j) ∧ (Table.wf stack = true → Table.wf stack' = true) := by
  induction fuel generalizing x l s stack with
  | zero =>
    simp only [expansion] at h
    split at h
    · rename_i hx
      simp only [Option.some.injEq] at h
      subst h
      refine ⟨Table.write stack s (literalByte x), x, ?_, rfl, ?_, fun j hj => Table.read_write_other _ _ (by simp at hj; omega),
        fun hw => Table.wf_write _ hw hmax⟩
      · cases s <;> simp [walkChain, hx]
      · simp [Table.readRun, Table.read_write_same]
    · cases h
  | succ n ih =>
    simp only [expansion] at h
    split at h
    · rename_i hx
      simp only [Option.some.injEq] at h
      subst h
      refine ⟨Table.write stack s (literalByte x), x, ?_, rfl, ?_, fun j hj => Table.read_write_other _ _ (by simp at hj; omega),
        fun hw => Table.wf_write _ hw hmax⟩
      · cases s <;> simp [walkChain, hx]
      · simp [Table.readRun, Table.read_write_same]
    · rename_i hx
      split at h
      swap
      · cases h
      split at h
      · rename_i p b hp hb
        rw [Option.map_eq_some_iff] at h
        obtain ⟨a, ha, rfl⟩ := h
        have hpos := expansion_pos ha
        simp only [List.length_append, List.length_singleton] at hs ⊢
        obtain ⟨r, rfl⟩ : ∃ r, s = r + 1 := ⟨s - 1, by omega⟩
        obtain ⟨st, hd, h1, h2, h3, h4, h5⟩ := ih ha (s := r) (by omega) (by omega) (Table.write stack (r + 1) b)
        refine ⟨st, hd, ?_, ?_, ?_, fun j hj => ?_, fun hw => h5 (Table.wf_write _ hw hmax)⟩
        · simp only [walkChain, hx, if_false, hb, hp]
          rw [h1]
          congr 1
          omega
        · rw [List.head?_append, h2]
          rfl
        · rw [show r + 1 + 1 - (a.length + 1) = r + 1 - a.length by omega, Table.readRun_append, h3,
            show r + 1 - a.length + a.length = r + 1 by omega]
          simp [Table.readRun, h4 (r + 1) (.inl (by omega)), Table.read_write_same]
        · rw [h4 j (by omega), Table.read_write_other _ _ (by omega)]
      · cases h

/-- A walk from STACK index `s` over more entries than there are slots down to 0 is cyclical (43_expansion_and_flush.md R181). -/
theorem walkChain_cyclical {clear : BitVec 9} {s : Nat} {x : Nat → CodeValue}
    (he : ∀ i, i ≤ s → clear.toNat ≤ (x i).toNat ∧ (Table.read suf (x i).toNat).isSome = true)
    (hl : ∀ i, i < s → ∃ p, Table.read pre (x i).toNat = some p ∧ x (i + 1) = chainLink p) (stack : Table 8) :
    walkChain clear pre suf s (x 0) stack = .cyclical := by
  induction s generalizing x stack with
  | zero =>
    obtain ⟨h1, h2⟩ := he 0 (Nat.le_refl 0)
    obtain ⟨b, hb⟩ := Option.isSome_iff_exists.1 h2
    simp [walkChain, hb, show ¬ (x 0).toNat < clear.toNat by omega]
  | succ s ih =>
    obtain ⟨h1, h2⟩ := he 0 (by omega)
    obtain ⟨b, hb⟩ := Option.isSome_iff_exists.1 h2
    obtain ⟨p, hp, hx⟩ := hl 0 (by omega)
    simp only [walkChain, hb, hp, if_neg (show ¬ (x 0).toNat < clear.toNat by omega), ← hx]
    exact ih (x := fun i => x (i + 1)) (fun i hi => he (i + 1) (by omega)) (fun i hi => hl (i + 1) (by omega)) _

/-- A walk that comes to an entry it must read and that is unwritten, after `n` written ones, reads it: the suffix of the entry at
any slot, its prefix at any slot but the last (20_memory.md R54, 43_expansion_and_flush.md R180). -/
theorem walkChain_unwritten {clear : BitVec 9} {s n : Nat} {x : Nat → CodeValue} (hn : n ≤ s)
    (he : ∀ i, i < n → clear.toNat ≤ (x i).toNat ∧ (Table.read suf (x i).toNat).isSome = true)
    (hl : ∀ i, i < n → ∃ p, Table.read pre (x i).toNat = some p ∧ x (i + 1) = chainLink p)
    (hx : clear.toNat ≤ (x n).toNat)
    (hu : Table.read suf (x n).toNat = none ∨ (n < s ∧ Table.read pre (x n).toNat = none)) (stack : Table 8) :
    walkChain clear pre suf s (x 0) stack = .unwritten := by
  induction n generalizing s x stack with
  | zero =>
    have h0 : ¬ (x 0).toNat < clear.toNat := by omega
    cases s with
    | zero =>
      rcases hu with hu | ⟨hu, -⟩
      · simp [walkChain, h0, hu]
      · omega
    | succ s =>
      rcases hu with hu | ⟨-, hu⟩
      · simp [walkChain, h0, hu]
      · simp only [walkChain, h0, if_false, hu]
        cases Table.read suf (x 0).toNat <;> rfl
  | succ n ih =>
    obtain ⟨s, rfl⟩ : ∃ r, s = r + 1 := ⟨s - 1, by omega⟩
    obtain ⟨h1, h2⟩ := he 0 (by omega)
    obtain ⟨b, hb⟩ := Option.isSome_iff_exists.1 h2
    obtain ⟨p, hp, hx'⟩ := hl 0 (by omega)
    simp only [walkChain, hb, hp, if_neg (show ¬ (x 0).toNat < clear.toNat by omega), ← hx']
    exact ih (x := fun i => x (i + 1)) (by omega) (fun i hi => he (i + 1) (by omega)) (fun i hi => hl (i + 1) (by omega)) hx
      (hu.imp id (fun h => ⟨by omega, h.2⟩)) _

/-- A walk whose chain comes to a literal within the slots is not cyclical (43_expansion_and_flush.md R181). -/
theorem walkChain_not_cyclical {clear : BitVec 9} {s n : Nat} {x : Nat → CodeValue} (hn : n ≤ s)
    (hl : ∀ i, i < n → ∃ p, Table.read pre (x i).toNat = some p ∧ x (i + 1) = chainLink p)
    (hx : (x n).toNat < clear.toNat) (stack : Table 8) : walkChain clear pre suf s (x 0) stack ≠ .cyclical := by
  induction n generalizing s x stack with
  | zero => cases s <;> simp [walkChain, hx]
  | succ n ih =>
    obtain ⟨s, rfl⟩ : ∃ r, s = r + 1 := ⟨s - 1, by omega⟩
    obtain ⟨p, hp, hx'⟩ := hl 0 (by omega)
    unfold walkChain
    split
    · simp
    · rw [hp]
      split
      · rename_i h
        injection h with h
        subst h
        rw [← hx']
        exact ih (x := fun i => x (i + 1)) (by omega) (fun i hi => hl (i + 1) (by omega)) hx _
      · simp

end

/-- In a legal table every ordinary code below SAVE_CODE has an expansion, no longer than 20_memory.md R57 says. -/
theorem State.TableLegal.expansion_some {s : State} (ht : s.TableLegal) (he : s.endCode.toNat = s.clearCode.toNat + 1)
    (n : Nat) {c : CodeValue} (hn : c.toNat ≤ n) (ho : s.ordinaryCode c) (hc : c.toNat < s.saveCode.toNat) :
    ∃ l, expansion s.codeSpace s.mem.prefixTab s.mem.suffixTab n c = some l ∧ l.length ≤ c.toNat - s.endCode.toNat + 1 := by
  induction n generalizing c with
  | zero =>
    rcases ho with ho | ho
    · exact ⟨[literalByte c], by simp [expansion, ho], by simp⟩
    · omega
  | succ n ih =>
    by_cases hl : c.toNat < s.clearCode.toNat
    · exact ⟨[literalByte c], by simp [expansion, hl], by simp⟩
    · have hgt : s.endCode.toNat < c.toNat := ho.resolve_left hl
      obtain ⟨p, b, hp, hb, hlt, hpo⟩ := ht c.toNat hgt hc
      have hcl : (chainLink p).toNat = p.toNat := by
        rw [chainLink, BitVec.toNat_setWidth, Nat.mod_eq_of_lt]
        have := c.isLt
        omega
      obtain ⟨l, h1, h2⟩ := ih (c := chainLink p) (by omega) hpo (by omega)
      refine ⟨l ++ [b], by simp [expansion, hl, hgt, hc, hp, hb, h1], ?_⟩
      simp only [List.length_append, List.length_singleton]
      rcases hpo with hpo | hpo
      · rw [hcl] at hpo h2
        omega
      · rw [hcl] at hpo h2
        omega

/-- `exp(c)` for every ordinary code below SAVE_CODE (20_memory.md R56 to R58). -/
theorem State.TableLegal.exp_some {s : State} (ht : s.TableLegal) (he : s.endCode.toNat = s.clearCode.toNat + 1)
    {c : CodeValue} (ho : s.ordinaryCode c) (hc : c.toNat < s.saveCode.toNat) :
    ∃ l, s.exp c = some l ∧ 0 < l.length ∧ l.length ≤ c.toNat - s.endCode.toNat + 1 := by
  obtain ⟨l, h1, h2⟩ := ht.expansion_some he 4096 (by have := c.isLt; omega) ho hc
  exact ⟨l, h1, expansion_pos h1, h2⟩

/-- The bytes a walk leaves on the stack: the chain's expansion, and for KWKWK its first byte again
(43_expansion_and_flush.md R180, R183). -/
theorem walk_of_exp {isKwkwk : Bool} {c : CodeValue} {s : State} {l : List Byte}
    (h : s.exp (walkStart isKwkwk c s).2 = some l) (hl : l.length ≤ (walkStart isKwkwk c s).1 + 1) :
    ∃ stack b, walk isKwkwk c s = .go () (s.setExpansion stack ((walkStart isKwkwk c s).1 + 1 - l.length) b) ∧
      l.head? = some b ∧
      Table.readRun stack ((walkStart isKwkwk c s).1 + 1 - l.length) (4096 - ((walkStart isKwkwk c s).1 + 1 - l.length)) =
        some (if isKwkwk then l ++ [b] else l) ∧
      (∀ j, j < (walkStart isKwkwk c s).1 + 1 - l.length → Table.read stack j = Table.read s.mem.stackTab j) ∧
      (Table.wf s.mem.stackTab = true → Table.wf stack = true) := by
  have hpos := expansion_pos h
  have htop : (walkStart isKwkwk c s).1 < 4096 := by
    unfold walkStart
    split <;> simp
  obtain ⟨st, hd, h1, h2, h3, h4, h5⟩ := walkChain_of_expansion h hl htop s.mem.stackTab
  refine ⟨if isKwkwk then Table.write st 4095 (literalByte hd) else st, literalByte hd, ?_, h2, ?_, fun j hj => ?_, ?_⟩
  · rw [State.codeSpace_clearCode] at h1
    unfold walk
    rw [h1]
  · cases isKwkwk with
    | false =>
      simp only [walkStart, Bool.false_eq_true, if_false] at hl h3 ⊢
      rw [show 4096 - (4095 + 1 - l.length) = l.length by omega]
      exact h3
    | true =>
      simp only [walkStart, if_true] at hl h3 ⊢
      rw [show 4096 - (4094 + 1 - l.length) = l.length + 1 by omega, Table.readRun_append,
        Table.readRun_write_outside _ _ _ _ _ (by omega), h3, show 4094 + 1 - l.length + l.length = 4095 by omega]
      simp [Table.readRun, Table.read_write_same]
  · cases isKwkwk with
    | false => exact h4 j (.inr hj)
    | true =>
      simp only [walkStart, if_true] at hj h4 ⊢
      rw [Table.read_write_other _ _ (by omega), h4 j (.inr hj)]
  · intro hw
    cases isKwkwk with
    | false => exact h5 hw
    | true => exact Table.wf_write _ (h5 hw) (by omega)

end Sys2Proof.Machine
end

