-- ==== Sys2Proof/Laws/Update.lean ====
section
/-! SUPPORT. What the table update does, field by field, and that it keeps the invariants (42_code_semantics.md R157 to R160). -/

namespace Sys2Proof.Machine

/-! ### `State.update` -/

@[simp] theorem State.update_initDone (s : State) : s.update.initDone = s.initDone := by
  unfold State.update
  split
  · split <;> rfl
  · rfl

@[simp] theorem State.update_status (s : State) : s.update.status = s.status := by
  unfold State.update
  split
  · split <;> rfl
  · rfl

@[simp] theorem State.update_lwReg (s : State) : s.update.lwReg = s.lwReg := by
  unfold State.update
  split
  · split <;> rfl
  · rfl

@[simp] theorem State.update_lw (s : State) : s.update.lw = s.lw := by
  unfold State.update
  split
  · split <;> rfl
  · rfl

@[simp] theorem State.update_clearCode (s : State) : s.update.clearCode = s.clearCode := by
  unfold State.update
  split
  · split <;> rfl
  · rfl

@[simp] theorem State.update_endCode (s : State) : s.update.endCode = s.endCode := by
  unfold State.update
  split
  · split <;> rfl
  · rfl

@[simp] theorem State.update_bits (s : State) : s.update.bits = s.bits := by
  unfold State.update
  split
  · split <;> rfl
  · rfl

@[simp] theorem State.update_nbits (s : State) : s.update.nbits = s.nbits := by
  unfold State.update
  split
  · split <;> rfl
  · rfl

@[simp] theorem State.update_code (s : State) : s.update.code = s.code := by
  unfold State.update
  split
  · split <;> rfl
  · rfl

@[simp] theorem State.update_first (s : State) : s.update.first = s.first := by
  unfold State.update
  split
  · split <;> rfl
  · rfl

@[simp] theorem State.update_stackStart (s : State) : s.update.stackStart = s.stackStart := by
  unfold State.update
  split
  · split <;> rfl
  · rfl

@[simp] theorem State.update_flushed (s : State) : s.update.flushed = s.flushed := by
  unfold State.update
  split
  · split <;> rfl
  · rfl

@[simp] theorem State.update_src (s : State) : s.update.src = s.src := by
  unfold State.update
  split
  · split <;> rfl
  · rfl

@[simp] theorem State.update_dst (s : State) : s.update.dst = s.dst := by
  unfold State.update
  split
  · split <;> rfl
  · rfl

@[simp] theorem State.update_response (s : State) : s.update.response = s.response := by
  unfold State.update
  split
  · split <;> rfl
  · rfl

@[simp] theorem State.update_refusedMark (s : State) : s.update.refusedMark = s.refusedMark := by
  unfold State.update
  split
  · split <;> rfl
  · rfl

@[simp] theorem State.update_host (s : State) : s.update.host = s.host := by
  unfold State.update
  split
  · split <;> rfl
  · rfl

@[simp] theorem State.update_draws (s : State) : s.update.draws = s.draws := by
  unfold State.update
  split
  · split <;> rfl
  · rfl

@[simp] theorem State.update_prevCode (s : State) :
    s.update.prevCode = s.code := by
  unfold State.update
  split
  · split <;> rfl
  · rfl

@[simp] theorem State.update_phase (s : State) :
    s.update.phase = .fill := by
  unfold State.update
  split
  · split <;> rfl
  · rfl

theorem State.update_saveCode (s : State) :
    s.update.saveCode = if s.saveCode.toNat ≤ 4095 then s.saveCode + 1 else s.saveCode := by
  unfold State.update
  split
  · split <;> rfl
  · rfl

theorem State.update_width (s : State) :
    s.update.width = if s.saveCode.toNat ≤ 4095 then (if widthGrows (s.saveCode + 1) s.width then s.width + 1 else s.width) else s.width := by
  unfold State.update
  split
  · split <;> rfl
  · rfl

theorem State.update_mem (s : State) :
    s.update.mem = if s.saveCode.toNat ≤ 4095 ∧ hasPrev s = true then s.addEntry.mem else s.mem := by
  unfold State.update
  by_cases h : s.saveCode.toNat ≤ 4095
  · by_cases hp : hasPrev s = true <;> simp [h, hp]
  · simp [h]

theorem State.update_saveCode_toNat (s : State) (h : s.saveCode.toNat ≤ 4096) :
    s.update.saveCode.toNat = min (s.saveCode.toNat + 1) 4096 := by
  rw [State.update_saveCode]
  split
  · rw [BitVec.toNat_add]
    have : (1 : BitVec 13).toNat = 1 := rfl
    omega
  · omega

/-- WIDTH grows by one exactly when SAVE_CODE, just incremented, reaches `2^WIDTH` below 12 bits (42_code_semantics.md R158). -/
theorem State.update_width_toNat (s : State) (h : s.width.toNat ≤ 12) :
    s.update.width.toNat =
      if s.saveCode.toNat ≤ 4095 ∧ s.saveCode.toNat + 1 = 2 ^ s.width.toNat ∧ s.width.toNat < 12 then s.width.toNat + 1
      else s.width.toNat := by
  rw [State.update_width]
  by_cases hs : s.saveCode.toNat ≤ 4095
  · have h1 : (s.saveCode + 1).toNat = s.saveCode.toNat + 1 := by
      rw [BitVec.toNat_add]
      have : (1 : BitVec 13).toNat = 1 := rfl
      omega
    simp only [hs, if_true, true_and, widthGrows, h1, Bool.and_eq_true, decide_eq_true_eq]
    have : Config.maxWidth = 12 := rfl
    rw [this]
    split
    · rw [BitVec.toNat_add]
      have : (1 : BitVec 4).toNat = 1 := rfl
      omega
    · rfl
  · simp [hs]

theorem State.hasPrev_iff (s : State) : hasPrev s = true ↔ s.saveCode.toNat ≠ s.endCode.toNat := by
  simp [hasPrev]

/-- With a full table Update moves PREV_CODE and PHASE only (42_code_semantics.md R159, R160). -/
theorem State.update_of_full {s : State} (h : s.saveCode.toNat = 4096) :
    s.update = { s with prevCode := s.code, phase := .fill } := by
  unfold State.update
  rw [if_neg (by omega)]
  rfl

/-- A code that Update may follow: a literal, or a table index up to the next-free slot. -/
def State.codeReady (s : State) : Prop :=
  s.code.toNat < s.clearCode.toNat ∨ (s.endCode.toNat < s.code.toNat ∧ s.code.toNat ≤ s.saveCode.toNat)

theorem State.RegistersLegal.update {s : State} (h : s.RegistersLegal) (hc : s.codeReady) (hn : s.nbits.toNat < 8) :
    s.update.RegistersLegal := by
  have hsave := State.update_saveCode_toNat s h.save_max
  have hwidth := State.update_width_toNat s h.width_max
  have hp12 : (2 : Nat) ^ 12 = 4096 := by norm_num
  have hwle : s.width.toNat ≤ s.update.width.toNat := by rw [hwidth]; split <;> omega
  have hc4 : 4 ≤ s.clearCode.toNat := by
    rw [h.clear_eq]
    calc 4 = 2 ^ 2 := rfl
      _ ≤ 2 ^ s.lw.toNat := Nat.pow_le_pow_right (by omega) h.lw_min
  refine ⟨by simpa using h.lw_min, by simpa using h.lw_max, by simpa using h.clear_eq, by simpa using h.end_eq, ?_, ?_, ?_,
    ?_, ?_, ?_, ?_, ?_, by simpa using h.bits_lt, ?_, ?_, ?_⟩
  · have := h.width_min
    simp only [State.update_lw]
    omega
  · have := h.width_max
    rw [hwidth]
    split <;> omega
  · have := h.save_min
    have := h.save_max
    simp only [State.update_endCode]
    omega
  · omega
  · intro hlt
    have hs : s.saveCode.toNat < 4096 := by omega
    have hw := h.save_width hs
    rw [hsave] at hlt ⊢
    rw [hwidth]
    rw [Nat.min_eq_left (by omega)] at hlt ⊢
    by_cases hg : s.saveCode.toNat + 1 = 2 ^ s.width.toNat
    · have hw12 : s.width.toNat < 12 := by
        by_contra hcon
        have : s.width.toNat = 12 := by have := h.width_max; omega
        rw [this] at hg
        omega
      rw [if_pos ⟨by omega, hg, hw12⟩, Nat.pow_succ]
      omega
    · rw [if_neg (fun x => hg x.2.1)]
      omega
  · intro hfull
    have hmax := h.width_max
    have hsmax := h.save_max
    rw [hsave] at hfull
    by_cases hs : s.saveCode.toNat = 4096
    · rw [hwidth, if_neg (fun x => by omega)]
      exact h.save_full hs
    · have h95 : s.saveCode.toNat = 4095 := by omega
      have h12 : 12 ≤ s.width.toNat := by
        by_contra hcon
        have := Nat.pow_le_pow_right (n := 2) (by omega) (show s.width.toNat ≤ 11 by omega)
        have := h.save_width (by omega)
        omega
      rw [hwidth, if_neg (fun x => by omega)]
      omega
  · intro _
    simp only [State.update_prevCode]
    have hcl := s.code.isLt
    have := h.save_max
    have := h.save_min
    have := h.end_eq
    rcases hc with hc | hc <;> omega
  · intro _
    unfold State.ordinaryCode
    simp only [State.update_prevCode, State.update_clearCode, State.update_endCode]
    rcases hc with hc | hc
    · exact .inl hc
    · exact .inr hc.1
  · intro _
    simp only [State.update_nbits]
    omega
  · simp
  · simp

theorem chainLink_prefixEntry (c : CodeValue) : chainLink (prefixEntry c) = c := by
  unfold chainLink prefixEntry
  rw [BitVec.setWidth_setWidth_of_le _ (by omega), BitVec.setWidth_eq]

theorem State.TableLegal.update {s : State} (h : s.RegistersLegal) (ht : s.TableLegal) : s.update.TableLegal := by
  have hsave := State.update_saveCode_toNat s h.save_max
  intro k hk1 hk2
  rw [State.update_endCode] at hk1
  rw [hsave] at hk2
  have hmin := h.save_min
  have hmem : s.update.mem.prefixTab = (if s.saveCode.toNat ≤ 4095 ∧ hasPrev s = true then s.addEntry.mem else s.mem).prefixTab
      ∧ s.update.mem.suffixTab = (if s.saveCode.toNat ≤ 4095 ∧ hasPrev s = true then s.addEntry.mem else s.mem).suffixTab := by
    rw [State.update_mem]
    exact ⟨rfl, rfl⟩
  have hord : ∀ c, s.update.ordinaryCode c ↔ s.ordinaryCode c := fun c => by
    simp [State.ordinaryCode]
  by_cases hks : k < s.saveCode.toNat
  · obtain ⟨p, b, hp, hb, hlt, ho⟩ := ht k hk1 hks
    refine ⟨p, b, ?_, ?_, hlt, (hord _).2 ho⟩
    · rw [hmem.1]
      split
      · exact (Table.read_write_other _ _ (by omega)).trans hp
      · exact hp
    · rw [hmem.2]
      split
      · exact (Table.read_write_other _ _ (by omega)).trans hb
      · exact hb
  · have hk : k = s.saveCode.toNat := by omega
    have hprev : hasPrev s = true := by
      rw [State.hasPrev_iff]
      omega
    have hcond : s.saveCode.toNat ≤ 4095 ∧ hasPrev s = true := ⟨by omega, hprev⟩
    rw [if_pos hcond] at hmem
    refine ⟨prefixEntry s.prevCode, s.first, ?_, ?_, ?_, ?_⟩
    · rw [hmem.1, hk]
      exact Table.read_write_same _ _ _
    · rw [hmem.2, hk]
      exact Table.read_write_same _ _ _
    · have := h.prev_lt hprev
      rw [prefixEntry, BitVec.toNat_setWidth, Nat.mod_eq_of_lt]
      · omega
      · have := s.prevCode.isLt
        omega
    · rw [hord, chainLink_prefixEntry]
      exact h.prev_ordinary hprev

theorem State.update_wf {s : State} (h : s.mem.wf = true) : s.update.mem.wf = true := by
  rw [State.update_mem]
  split
  · rename_i hc
    exact State.addEntry_wf s h hc.1
  · exact h

/-- Update keeps the invariants of a decode. -/
theorem State.update_loopInv {s : State} (hm : s.mem.wf = true) (hcur : s.cursorsLegal) (hr : s.RegistersLegal) (ht : s.TableLegal) (hc : s.codeReady)
    (hn : s.nbits.toNat < 8) : s.update.LoopInv := by
  refine ⟨State.update_wf hm, ?_, fun _ => hr.update hc hn, fun _ => ht.update hr, fun _ hp => ?_⟩
  · unfold State.cursorsLegal
    simp only [State.update_src, State.update_dst]
    exact hcur
  · simp at hp

end Sys2Proof.Machine
end

