-- ==== Sys2Proof/Laws/Codes.lean ====
section
/-! SUPPORT. What one pass of a decode can do: the ways a literal, a flush and an expansion end, what they leave alone, and that
they keep the invariants and never fault from a state that meets them. -/

namespace Sys2Proof.Machine

/-! ### The destination Cursor -/

theorem DstPort.WrittenTo.refl (p : DstPort) : p.WrittenTo p := by
  refine ⟨?_, Nat.le_refl _, by simp, rfl, fun _ _ => rfl⟩
  simp

theorem DstPort.WrittenTo.trans {p q r : DstPort} (h : p.WrittenTo q) (h' : q.WrittenTo r) : p.WrittenTo r := by
  have e := h.fields
  have e' := h'.fields
  have l : q.limits = decrementLimits (q.wi - p.wi) p.limits := by rw [e]
  have a := h.wi_le
  have a' := h'.wi_le
  have b := h.bounded
  have b' := h'.bounded
  have w : q.len = p.len := by rw [e]
  refine ⟨?_, by omega, ?_, h'.length_eq.trans h.length_eq, fun j hj => ?_⟩
  · rw [e', l, decrementLimits_add, show q.wi - p.wi + (r.wi - q.wi) = r.wi - p.wi by omega]
    rw [e]
  · unfold DstPort.space at b b' ⊢
    rw [l, w, show p.len - q.wi = p.len - p.wi - (q.wi - p.wi) by omega, capByLimit_sub b] at b'
    omega
  · rw [h'.outside j (by omega), h.outside j (by omega)]

theorem DstPort.append_writtenTo {p : DstPort} {bytes : List Byte} (h : p.wi + bytes.length ≤ p.data.length)
    (hs : bytes.length ≤ p.space) : p.WrittenTo (p.append bytes) := by
  refine ⟨by simp [DstPort.append], by simp [DstPort.append], by simp [DstPort.append]; exact hs, DstPort.append_length h,
    fun j hj => DstPort.append_outside h ?_⟩
  simpa [DstPort.append] using hj

/-! ### The frame of a pass -/

/-- What every pass of a decode leaves alone, and how it may move the ports. -/
structure State.PassTo (s t : State) : Prop where
  initDone : t.initDone = s.initDone
  lwReg : t.lwReg = s.lwReg
  refusedMark : t.refusedMark = s.refusedMark
  host : t.host = s.host
  src : s.src.ReadTo t.src
  dst : s.dst.WrittenTo t.dst

theorem State.PassTo.refl (s : State) : s.PassTo s := ⟨rfl, rfl, rfl, rfl, .refl _, .refl _⟩

theorem State.PassTo.trans {s t u : State} (h : s.PassTo t) (h' : t.PassTo u) : s.PassTo u :=
  ⟨h'.initDone.trans h.initDone, h'.lwReg.trans h.lwReg, h'.refusedMark.trans h.refusedMark, h'.host.trans h.host,
    h.src.trans h'.src, h.dst.trans h'.dst⟩

theorem State.ret_passTo (o : Status) (s : State) : s.PassTo (s.ret o) := ⟨rfl, rfl, rfl, rfl, .refl _, .refl _⟩

theorem State.raise_passTo (o : Status) (s : State) : s.PassTo (s.raise o) := ⟨rfl, rfl, rfl, rfl, .refl _, .refl _⟩

theorem State.raise_ended {e : Status} (h : decodeError e) (s : State) : (s.raise e).Ended := ⟨rfl, .inl h⟩

/-- After an error nothing of the invariant is left to hold but the canonical tables and the Cursors. -/
theorem State.raise_loopInv {e : Status} (h : isError e = true) {s : State} (hc : s.cursorsLegal) : (s.raise e).LoopInv := by
  have hd : ¬ (s.raise e).decoding := fun hd => by
    have := hd.1.2
    rw [State.raise_status, h] at this
    cases this
  exact ⟨freeMemory_wf _, hc, fun hd' => absurd hd' hd, fun hd' => absurd hd' hd, fun hd' => absurd hd' hd⟩

/-- A pass that has not ended the command: PHASE = FILL, STATUS and the response as they were. -/
def State.GoesOn (s t : State) : Prop := t.response = s.response ∧ t.status = s.status ∧ t.phase = .fill

/-! ### EMIT_LIT -/

/-- The step of EMIT_LIT ends in one of three ways (43_expansion_and_flush.md R187). -/
theorem literalStep_next {s t : State} (h : literalStep s = .next t) :
    (s.dst.closed = true ∧ t = s.raise .closedForWrites) ∨
      (s.dst.closed = false ∧ s.dst.space = 0 ∧ t = s.ret .shortWrite) ∨
      (s.dst.closed = false ∧ s.dst.space ≠ 0 ∧ s.dst.wi + 1 ≤ s.dst.data.length ∧
        t = (s.setDst (s.dst.append [literalByte s.code])).setFirstFromCode.update) := by
  rcases Flow.toOutcome_eq_next h with h | h
  · obtain ⟨_, u, hu, he⟩ := Flow.andThen_eq_go h
    obtain ⟨_, v, hv, hw⟩ := Flow.andThen_eq_go hu
    injection he with _ he
    injection hw with _ hw
    obtain ⟨h1, h2, h3, rfl⟩ := dstWrite_go hv
    subst hw
    exact .inr (.inr ⟨h1, h2, h3, he.symm⟩)
  · rcases Flow.andThen_eq_stop h with h | ⟨_, _, _, h⟩
    · rcases Flow.andThen_eq_stop h with h | ⟨_, _, _, h⟩
      · rcases dstWrite_stop h with h | h
        · exact .inl h
        · exact .inr (.inl h)
      · cases h
    · cases h

theorem literalStep_answers {s : State} (hw : s.dst.wf = true) : ∃ t, literalStep s = .next t := by
  unfold literalStep emitLiteral
  cases h : dstWrite (literalByte s.code) s with
  | go a t => exact ⟨_, rfl⟩
  | stop t => exact ⟨_, rfl⟩
  | fault f => exact absurd h (dstWrite_no_fault hw f)

/-- The step of EMIT_LIT keeps the invariants. -/
theorem literalStep_keeps {s t : State} (hi : s.LoopInv) (hd : s.decoding) (hp : s.phase = .emitLit)
    (h : literalStep s = .next t) :
    t.LoopInv ∧ s.PassTo t ∧ ((s.GoesOn t ∧ t.streamLength = s.streamLength) ∨ t.Ended) := by
  have hr := hi.registers hd
  have ht := hi.table hd
  rcases literalStep_next h with ⟨_, rfl⟩ | ⟨_, _, rfl⟩ | ⟨_, h2, h3, rfl⟩
  · exact ⟨State.raise_loopInv rfl hi.cursors, State.raise_passTo _ _, .inr (State.raise_ended (by simp [decodeError]) _)⟩
  · refine ⟨⟨hi.mem_wf, hi.cursors, fun _ => ?_, fun _ => ht, fun _ hp' => ?_⟩, State.ret_passTo _ _, .inr ?_⟩
    · exact { hr with }
    · rw [State.ret_phase, hp] at hp'
      cases hp'
    · exact ⟨rfl, .inr (.inr (.inr ⟨rfl, .inl hp⟩))⟩
  · have hwr : s.dst.WrittenTo (s.dst.append [literalByte s.code]) :=
      DstPort.append_writtenTo (by simpa using h3) (by simp; omega)
    have hcur : (s.setDst (s.dst.append [literalByte s.code])).setFirstFromCode.cursorsLegal :=
      ⟨hi.cursors.1, DstPort.append_wf hi.cursors.2 (by simpa using h3)⟩
    refine ⟨?_, ?_, .inl ⟨⟨by simp, by simp, by simp⟩, by simp [State.streamLength]⟩⟩
    · exact State.update_loopInv hi.mem_wf hcur { hr with } ht (.inl (hr.code_literal hp)) (hr.nbits_emit (.inl hp))
    · refine ⟨by simp, by simp, by simp, by simp, ?_, ?_⟩
      · simpa using SrcPort.ReadTo.refl s.src
      · simpa using hwr

/-! ### FLUSH -/

/-- The step of FLUSH ends in one of three ways (43_expansion_and_flush.md R184). -/
theorem flushThenUpdate_cases {s : State} {l : List Byte} (hw : s.dst.wf = true)
    (hl : Table.readRun s.mem.stackTab (tailStart s) (4096 - tailStart s) = some l) :
    flushThenUpdate s =
      if s.dst.closed = true then .stop (s.raise .closedForWrites)
      else if (s.addFlushed (min l.length s.dst.space)).flushed.toNat < 4096 - s.stackStart.toNat then
        .stop (((s.setDst (s.dst.append (copied l s))).addFlushed (min l.length s.dst.space)).ret .shortWrite)
      else
        .go () ((s.setDst (s.dst.append (copied l s))).addFlushed (min l.length s.dst.space)).update := by
  unfold flushThenUpdate flush
  rw [show Config.tableSize = 4096 from rfl, hl]
  cases ho : s.dst.closed with
  | true => simp [dstCopy, ho]
  | false =>
    simp only [dstCopy_of_open l hw ho, Flow.andThen_go, Bool.false_eq_true, if_false]
    by_cases hlt : (s.addFlushed (min l.length s.dst.space)).flushed.toNat < 4096 - s.stackStart.toNat
    · have hlt' : ((s.setDst (s.dst.append (copied l s))).addFlushed (min l.length s.dst.space)).flushed.toNat <
          4096 - (s.setDst (s.dst.append (copied l s))).stackStart.toNat := hlt
      rw [if_pos hlt, if_pos hlt', Flow.andThen_stop]
    · have hlt' : ¬ ((s.setDst (s.dst.append (copied l s))).addFlushed (min l.length s.dst.space)).flushed.toNat <
          4096 - (s.setDst (s.dst.append (copied l s))).stackStart.toNat := hlt
      rw [if_neg hlt, if_neg hlt', Flow.andThen_go]

theorem flushStep_eq (s : State) : flushStep s = (flushThenUpdate s).toOutcome := rfl

/-- The tail of a legal expansion can be read. -/
theorem State.FlushLegal.tail {s : State} (h : s.FlushLegal) :
    ∃ l, Table.readRun s.mem.stackTab (tailStart s) (4096 - tailStart s) = some l ∧ l.length = 4096 - tailStart s := by
  obtain ⟨l, h1, _, _⟩ := h.stack_eq
  have hlt := h.tail_lt
  have hsplit := Table.readRun_append s.mem.stackTab s.stackStart.toNat s.flushed.toNat (4096 - tailStart s)
  unfold tailStart at *
  rw [show s.flushed.toNat + (4096 - (s.stackStart.toNat + s.flushed.toNat)) = 4096 - s.stackStart.toNat by omega, h1] at hsplit
  cases h2 : Table.readRun s.mem.stackTab s.stackStart.toNat s.flushed.toNat with
  | none => rw [h2] at hsplit; simp at hsplit
  | some a =>
    cases h3 : Table.readRun s.mem.stackTab (s.stackStart.toNat + s.flushed.toNat) (4096 - (s.stackStart.toNat + s.flushed.toNat))
      with
    | none => rw [h2, h3] at hsplit; simp at hsplit
    | some b => exact ⟨b, rfl, ((Table.readRun_eq_some_iff _ _ _ _).1 h3).1⟩

/-- The step of FLUSH answers, and keeps the invariants. -/
theorem flushThenUpdate_keeps {s : State} (hi : s.LoopInv) (hd : s.decoding) (hp : s.phase = .flush) :
    ∃ t, (flushThenUpdate s).toOutcome = .next t ∧ t.LoopInv ∧ s.PassTo t ∧
      ((s.GoesOn t ∧ t.streamLength = s.streamLength) ∨ t.Ended) := by
  have hr := hi.registers hd
  have ht := hi.table hd
  have hf := hi.flush hd hp
  obtain ⟨l, hl, hlen⟩ := hf.tail
  rw [flushThenUpdate_cases hi.cursors.2 hl]
  have hdw := (DstPort.wf_iff _).1 hi.cursors.2
  have hsp := s.dst.space_le
  have hcl := copied_length l s
  have hfit : s.dst.wi + (copied l s).length ≤ s.dst.data.length := by omega
  have hwr : s.dst.WrittenTo (s.dst.append (copied l s)) := DstPort.append_writtenTo hfit (by omega)
  have hcur : (s.setDst (s.dst.append (copied l s))).cursorsLegal :=
    ⟨hi.cursors.1, DstPort.append_wf hi.cursors.2 hfit⟩
  have hpt : ∀ t : State, t.initDone = s.initDone → t.lwReg = s.lwReg → t.refusedMark = s.refusedMark → t.host = s.host →
      t.src = s.src → t.dst = s.dst.append (copied l s) → s.PassTo t := fun t a b c d e f =>
    ⟨a, b, c, d, e ▸ .refl _, f ▸ hwr⟩
  split
  · exact ⟨_, rfl, State.raise_loopInv rfl hi.cursors, State.raise_passTo _ _, .inr (State.raise_ended (by simp [decodeError]) _)⟩
  · have htl := hf.tail_lt
    have hfl : (s.addFlushed (min l.length s.dst.space)).flushed.toNat = s.flushed.toNat + min l.length s.dst.space := by
      rw [State.addFlushed_flushed, BitVec.toNat_add, BitVec.toNat_ofNat]
      unfold tailStart at hlen
      omega
    split
    · rename_i hlt
      rw [hfl] at hlt
      refine ⟨_, rfl, ⟨hi.mem_wf, hcur, fun _ => { hr with }, fun _ => ht, fun _ _ => ⟨?_, hf.code_min, hf.code_max, ?_⟩⟩,
        hpt _ rfl rfl rfl rfl rfl rfl, .inr ⟨rfl, .inr (.inr (.inr ⟨rfl, .inr hp⟩))⟩⟩
      · show s.stackStart.toNat + (s.addFlushed (min l.length s.dst.space)).flushed.toNat < 4096
        omega
      · exact hf.stack_eq
    · refine ⟨_, rfl, ?_, ?_, .inl ⟨⟨by simp, by simp, by simp⟩, by simp [State.streamLength]⟩⟩
      · exact State.update_loopInv hi.mem_wf hcur { hr with } ht (.inr ⟨hf.code_min, hf.code_max⟩)
          (hr.nbits_emit (.inr hp))
      · exact hpt _ (by simp) (by simp) (by simp) (by simp) (by simp) (by simp)

end Sys2Proof.Machine
end

