-- ==== Sys2Proof/Laws/Decode.lean ====
section
/-! SUPPORT. The command word as arithmetic, and the bounds of a legal code space. -/

namespace Sys2Proof

/-- The command word is `opcode + 256 · arg` (30_encoding.md R88). -/
theorem commandWord_toNat (o : BitVec 8) (a : BitVec 24) : (commandWord o a).toNat = o.toNat + 256 * a.toNat := by
  unfold commandWord
  show (a ++ o).toNat = _
  rw [BitVec.toNat_append, Nat.shiftLeft_eq, Nat.mul_comm, ← Nat.two_pow_add_eq_or_of_lt o.isLt]
  omega

@[simp] theorem commandOpcode_commandWord (o : BitVec 8) (a : BitVec 24) : commandOpcode (commandWord o a) = o := by
  apply BitVec.eq_of_toNat_eq
  rw [commandOpcode, BitVec.extractLsb'_toNat, commandWord_toNat, Nat.shiftRight_zero]
  have := o.isLt
  omega

@[simp] theorem commandArg_commandWord (o : BitVec 8) (a : BitVec 24) : commandArg (commandWord o a) = a := by
  apply BitVec.eq_of_toNat_eq
  rw [commandArg, BitVec.extractLsb'_toNat, commandWord_toNat, Nat.shiftRight_eq_div_pow]
  have := o.isLt
  have := a.isLt
  omega

@[simp] theorem commandWord_fields (w : CommandWord) : commandWord (commandOpcode w) (commandArg w) = w := by
  apply BitVec.eq_of_toNat_eq
  rw [commandWord_toNat, commandArg, commandOpcode, BitVec.extractLsb'_toNat, BitVec.extractLsb'_toNat,
    Nat.shiftRight_eq_div_pow]
  have := w.isLt
  omega

theorem CodeSpace.legal_iff (k : CodeSpace) (lw : Nat) : k.legal lw = true ↔
    2 ≤ lw ∧ lw ≤ 8 ∧ k.clearCode.toNat = 2 ^ lw ∧ k.endCode.toNat = k.clearCode.toNat + 1 ∧
      k.endCode.toNat ≤ k.saveCode.toNat ∧ k.saveCode.toNat ≤ 4096 := by
  simp [CodeSpace.legal, and_assoc]

/-- CLEAR_CODE is between 4 and 256 (00_scope.md R7). -/
theorem CodeSpace.legal_clearCode {k : CodeSpace} {lw : Nat} (h : k.legal lw = true) :
    4 ≤ k.clearCode.toNat ∧ k.clearCode.toNat ≤ 256 := by
  obtain ⟨h1, h2, h3, -⟩ := (k.legal_iff lw).1 h
  rw [h3]
  exact ⟨Nat.pow_le_pow_right (n := 2) (i := 2) (by omega) h1, Nat.pow_le_pow_right (n := 2) (j := 8) (by omega) h2⟩

theorem bytesOfNat_length (n v : Nat) : (bytesOfNat n v).length = n := by
  induction n generalizing v with
  | zero => rfl
  | succ n ih => simp [bytesOfNat, ih]

theorem codesNat_lt (codes : List (Nat × CodeValue)) : codesNat codes < 2 ^ codesBits codes := by
  induction codes with
  | nil => simp [codesNat, codesBits]
  | cons x t ih =>
    obtain ⟨w, c⟩ := x
    simp only [codesNat, codesBits, Nat.pow_add]
    have := Nat.mod_lt c.toNat (Nat.two_pow_pos w)
    calc c.toNat % 2 ^ w + 2 ^ w * codesNat t < 2 ^ w + 2 ^ w * codesNat t := by omega
      _ = 2 ^ w * (codesNat t + 1) := by rw [Nat.mul_add, Nat.mul_one, Nat.add_comm]
      _ ≤ 2 ^ w * 2 ^ codesBits t := Nat.mul_le_mul_left _ ih

end Sys2Proof
end

