-- ==== Sys2Proof/Laws/Loop.lean ====
section
/-! SUPPORT. DECODE as a whole: each pass answers and keeps the invariants, the loop ends inside its bound, and so a DECODE from
a state that meets the invariants answers (40_host_commands.md R107, R111, 43_expansion_and_flush.md R188). -/

namespace Sys2Proof.Machine

/-! ### The arithmetic of a literal width (00_scope.md R7) -/

theorem clearCodeOf_toNat {lw : BitVec 4} (h : lw.toNat ≤ 8) : (clearCodeOf lw).toNat = 2 ^ lw.toNat := by
  rw [clearCodeOf, BitVec.toNat_ofNat, Nat.mod_eq_of_lt]
  calc 2 ^ lw.toNat ≤ 2 ^ 8 := Nat.pow_le_pow_right (by omega) h
    _ < 2 ^ 9 := by norm_num

theorem endCodeOf_toNat {lw : BitVec 4} (h : lw.toNat ≤ 8) : (endCodeOf lw).toNat = 2 ^ lw.toNat + 1 := by
  have h1 := clearCodeOf_toNat h
  have : 2 ^ lw.toNat ≤ 2 ^ 8 := Nat.pow_le_pow_right (by omega) h
  rw [endCodeOf, BitVec.toNat_add, h1]
  have : (1 : BitVec 9).toNat = 1 := rfl
  omega

theorem initialWidth_toNat {lw : BitVec 4} (h : lw.toNat ≤ 8) : (initialWidth lw).toNat = lw.toNat + 1 := by
  rw [initialWidth, BitVec.toNat_add]
  have : (1 : BitVec 4).toNat = 1 := rfl
  omega

theorem legalLiteralWidth_iff (w : BitVec 24) : legalLiteralWidth w = true ↔ 2 ≤ w.toNat ∧ w.toNat ≤ 8 := by
  simp only [legalLiteralWidth, Bool.and_eq_true, decide_eq_true_eq]
  exact Iff.rfl

theorem lt_two_pow_succ {lw : Nat} (h : 2 ≤ lw) : 2 ^ lw + 1 < 2 ^ (lw + 1) := by
  rw [Nat.pow_succ]
  have : 2 ^ 2 ≤ 2 ^ lw := Nat.pow_le_pow_right (by omega) h
  omega

/-! ### FreshStart and CLR -/

/-- The registers of a fresh start (40_host_commands.md R106). -/
theorem State.latchStream_registers {s : State} (h : legalLiteralWidth s.lwReg = true) : s.latchStream.RegistersLegal := by
  rw [legalLiteralWidth_iff] at h
  have hlw : s.latchStream.lw.toNat = s.lwReg.toNat := by
    rw [State.latchStream_lw, BitVec.toNat_setWidth]
    omega
  have h8 : (s.lwReg.setWidth 4).toNat ≤ 8 := by
    rw [State.latchStream_lw] at hlw
    omega
  have hsave : s.latchStream.saveCode.toNat = 2 ^ s.latchStream.lw.toNat + 1 := by
    rw [State.latchStream_saveCode, BitVec.toNat_setWidth, endCodeOf_toNat h8, State.latchStream_lw]
    have hle : 2 ^ (s.lwReg.setWidth 4).toNat ≤ 2 ^ 8 := Nat.pow_le_pow_right (by omega) h8
    rw [Nat.mod_eq_of_lt (by omega)]
  have hend : s.latchStream.endCode.toNat = 2 ^ s.latchStream.lw.toNat + 1 := endCodeOf_toNat h8
  have hclear : s.latchStream.clearCode.toNat = 2 ^ s.latchStream.lw.toNat := clearCodeOf_toNat h8
  have hwidth : s.latchStream.width.toNat = s.latchStream.lw.toNat + 1 := initialWidth_toNat h8
  have hpow : 2 ^ s.latchStream.lw.toNat ≤ 2 ^ 8 := Nat.pow_le_pow_right (by omega) h8
  have hnp : hasPrev s.latchStream = true → False := fun hp => by
    rw [State.hasPrev_iff] at hp
    omega
  refine ⟨by omega, by omega, hclear, by omega, by omega, by omega, by omega, by omega, fun _ => ?_, fun h => by omega,
    fun hp => (hnp hp).elim, fun hp => (hnp hp).elim, ?_, fun _ => ?_, ?_, ?_⟩
  · rw [hsave, hwidth]
    exact lt_two_pow_succ (by omega)
  · simp
  · have : s.latchStream.nbits.toNat = 0 := rfl
    omega
  · simp
  · simp

theorem State.latchStream_table (s : State) (h : legalLiteralWidth s.lwReg = true) : s.latchStream.TableLegal := by
  have hr := State.latchStream_registers h
  intro k hk1 hk2
  have h1 : s.latchStream.saveCode.toNat = s.latchStream.endCode.toNat := by
    rw [State.latchStream_saveCode, State.latchStream_endCode, BitVec.toNat_setWidth]
    have := (endCodeOf (s.lwReg.setWidth 4)).isLt
    omega
  omega

/-- The registers after a CLR code (42_code_semantics.md R152). -/
theorem State.RegistersLegal.clearState {s : State} (h : s.RegistersLegal) (hp : s.phase = .fill) (hn : s.nbits.toNat < 8) :
    s.clearState.RegistersLegal := by
  have hsave : s.clearState.saveCode.toNat = s.endCode.toNat := by
    rw [State.clearState_saveCode, BitVec.toNat_setWidth]
    have := s.endCode.isLt
    omega
  have hwidth : s.clearState.width.toNat = s.lw.toNat + 1 := initialWidth_toNat h.lw_max
  have hend : s.clearState.endCode = s.endCode := rfl
  have hnp : hasPrev s.clearState = true → False := fun hp => by
    rw [State.hasPrev_iff, hend] at hp
    omega
  have hmax := h.save_max
  have hmin := h.save_min
  have hlw := h.lw_max
  refine ⟨h.lw_min, h.lw_max, h.clear_eq, h.end_eq, ?_, ?_, ?_, ?_, fun _ => ?_, fun hf => ?_, fun hp => (hnp hp).elim,
    fun hp => (hnp hp).elim, h.bits_lt, fun _ => ?_, ?_, ?_⟩
  · rw [hwidth]
    exact Nat.le_refl _
  · omega
  · rw [hend]
    omega
  · omega
  · rw [hsave, hwidth, h.end_eq, h.clear_eq]
    exact lt_two_pow_succ h.lw_min
  · have := s.endCode.isLt
    omega
  · rw [State.clearState_nbits]
    omega
  · rw [State.clearState_phase, hp]
    simp
  · rw [State.clearState_phase, hp]
    simp

theorem State.clearState_table (s : State) : s.clearState.TableLegal := by
  intro k hk1 hk2
  rw [State.clearState_saveCode, BitVec.toNat_setWidth, State.clearState_endCode] at *
  have := s.endCode.isLt
  omega

/-! ### Dispatch (30_encoding.md R83, 42_code_semantics.md R150) -/

section
variable {s : State} {c : CodeValue}

theorem dispatchCode_lit (h : c.toNat < s.clearCode.toNat) : dispatchCode c s = execLit c s := by
  simp [dispatchCode, classify, State.codeSpace, h]

theorem dispatchCode_clr (h : c.toNat = s.clearCode.toNat) :
    dispatchCode c s = execClr s := by
  simp [dispatchCode, classify, State.codeSpace, h]

theorem dispatchCode_end (he : s.endCode.toNat = s.clearCode.toNat + 1) (h : c.toNat = s.endCode.toNat) :
    dispatchCode c s = execEndCode s := by
  simp [dispatchCode, classify, State.codeSpace, h, he]

theorem dispatchCode_copy (he : s.endCode.toNat = s.clearCode.toNat + 1) (h : s.endCode.toNat < c.toNat)
    (hs : c.toNat < s.saveCode.toNat) : dispatchCode c s = execCopy c s := by
  have h1 : ¬ c.toNat < s.clearCode.toNat := by omega
  have h2 : ¬ c.toNat = s.clearCode.toNat := by omega
  have h3 : ¬ c.toNat = s.endCode.toNat := by omega
  simp [dispatchCode, classify, State.codeSpace, h1, h2, h3, hs]

theorem dispatchCode_kwkwk (he : s.endCode.toNat = s.clearCode.toNat + 1) (h : s.endCode.toNat < c.toNat)
    (hs : c.toNat = s.saveCode.toNat) : dispatchCode c s = execKwkwk c s := by
  have h1 : ¬ c.toNat < s.clearCode.toNat := by omega
  have h2 : ¬ c.toNat = s.clearCode.toNat := by omega
  have h3 : ¬ c.toNat = s.endCode.toNat := by omega
  have h4 : ¬ c.toNat < s.saveCode.toNat := by omega
  unfold dispatchCode classify
  exact (if_neg h1).trans ((if_neg h2).trans ((if_neg h3).trans ((if_neg h4).trans (if_pos hs))))

theorem dispatchCode_oor (he : s.endCode.toNat = s.clearCode.toNat + 1) (h : s.endCode.toNat < c.toNat)
    (hs : s.saveCode.toNat < c.toNat) : dispatchCode c s = execOor s := by
  have h1 : ¬ c.toNat < s.clearCode.toNat := by omega
  have h2 : ¬ c.toNat = s.clearCode.toNat := by omega
  have h3 : ¬ c.toNat = s.endCode.toNat := by omega
  have h4 : ¬ c.toNat < s.saveCode.toNat := by omega
  have h5 : ¬ c.toNat = s.saveCode.toNat := by omega
  simp [dispatchCode, classify, State.codeSpace, h1, h2, h3, h4, h5]

end

/-! ### COPY and KWKWK -/

/-- The walk of a code the dispatch has classed finds an expansion that fits the stack (43_expansion_and_flush.md R188). -/
theorem walk_ready {s : State} (hr : s.RegistersLegal) (ht : s.TableLegal) {isKwkwk : Bool} {c : CodeValue}
    (hc : s.endCode.toNat < c.toNat)
    (hk : if isKwkwk then c.toNat = s.saveCode.toNat else c.toNat < s.saveCode.toNat) :
    ∃ l, s.exp (walkStart isKwkwk c s).2 = some l ∧ 0 < l.length ∧ l.length ≤ (walkStart isKwkwk c s).1 + 1 := by
  have hmax := hr.save_max
  have hcl := c.isLt
  cases isKwkwk with
  | false =>
    simp only [Bool.false_eq_true, if_false] at hk
    obtain ⟨l, h1, h2, h3⟩ := ht.exp_some hr.end_eq (.inr hc) hk
    exact ⟨l, h1, h2, by simp only [walkStart, Bool.false_eq_true, if_false]; omega⟩
  | true =>
    simp only [if_true] at hk
    have hp : hasPrev s = true := by
      rw [State.hasPrev_iff]
      omega
    have hlt := hr.prev_lt hp
    obtain ⟨l, h1, h2, h3⟩ := ht.exp_some hr.end_eq (hr.prev_ordinary hp) hlt
    exact ⟨l, h1, h2, by simp only [walkStart, if_true]; omega⟩

/-- A walked expansion is a legal pending one. -/
theorem walk_flushLegal {s : State} {isKwkwk : Bool} {c : CodeValue} {l : List Byte} (hc : s.endCode.toNat < c.toNat)
    (hk : if isKwkwk then c.toNat = s.saveCode.toNat else c.toNat < s.saveCode.toNat)
    (h : s.exp (walkStart isKwkwk c s).2 = some l) (hpos : 0 < l.length) (hl : l.length ≤ (walkStart isKwkwk c s).1 + 1)
    {stack : Table 8} {b : Byte} (hb : l.head? = some b)
    (hrun : Table.readRun stack ((walkStart isKwkwk c s).1 + 1 - l.length)
      (4096 - ((walkStart isKwkwk c s).1 + 1 - l.length)) = some (if isKwkwk then l ++ [b] else l)) :
    ((s.setExpansion stack ((walkStart isKwkwk c s).1 + 1 - l.length) b).enterCode c .flush).FlushLegal := by
  have htop : (walkStart isKwkwk c s).1 ≤ 4095 := by
    unfold walkStart
    split <;> simp
  have hss : ((s.setExpansion stack ((walkStart isKwkwk c s).1 + 1 - l.length) b).enterCode c .flush).stackStart.toNat =
      (walkStart isKwkwk c s).1 + 1 - l.length := by
    rw [State.enterCode_stackStart, State.setExpansion_stackStart, BitVec.toNat_ofNat]
    omega
  refine ⟨?_, hc, ?_, if isKwkwk then l ++ [b] else l, ?_, ?_, ?_⟩
  · rw [hss]
    simp
    omega
  · simp only [State.enterCode_code, State.enterCode_saveCode, State.setExpansion_saveCode]
    cases isKwkwk <;> simp at hk <;> omega
  · rw [hss]
    exact hrun
  · unfold State.pending
    cases isKwkwk with
    | false =>
      simp only [Bool.false_eq_true, if_false] at hk ⊢
      rw [if_pos (by simpa using hk)]
      exact h
    | true =>
      simp only [if_true] at hk ⊢
      rw [if_neg (by simp; omega)]
      change (s.exp s.prevCode).bind _ = _
      rw [show s.exp s.prevCode = some l from h]
      simp [hb]
  · cases isKwkwk <;> simp [hb]

/-- COPY and KWKWK of a classed code, after EXTRACT: they answer and keep the invariants. -/
theorem expandStep_keeps {s : State} (hi : s.LoopInv) (hd : s.decoding) (hn : s.nbits.toNat < 8) {isKwkwk : Bool}
    {c : CodeValue} (hc : s.endCode.toNat < c.toNat)
    (hk : if isKwkwk then c.toNat = s.saveCode.toNat else c.toNat < s.saveCode.toNat) :
    ∃ t, expandStep isKwkwk c s = .next t ∧ t.LoopInv ∧ s.PassTo t ∧
      ((s.GoesOn t ∧ t.streamLength = s.streamLength) ∨ t.Ended) := by
  have hr := hi.registers hd
  have ht := hi.table hd
  obtain ⟨l, hl, hpos, hlen⟩ := walk_ready hr ht hc hk
  obtain ⟨stack, b, hw, hb, hrun, -, hwf⟩ := walk_of_exp hl hlen
  unfold expandStep
  rw [hw, Flow.andThen_go]
  have hmem := (Memory.wf_iff _).1 hi.mem_wf
  have hinv : ((s.setExpansion stack ((walkStart isKwkwk c s).1 + 1 - l.length) b).enterCode c .flush).LoopInv := by
    refine ⟨(Memory.wf_iff _).2 ⟨hmem.1, hmem.2.1, hwf hmem.2.2⟩, hi.cursors, fun _ => ?_, fun _ => ht, fun _ _ => ?_⟩
    · exact { hr with nbits_fill := by simp, nbits_emit := fun _ => hn, code_literal := by simp }
    · exact walk_flushLegal hc hk hl hpos hlen hb hrun
  obtain ⟨t, h1, h2, h3, h4⟩ := flushThenUpdate_keeps hinv ⟨hd.1, by simp⟩ rfl
  exact ⟨t, h1, h2, ⟨h3.initDone, h3.lwReg, h3.refusedMark, h3.host, h3.src, h3.dst⟩, h4⟩

/-! ### A pass -/

/-- What a pass of the loop does from a legal state: it answers, keeps the invariants, and either goes on with fewer bits to
decode or ends the command. -/
theorem fillPass_keeps {s : State} (hi : s.LoopInv) (hd : s.decoding) (hp : s.phase = .fill) :
    ∃ t, decodePass s = .next t ∧ t.LoopInv ∧ s.PassTo t ∧
      ((s.GoesOn t ∧ t.streamLength < s.streamLength) ∨ t.Ended) := by
  have hr := hi.registers hd
  have ht := hi.table hd
  unfold decodePass
  rw [hp]
  simp only []
  cases hparse : parseCode s with
  | fault f =>
    exfalso
    unfold parseCode at hparse
    rcases Flow.andThen_eq_fault hparse with h | ⟨_, _, _, h⟩
    · exact fillLoop_no_fault hi.cursors.1 f h
    · cases h
  | stop t =>
    unfold parseCode at hparse
    rcases Flow.andThen_eq_stop hparse with h | ⟨_, _, _, h⟩
    · obtain ⟨r, h1, h2, h3, h4⟩ := fillLoop_stop hi.cursors.1 h
      obtain ⟨a1, -, -⟩ := h4 hr.bits_lt hr.width_max (hr.nbits_fill hp)
      have hrc : r.cursorsLegal := ⟨h1.src_wf hi.cursors.1, by rw [h1.fields]; exact hi.cursors.2⟩
      have hpt : s.PassTo r := by
        rw [h1.fields]
        exact ⟨rfl, rfl, rfl, rfl, h1.src, .refl _⟩
      rcases srcRead_stop h2 with ⟨rfl, -⟩ | ⟨rfl, -⟩
      · refine ⟨_, rfl, ⟨?_, hrc, fun _ => ?_, fun _ => ?_, fun _ hp' => ?_⟩, hpt.trans (State.ret_passTo _ _),
          .inr ⟨rfl, .inr (.inr (.inl ⟨rfl, ?_⟩))⟩⟩
        · rw [State.ret_mem, h1.fields]
          exact hi.mem_wf
        · have hrr : r.RegistersLegal := by
            have hwd : r.width = s.width := by rw [h1.fields]
            rw [h1.fields]
            exact { hr with
              bits_lt := a1
              nbits_fill := fun _ => by
                show r.nbits.toNat < s.width.toNat + 8
                rw [hwd] at h3
                omega
              nbits_emit := fun h => by
                rcases h with h | h <;> (change s.phase = _ at h; rw [hp] at h; cases h)
              code_literal := fun h => by
                change s.phase = _ at h
                rw [hp] at h
                cases h }
          exact { hrr with }
        · have : r.TableLegal := by
            rw [h1.fields]
            exact ht
          exact this
        · rw [State.ret_phase, h1.fields] at hp'
          change s.phase = .flush at hp'
          rw [hp] at hp'
          cases hp'
        · rw [State.ret_phase, h1.fields]
          exact hp
      · exact ⟨_, rfl, State.raise_loopInv rfl hrc, hpt.trans (State.raise_passTo _ _), .inr (State.raise_ended (by simp [decodeError]) _)⟩
    · cases h
  | go u t =>
    obtain ⟨h1, h2, h3, h4⟩ := parseCode_go hi.cursors.1 hparse
    obtain ⟨a1, a2, -, -, a5⟩ := h4 hr.bits_lt hr.width_max (hr.nbits_fill hp)
    have hwmin := hr.width_min
    have hlwmin := hr.lw_min
    have htphase : t.phase = .fill := by
      rw [h1]
      exact hp
    have htd : t.decoding := by
      rw [h1]
      exact hd
    have htr : t.RegistersLegal := by
      rw [h1]
      exact { hr with
        bits_lt := a1
        nbits_fill := fun _ => by
          show t.nbits.toNat < s.width.toNat + 8
          omega
        nbits_emit := fun h => by
          rcases h with h | h <;> (change s.phase = _ at h; rw [hp] at h; cases h)
        code_literal := fun h => by
          change s.phase = _ at h
          rw [hp] at h
          cases h }
    have htt : t.TableLegal := by
      rw [h1]
      exact ht
    have htm : t.mem.wf = true := by
      rw [h1]
      exact hi.mem_wf
    have htc : t.cursorsLegal := ⟨h3, by rw [h1]; exact hi.cursors.2⟩
    have hti : t.LoopInv := ⟨htm, htc, fun _ => htr, fun _ => htt, fun _ h => by rw [htphase] at h; cases h⟩
    have hpt : s.PassTo t := by
      rw [h1]
      exact ⟨rfl, rfl, rfl, rfl, h2, .refl _⟩
    have hon : ∀ v : State, t.GoesOn v → s.GoesOn v := fun v hv => by
      rw [h1] at hv
      exact hv
    have hfin : ∀ v : State, (v.LoopInv ∧ t.PassTo v ∧ ((t.GoesOn v ∧ v.streamLength = t.streamLength) ∨ v.Ended)) →
        v.LoopInv ∧ s.PassTo v ∧ ((s.GoesOn v ∧ v.streamLength < s.streamLength) ∨ v.Ended) := by
      rintro v ⟨b1, b2, b3⟩
      refine ⟨b1, hpt.trans b2, ?_⟩
      rcases b3 with ⟨b3, b4⟩ | b3
      · exact .inl ⟨hon v b3, by omega⟩
      · exact .inr b3
    have hend := htr.end_eq
    show ∃ v, dispatchCode t.code t = .next v ∧ _
    by_cases hlit : t.code.toNat < t.clearCode.toNat
    · rw [dispatchCode_lit hlit]
      have hinv : (t.enterCode t.code .emitLit).LoopInv := by
        refine ⟨htm, htc, fun _ => ?_, fun _ => htt, fun _ h => by cases h⟩
        exact { htr with nbits_fill := by simp, nbits_emit := fun _ => a2, code_literal := fun _ => hlit }
      obtain ⟨v, hv⟩ := literalStep_answers (s := t.enterCode t.code .emitLit) htc.2
      obtain ⟨b1, b2, b3⟩ := literalStep_keeps hinv ⟨htd.1, by simp⟩ rfl hv
      exact ⟨v, hv, hfin v ⟨b1, ⟨b2.initDone, b2.lwReg, b2.refusedMark, b2.host, b2.src, b2.dst⟩, b3⟩⟩
    · by_cases hclr : t.code.toNat = t.clearCode.toNat
      · rw [dispatchCode_clr hclr]
        refine ⟨_, rfl, hfin _ ⟨⟨htm, htc, fun _ => htr.clearState htphase a2, fun _ => t.clearState_table, fun _ h => ?_⟩,
          ⟨rfl, rfl, rfl, rfl, .refl _, .refl _⟩, .inl ⟨⟨rfl, rfl, htphase⟩, rfl⟩⟩⟩
        rw [State.clearState_phase, htphase] at h
        cases h
      · by_cases hendc : t.code.toNat = t.endCode.toNat
        · rw [dispatchCode_end hend hendc]
          refine ⟨_, rfl, hfin _ ⟨⟨htm, htc, fun h => ?_, fun h => ?_, fun h => ?_⟩, ⟨rfl, rfl, rfl, rfl, .refl _, .refl _⟩,
            .inr ⟨rfl, .inr (.inl ⟨rfl, rfl⟩)⟩⟩⟩ <;> exact absurd rfl h.2
        · by_cases hcopy : t.code.toNat < t.saveCode.toNat
          · rw [dispatchCode_copy hend (by omega) hcopy]
            obtain ⟨v, b⟩ := expandStep_keeps hti htd a2 (isKwkwk := false) (c := t.code) (by omega) (by simpa using hcopy)
            exact ⟨v, b.1, hfin v b.2⟩
          · by_cases hkw : t.code.toNat = t.saveCode.toNat
            · rw [dispatchCode_kwkwk hend (by omega) hkw]
              obtain ⟨v, b⟩ := expandStep_keeps hti htd a2 (isKwkwk := true) (c := t.code) (by omega) (by simpa using hkw)
              exact ⟨v, b.1, hfin v b.2⟩
            · rw [dispatchCode_oor hend (by omega) (by omega)]
              exact ⟨_, rfl, hfin _ ⟨State.raise_loopInv rfl htc, State.raise_passTo _ _, .inr (State.raise_ended (by simp [decodeError]) _)⟩⟩

/-- The other passes: the fresh start, and the resumes in EMIT_LIT and FLUSH. -/
theorem otherPass_keeps {s : State} (hi : s.LoopInv) (hd : s.ready) (hp : s.phase ≠ .fill) :
    ∃ t, decodePass s = .next t ∧ t.LoopInv ∧ s.PassTo t ∧
      ((s.GoesOn t ∧ t.streamLength ≤ s.streamLength) ∨ t.Ended ∨ (s.phase = .idle ∧ t = s.raise .badLiteralWidth)) := by
  cases hph : s.phase with
  | idle =>
    unfold decodePass freshStart
    rw [hph]
    simp only []
    split
    · refine ⟨_, rfl, ⟨hi.mem_wf, hi.cursors, fun _ => State.latchStream_registers ‹_›, fun _ => s.latchStream_table ‹_›,
        fun _ h => by cases h⟩, ⟨rfl, rfl, rfl, rfl, .refl _, .refl _⟩, .inl ⟨⟨rfl, rfl, rfl⟩, ?_⟩⟩
      unfold State.streamLength
      simp
    · exact ⟨_, rfl, State.raise_loopInv rfl hi.cursors, State.raise_passTo _ _, .inr (.inl (State.raise_ended (by simp [decodeError]) _))⟩
  | fill => exact absurd hph hp
  | emitLit =>
    obtain ⟨t, ht⟩ := literalStep_answers hi.cursors.2
    obtain ⟨h1, h2, h3⟩ := literalStep_keeps hi ⟨hd, by simp [hph]⟩ hph ht
    refine ⟨t, by unfold decodePass; rw [hph]; exact ht, h1, h2, ?_⟩
    rcases h3 with ⟨h3, h4⟩ | h3
    · exact .inl ⟨h3, by omega⟩
    · exact .inr (.inl h3)
  | flush =>
    obtain ⟨t, h0, h1, h2, h3⟩ := flushThenUpdate_keeps hi ⟨hd, by simp [hph]⟩ hph
    refine ⟨t, by unfold decodePass; rw [hph]; exact h0, h1, h2, ?_⟩
    rcases h3 with ⟨h3, h4⟩ | h3
    · exact .inl ⟨h3, by omega⟩
    · exact .inr (.inl h3)

/-! ### The loop -/

theorem decodeLoop_succ (n : Nat) (s : State) {t : State} (h : decodePass s = .next t) :
    decodeLoop (n + 1) s = if t.response.isSome then .next t else decodeLoop n t := by
  simp [decodeLoop, h]

theorem State.GoesOn.ready {s t : State} (h : s.GoesOn t) (hp : s.PassTo t) (hr : s.ready) : t.ready :=
  ⟨hp.initDone.trans hr.1, by rw [h.2.1]; exact hr.2⟩

/-- From FILL the loop ends in as many passes as there are bits to decode, and one. -/
theorem decodeLoop_fill (n : Nat) {s : State} (hi : s.LoopInv) (hd : s.ready) (hp : s.phase = .fill)
    (hr : s.response = none) (hn : s.streamLength < n) :
    ∃ t, decodeLoop n s = .next t ∧ t.LoopInv ∧ s.PassTo t ∧ t.Ended := by
  induction n generalizing s with
  | zero => omega
  | succ n ih =>
    obtain ⟨t, h1, h2, h3, h4⟩ := fillPass_keeps hi ⟨hd, by simp [hp]⟩ hp
    rw [decodeLoop_succ n s h1]
    rcases h4 with ⟨h4, h5⟩ | h4
    · rw [if_neg (by rw [h4.1, hr]; simp)]
      obtain ⟨u, u1, u2, u3, u4⟩ := ih h2 (h4.ready h3 hd) h4.2.2 (by rw [h4.1, hr]) (by omega)
      exact ⟨u, u1, u2, h3.trans u3, u4⟩
    · rw [if_pos (by rw [h4.1]; rfl)]
      exact ⟨t, rfl, h2, h3, h4⟩

/-- The loop of an accepted DECODE ends inside its bound. -/
theorem decodeLoop_answers {s : State} (hi : s.LoopInv) (hd : s.ready) (hr : s.response = none) :
    ∃ t, decodeLoop (passBound s) s = .next t ∧ t.LoopInv ∧ s.PassTo t ∧ t.Ended := by
  have hb : passBound s = s.streamLength + 2 + 1 := rfl
  by_cases hp : s.phase = .fill
  · exact decodeLoop_fill _ hi hd hp hr (by omega)
  · rw [hb]
    obtain ⟨t, h1, h2, h3, h4⟩ := otherPass_keeps hi hd hp
    rw [decodeLoop_succ _ s h1]
    rcases h4 with ⟨h4, h5⟩ | h4 | ⟨_, h4⟩
    · rw [if_neg (by rw [h4.1, hr]; simp)]
      obtain ⟨u, u1, u2, u3, u4⟩ := decodeLoop_fill (s.streamLength + 2) h2 (h4.ready h3 hd) h4.2.2 (by rw [h4.1, hr]) (by omega)
      exact ⟨u, u1, u2, h3.trans u3, u4⟩
    · rw [if_pos (by rw [h4.1]; rfl)]
      exact ⟨t, rfl, h2, h3, h4⟩
    · subst h4
      exact ⟨_, rfl, h2, h3, State.raise_ended (by simp [decodeError]) _⟩

end Sys2Proof.Machine
end

