-- ==== Sys2Proof/Laws/Frame.lean ====
section
/-! SUPPORT. What the meanings of the codes and DECODE's loop can do from every state, legal or not, and how a flush and an
expansion end when the bytes can be read. -/

namespace Sys2Proof.Machine

/-! ### Frames -/

/-- What a code, a pass and a whole loop leave alone from every state, and how they may move the ports. -/
structure State.KeptTo (s t : State) : Prop where
  initDone : t.initDone = s.initDone
  lwReg : t.lwReg = s.lwReg
  refusedMark : t.refusedMark = s.refusedMark
  host : t.host = s.host
  src : s.src.wf = true → s.src.ReadTo t.src ∧ t.src.wf = true
  dst : s.dst.WrittenTo t.dst

theorem State.KeptTo.refl (s : State) : s.KeptTo s := ⟨rfl, rfl, rfl, rfl, fun h => ⟨.refl _, h⟩, .refl _⟩
theorem State.KeptTo.trans {s t u : State} (h : s.KeptTo t) (h' : t.KeptTo u) : s.KeptTo u :=
  ⟨h'.initDone.trans h.initDone, h'.lwReg.trans h.lwReg, h'.refusedMark.trans h.refusedMark, h'.host.trans h.host,
    fun hw => ⟨(h.src hw).1.trans (h'.src (h.src hw).2).1, (h'.src (h.src hw).2).2⟩, h.dst.trans h'.dst⟩
theorem State.KeptTo.of_eq {s t : State} (a : t.initDone = s.initDone) (b : t.lwReg = s.lwReg)
    (c : t.refusedMark = s.refusedMark) (d : t.host = s.host) (e : t.src = s.src) (f : t.dst = s.dst) : s.KeptTo t :=
  ⟨a, b, c, d, fun h => by rw [e]; exact ⟨.refl _, h⟩, by rw [f]; exact .refl _⟩

theorem literalStep_kept {s t : State} (h : literalStep s = .next t) : s.KeptTo t := by
  rcases literalStep_next h with ⟨_, rfl⟩ | ⟨_, _, rfl⟩ | ⟨_, h2, h3, rfl⟩
  · exact .of_eq rfl rfl rfl rfl rfl rfl
  · exact .of_eq rfl rfl rfl rfl rfl rfl
  · refine ⟨by simp, by simp, by simp, by simp, fun h => by simp only [State.update_src]; exact ⟨.refl _, h⟩, ?_⟩
    simp only [State.update_dst]
    exact DstPort.append_writtenTo (by simpa using h3) (by simp; omega)

/-- The ways the step of FLUSH ends, from every state (43_expansion_and_flush.md R184). -/
theorem flushStep_next {s t : State} (h : flushStep s = .next t) :
    (s.dst.closed = true ∧ t = s.raise .closedForWrites) ∨ ∃ l, s.dst.closed = false ∧
     Table.readRun s.mem.stackTab (tailStart s) (4096 - tailStart s) = some l ∧
     s.dst.wi + min l.length s.dst.space ≤ s.dst.data.length ∧
     (t = ((s.setDst (s.dst.append (copied l s))).addFlushed (min l.length s.dst.space)).ret .shortWrite ∨
     t = ((s.setDst (s.dst.append (copied l s))).addFlushed (min l.length s.dst.space)).update) := by
  unfold flushStep flushThenUpdate flush at h
  rw [show Config.tableSize = 4096 from rfl] at h
  cases hr : Table.readRun s.mem.stackTab (tailStart s) (4096 - tailStart s) with
  | none => rw [hr] at h; cases h
  | some l =>
    rw [hr] at h
    simp only at h
    cases hc : dstCopy l s with
    | fault f => rw [hc] at h; cases h
    | stop u =>
      obtain ⟨a, rfl⟩ := dstCopy_stop hc
      rw [hc] at h
      injection h with h
      exact .inl ⟨a, h.symm⟩
    | go k u =>
      obtain ⟨a, rfl, b, rfl⟩ := dstCopy_go hc
      rw [hc] at h
      refine .inr ⟨l, a, rfl, b, ?_⟩
      simp only [Flow.andThen_go] at h
      split at h
      · injection h with h; exact .inl h.symm
      · injection h with h; exact .inr h.symm

theorem flushStep_kept {s t : State} (h : flushStep s = .next t) : s.KeptTo t := by
  rcases flushStep_next h with ⟨_, rfl⟩ | ⟨l, h1, h2, h3, rfl | rfl⟩
  · exact .of_eq rfl rfl rfl rfl rfl rfl
  · have hcl := copied_length l s
    refine ⟨rfl, rfl, rfl, rfl, fun h => ⟨.refl _, h⟩, ?_⟩
    exact DstPort.append_writtenTo (by omega) (by omega)
  · have hcl := copied_length l s
    refine ⟨by simp, by simp, by simp, by simp, fun h => by simp only [State.update_src]; exact ⟨.refl _, h⟩, ?_⟩
    simp only [State.update_dst]
    exact DstPort.append_writtenTo (by omega) (by omega)

/-- The ways COPY and KWKWK end, from every state (42_code_semantics.md R154, R155). -/
theorem expandStep_next {s t : State} {kw : Bool} {c : CodeValue} (h : expandStep kw c s = .next t) :
    t = s.raise .lzwPrefixChainCyclical ∨ ∃ stack start b, flushStep ((s.setExpansion stack start b).enterCode c .flush) = .next t := by
  unfold expandStep walk at h
  split at h
  · cases h
  · injection h with h; exact .inl h.symm
  · exact .inr ⟨_, _, _, h⟩

theorem expandStep_kept {s t : State} {kw : Bool} {c : CodeValue} (h : expandStep kw c s = .next t) : s.KeptTo t := by
  rcases expandStep_next h with rfl | ⟨_, _, _, h⟩
  · exact .of_eq rfl rfl rfl rfl rfl rfl
  · have := flushStep_kept h
    exact ⟨this.initDone, this.lwReg, this.refusedMark, this.host, this.src, this.dst⟩

theorem dispatch_kept {s t : State} {c : CodeValue} (h : dispatchCode c s = .next t) : s.KeptTo t := by
  unfold dispatchCode classify at h
  repeat' split at h
  · have := literalStep_kept h
    exact ⟨this.initDone, this.lwReg, this.refusedMark, this.host, this.src, this.dst⟩
  · injection h with h; subst h; exact .of_eq rfl rfl rfl rfl rfl rfl
  · injection h with h; subst h; exact .of_eq rfl rfl rfl rfl rfl rfl
  · exact expandStep_kept h
  · exact expandStep_kept h
  · injection h with h; subst h; exact .of_eq rfl rfl rfl rfl rfl rfl

/-- What FILL's loop leaves alone from every state. -/
structure State.FillKept (s t : State) : Prop where
  k : t.initDone = s.initDone ∧ t.lwReg = s.lwReg ∧ t.refusedMark = s.refusedMark ∧ t.host = s.host
  d : t.dst = s.dst

theorem fillLoop_kept (n : Nat) {s : State} : (∀ u t, fillLoop n s = .go u t → s.FillKept t ∧ t.status = s.status) ∧ (∀ t, fillLoop n s = .stop t → s.FillKept t) := by
  induction n generalizing s with
  | zero => exact ⟨fun u t h => by injection h with _ h; subst h; exact ⟨⟨⟨rfl, rfl, rfl, rfl⟩, rfl⟩, rfl⟩, fun t h => by cases h⟩
  | succ n ih =>
    simp only [fillLoop]
    split
    · constructor
      · intro u t h
        obtain ⟨b, r, hr, hf⟩ := Flow.andThen_eq_go h
        obtain ⟨_, _, _, rfl⟩ := srcRead_go hr
        obtain ⟨⟨⟨a, b, c, d⟩, e⟩, f⟩ := ih.1 u t hf
        exact ⟨⟨⟨a, b, c, d⟩, e⟩, f⟩
      · intro t h
        rcases Flow.andThen_eq_stop h with h | ⟨b, r, hr, hf⟩
        · rcases srcRead_stop h with ⟨rfl, _⟩ | ⟨rfl, _⟩ <;> exact ⟨⟨rfl, rfl, rfl, rfl⟩, rfl⟩
        · obtain ⟨_, _, _, rfl⟩ := srcRead_go hr
          obtain ⟨⟨a, b, c, d⟩, e⟩ := ih.2 t hf
          exact ⟨⟨a, b, c, d⟩, e⟩
    · exact ⟨fun u t h => by injection h with _ h; subst h; exact ⟨⟨⟨rfl, rfl, rfl, rfl⟩, rfl⟩, rfl⟩, fun t h => by cases h⟩

theorem decodePass_kept {s t : State} (h : decodePass s = .next t) :
    (t.initDone = s.initDone ∧ t.lwReg = s.lwReg ∧ t.refusedMark = s.refusedMark ∧ t.host = s.host) ∧ (s.src.wf = true → s.KeptTo t) := by
  unfold decodePass at h
  split at h
  · injection h with h
    subst h
    unfold freshStart
    split
    · exact ⟨⟨rfl, rfl, rfl, rfl⟩, fun _ => .of_eq rfl rfl rfl rfl rfl rfl⟩
    · exact ⟨⟨rfl, rfl, rfl, rfl⟩, fun _ => .of_eq rfl rfl rfl rfl rfl rfl⟩
  · split at h
    · rename_i r hp
      have hd := dispatch_kept h
      have hp' := hp
      unfold parseCode at hp
      obtain ⟨_, v, hv, he⟩ := Flow.andThen_eq_go hp
      injection he with _ he
      subst he
      obtain ⟨⟨⟨a, b, c, d⟩, e⟩, f⟩ := (fillLoop_kept 2).1 _ _ hv
      refine ⟨⟨hd.initDone.trans a, hd.lwReg.trans b, hd.refusedMark.trans c, hd.host.trans d⟩, fun hw => ?_⟩
      obtain ⟨h1, h2, h3, -⟩ := parseCode_go hw hp'
      refine State.KeptTo.trans (t := v.extract) ⟨a, b, c, d, fun _ => ⟨h2, h3⟩, ?_⟩ hd
      rw [h1]; exact .refl _
    · rename_i r hp
      injection h with h
      subst h
      unfold parseCode at hp
      rcases Flow.andThen_eq_stop hp with hp | ⟨_, _, _, hp⟩
      · obtain ⟨⟨a, b, c, d⟩, e⟩ := (fillLoop_kept 2).2 _ hp
        refine ⟨⟨a, b, c, d⟩, fun hw => ⟨a, b, c, d, fun _ => ?_, by rw [e]; exact .refl _⟩⟩
        obtain ⟨r, h1, h2, -⟩ := fillLoop_stop hw hp
        rcases srcRead_stop h2 with ⟨rfl, -⟩ | ⟨rfl, -⟩
        · exact ⟨h1.src, h1.src_wf hw⟩
        · exact ⟨h1.src, h1.src_wf hw⟩
      · cases hp
    · cases h
  · have := literalStep_kept h
    exact ⟨⟨this.initDone, this.lwReg, this.refusedMark, this.host⟩, fun _ => this⟩
  · have := flushStep_kept h
    exact ⟨⟨this.initDone, this.lwReg, this.refusedMark, this.host⟩, fun _ => this⟩

theorem decodeLoop_kept {n : Nat} {s t : State} (h : decodeLoop n s = .next t) :
    (t.initDone = s.initDone ∧ t.lwReg = s.lwReg ∧ t.refusedMark = s.refusedMark ∧ t.host = s.host) ∧ (s.src.wf = true → s.KeptTo t) := by
  induction n generalizing s with
  | zero => cases h
  | succ n ih =>
    simp only [decodeLoop] at h
    split at h
    · rename_i u hu
      obtain ⟨⟨a, b, c, d⟩, e⟩ := decodePass_kept hu
      split at h
      · injection h with h
        subst h
        exact ⟨⟨a, b, c, d⟩, e⟩
      · obtain ⟨⟨a', b', c', d'⟩, e'⟩ := ih h
        refine ⟨⟨a'.trans a, b'.trans b, c'.trans c, d'.trans d⟩, fun hw => ?_⟩
        have := e hw
        exact this.trans (e' (this.src hw).2)
    · cases h
    · cases h

/-! ### Flush and expansion with their bytes at hand -/

/-- The step of FLUSH on an open destination, with its tail at hand: the whole tail and Update, or what fits and short-write
(43_expansion_and_flush.md R184). -/
theorem flushStep_of_open {s : State} {l : List Byte} (hw : s.dst.wf = true) (ho : s.dst.closed = false)
    (hl : Table.readRun s.mem.stackTab (tailStart s) (4096 - tailStart s) = some l) (hle : tailStart s ≤ 4096) :
    flushStep s = if l.length ≤ s.dst.space then
        .next (State.update { s with flushed := BitVec.ofNat 13 (4096 - s.stackStart.toNat), dst := s.dst.append l })
      else
        .next { s with
          flushed := BitVec.ofNat 13 (s.flushed.toNat + s.dst.space), dst := s.dst.append (l.take s.dst.space)
          status := .shortWrite, response := some .shortWrite } := by
  have hlen := ((Table.readRun_eq_some_iff _ _ _ _).1 hl).1
  rw [flushStep_eq, flushThenUpdate_cases hw hl, if_neg (by simp [ho])]
  unfold tailStart at hlen hle
  have hss := s.stackStart.isLt
  have hfl : (s.addFlushed (min l.length s.dst.space)).flushed = BitVec.ofNat 13 (s.flushed.toNat + min l.length s.dst.space) := by
    rw [State.addFlushed_flushed]
    apply BitVec.eq_of_toNat_eq
    rw [BitVec.toNat_add, BitVec.toNat_ofNat, BitVec.toNat_ofNat]; omega
  have hfl2 : (s.addFlushed (min l.length s.dst.space)).flushed.toNat = s.flushed.toNat + min l.length s.dst.space := by
    rw [hfl, BitVec.toNat_ofNat]; omega
  by_cases hfit : l.length ≤ s.dst.space
  · rw [if_neg (by rw [hfl2, Nat.min_eq_left hfit]; omega), if_pos hfit]
    have hc : copied l s = l := by unfold copied; rw [Nat.min_eq_left hfit, List.take_length]
    rw [hc]
    show Host.Outcome.next _ = _
    congr 2
    have e : s.flushed + BitVec.ofNat 13 (min l.length s.dst.space) = BitVec.ofNat 13 (4096 - s.stackStart.toNat) := by
      rw [← State.addFlushed_flushed, hfl, Nat.min_eq_left hfit]; congr 1; omega
    unfold State.addFlushed State.setDst
    simp only [e]
  · rw [if_pos (by rw [hfl2, Nat.min_eq_right (by omega)]; omega), if_neg hfit]
    have hc : copied l s = l.take s.dst.space := by unfold copied; rw [Nat.min_eq_right (by omega)]
    rw [hc]
    have e : s.flushed + BitVec.ofNat 13 (min l.length s.dst.space) = BitVec.ofNat 13 (s.flushed.toNat + s.dst.space) := by
      rw [← State.addFlushed_flushed, hfl, Nat.min_eq_right (by omega)]
    show Host.Outcome.next _ = _
    congr 1
    unfold State.addFlushed State.setDst State.ret
    simp only [e]

/-- Update sets PHASE, so it does not matter what it was. -/
theorem State.update_setPhase (a : State) (p : Phase) : ({a with phase := p} : State).update = a.update := by
    unfold State.update hasPrev
    show (if a.saveCode.toNat ≤ 4095 then _ else _) = _
    split
    · split <;> rfl
    · rfl

/-- COPY and KWKWK of a code whose chain has an expansion are the flush of it (43_expansion_and_flush.md R180, R183). -/
theorem expandStep_of_exp {kw : Bool} {c : CodeValue} {s : State} {l : List Byte} (h : s.exp (walkStart kw c s).2 = some l) (hl : l.length ≤ (walkStart kw c s).1 + 1) :
   ∃ stack b, expandStep kw c s = flushStep ((s.setExpansion stack ((walkStart kw c s).1 + 1 - l.length) b).enterCode c .flush) ∧ l.head? = some b ∧
     Table.readRun stack ((walkStart kw c s).1 + 1 - l.length) (4096 - ((walkStart kw c s).1 + 1 - l.length)) = some (if kw then l ++ [b] else l) ∧
      (∀ j, j < (walkStart kw c s).1 + 1 - l.length → Table.read stack j = Table.read s.mem.stackTab j) := by
  obtain ⟨stack, b, h1, h2, h3, h4, -⟩ := walk_of_exp h hl
  exact ⟨stack, b, by unfold expandStep; rw [h1]; rfl, h2, h3, h4⟩

/-! ### DECODE -/

/-- A code decoded against the registers runs as the dispatch says (42_code_semantics.md R150). -/
theorem exec_decodeCode (s : State) (c : CodeValue) : exec (decodeCode s.codeSpace c) s = dispatchCode c s := by
  unfold decodeCode dispatchCode classify
  repeat' split
  all_goals rfl

/-- A loop that answers answers the same with more passes allowed. -/
theorem decodeLoop_mono {n m : Nat} {s t : State} (h : decodeLoop n s = .next t) (hm : n ≤ m) : decodeLoop m s = .next t := by
  induction n generalizing s m with
  | zero => cases h
  | succ n ih =>
    obtain ⟨m, rfl⟩ : ∃ k, m = k + 1 := ⟨m - 1, by omega⟩
    simp only [decodeLoop] at h ⊢
    split at h
    · split at h
      · simp [*]
      · rw [if_neg ‹_›]; exact ih h (by omega)
    · cases h
    · cases h

/-- An accepted DECODE is its loop (40_host_commands.md R103). -/
theorem exec_decode_of_accepted {s : State} (hp : s.portsAccepted) (hr : s.ready) : exec .decode s = decodeLoop (passBound s) s.beginCommand := by
  show execDecode s = _
  unfold execDecode
  rw [if_neg (by simp [hr.1]), if_neg (by simp [hr.2]), if_neg (by simp [hp.1.1, hp.1.2]), if_neg (by simp [hp.2])]

theorem State.LoopInv.beginCommand {s : State} (hi : s.LoopInv) : s.beginCommand.LoopInv :=
  ⟨hi.mem_wf, hi.cursors, fun h => { hi.registers h with }, hi.table, fun h1 h2 => { hi.flush h1 h2 with }⟩

/-- A read Cursor lies where it lay. -/
theorem SrcPort.ReadTo.unmoved {p q : SrcPort} (h : p.ReadTo q) :
    q.base = p.base ∧ q.data = p.data ∧ q.wi = p.wi ∧ q.closed = p.closed := by
  rw [h.fields]
  exact ⟨rfl, rfl, rfl, rfl⟩

/-- A written Cursor lies where it lay. -/
theorem DstPort.WrittenTo.unmoved {p q : DstPort} (h : p.WrittenTo q) :
    q.base = p.base ∧ q.data.length = p.data.length ∧ q.len = p.len ∧ q.closed = p.closed := by
  refine ⟨?_, h.length_eq, ?_, ?_⟩ <;> rw [h.fields]

theorem State.PassTo.portsAccepted {s t : State} (h : s.PassTo t) (hl : t.LoopInv) (hp : s.portsAccepted) : t.portsAccepted := by
  obtain ⟨a1, a2, -⟩ := h.src.unmoved
  obtain ⟨b1, b2, -⟩ := h.dst.unmoved
  refine ⟨hl.cursors, ?_⟩
  have := hp.2
  unfold arraysOverlap at this ⊢
  rw [a1, a2, b1, b2]; exact this

end Sys2Proof.Machine
end

