-- ==== Sys2Proof/Laws/PerInstr.lean ====
section
/-! SUPPORT. Per-instruction facts: the condition of an instruction's class in a legal code space implies its own
well-formedness (30_encoding.md R83, R84). -/

namespace Sys2Proof.Laws

/-- An instruction in its class, for some literal width, is well formed on its own. -/
def WfInImpliesWf.Statement (i : Instr) : Prop :=
  ∀ (lw : Nat) (k : CodeSpace), k.legal lw = true → i.wfIn k = true → i.wf = true

theorem WfInImpliesWf.init : WfInImpliesWf.Statement .init := fun _ _ _ _ => rfl

theorem WfInImpliesWf.setLiteralWidth (w : BitVec 24) : WfInImpliesWf.Statement (.setLiteralWidth w) := fun _ _ _ _ => rfl

theorem WfInImpliesWf.decode : WfInImpliesWf.Statement .decode := fun _ _ _ _ => rfl

theorem WfInImpliesWf.lit (c : CodeValue) : WfInImpliesWf.Statement (.lit c) := by
  intro lw k hk h
  have := CodeSpace.legal_clearCode hk
  simp only [Instr.wfIn, Instr.wf, decide_eq_true_eq] at h ⊢
  omega

theorem WfInImpliesWf.clr : WfInImpliesWf.Statement .clr := fun _ _ _ _ => rfl

theorem WfInImpliesWf.endCode : WfInImpliesWf.Statement .endCode := fun _ _ _ _ => rfl

theorem WfInImpliesWf.copy (c : CodeValue) : WfInImpliesWf.Statement (.copy c) := by
  intro lw k hk h
  have := CodeSpace.legal_clearCode hk
  have := (k.legal_iff lw).1 hk
  simp only [Instr.wfIn, Instr.wf, Bool.and_eq_true, decide_eq_true_eq] at h ⊢
  omega

theorem WfInImpliesWf.kwkwk (c : CodeValue) : WfInImpliesWf.Statement (.kwkwk c) := by
  intro lw k hk h
  have := CodeSpace.legal_clearCode hk
  have := (k.legal_iff lw).1 hk
  simp only [Instr.wfIn, Instr.wf, Bool.and_eq_true, decide_eq_true_eq] at h ⊢
  omega

theorem WfInImpliesWf.oor (c : CodeValue) : WfInImpliesWf.Statement (.oor c) := by
  intro lw k hk h
  have := CodeSpace.legal_clearCode hk
  have := (k.legal_iff lw).1 hk
  simp only [Instr.wfIn, Instr.wf, decide_eq_true_eq] at h ⊢
  omega

end Sys2Proof.Laws
end

