-- ==== Sys2Proof/Tests/Slice0.lean ====
section
/-! SUPPORT. The model's own tests: ill-formed instructions, words and codes written out from 30_encoding.md, steps from the
vectors of 95_test_vectors.md, and a witness for the hypotheses of each statement of Certificates/Slice0/Obligations.lean. -/

namespace Sys2Proof.Tests

-- One after another: each `decide +kernel` below waits for the kernel, and many waiting at once take a thread each.
set_option Elab.async false

open Sys2Proof.Machine

/-! ### Small states -/

/-- An open source at host address 0. -/
def srcOf (bytes : List Byte) : SrcPort :=
  { base := 0, data := bytes, ri := 0, wi := bytes.length, closed := false, limits := [] }

/-- An open, empty destination of `n` bytes, away from the sources. -/
def dstOf (n : Nat) : DstPort :=
  { base := 4096, data := List.replicate n 0, wi := 0, len := n, closed := false, limits := [] }

/-- After `INIT; SETLW lw`, with the two Cursors presented. -/
def idle (lw : BitVec 24) (p : SrcPort) (q : DstPort) : State :=
  { State.reset with initDone := true, lwReg := lw, src := p, dst := q }

/-- The same after a fresh start: PHASE = FILL, the cleared state. -/
def fresh (lw : BitVec 24) (p : SrcPort) (q : DstPort) : State := (idle lw p q).latchStream

/-- The same with entry 6 = (prefix 1, suffix 1) made, SAVE_CODE = 7 and PREV_CODE = 6 (the example of R154). -/
def entry6 (p : SrcPort) (q : DstPort) : State :=
  { fresh 2 p q with
    saveCode := 7, prevCode := 6
    mem := { prefixTab := [(6, 1)], suffixTab := [(6, 1)], stackTab := [] } }

/-- The same with a chain that links to itself (95_test_vectors.md T-CY1 and T-CY3). -/
def selfLinked : State :=
  { entry6 (srcOf []) (dstOf 4) with
    mem := { prefixTab := [(6, 6)], suffixTab := [(6, 2)], stackTab := [] } }

/-- The same with two entries that link to each other (95_test_vectors.md T-CY2). -/
def twoLinked : State :=
  { entry6 (srcOf []) (dstOf 4) with
    saveCode := 8, width := 4, prevCode := 1
    mem := { prefixTab := [(6, 7), (7, 6)], suffixTab := [(6, 1), (7, 2)], stackTab := [] } }

/-- The bytes written so far. -/
def out (s : State) : List Byte := s.dst.data.take s.dst.wi

/-- The state an outcome carries. -/
def nextOf (o : Host.Outcome State Fault Refusal) (s : State) : State :=
  match o with
  | .next t => t
  | _ => s

/-- The outcome is a next state of which `p` holds. -/
def answers (o : Host.Outcome State Fault Refusal) (p : State → Bool) : Bool :=
  match o with
  | .next t => p t
  | _ => false

theorem eq_of_answers {o : Host.Outcome State Fault Refusal} {p : State → Bool} (s : State) (h : answers o p = true) :
    o = .next (nextOf o s) ∧ p (nextOf o s) = true := by
  cases o <;> simp_all [answers, nextOf]

theorem exists_of_answers {o : Host.Outcome State Fault Refusal} {p : State → Bool} (h : answers o p = true) :
    ∃ t, o = .next t ∧ p t = true := ⟨_, eq_of_answers State.reset h⟩

/-- What the parser yields. -/
def parsed (s : State) : State :=
  match parseCode s with
  | .go _ t => t
  | _ => s

def parses (s : State) : Bool :=
  match parseCode s with
  | .go _ _ => true
  | _ => false

theorem parseCode_of_parses {s : State} (h : parses s = true) : parseCode s = .go () (parsed s) := by
  unfold parses at h
  unfold parsed
  split at h
  · rename_i u t heq
    rw [heq]
  · cases h

/-- The command ended with `o`, having written `bytes` and consumed `n` source bytes. -/
def ended (o : Status) (bytes : List Byte) (n : Nat) (s : State) : Bool :=
  decide (s.response = some o) && decide (out s = bytes) && decide (s.src.ri = n)

/-- An idle initialized state meets the loop's invariant. -/
theorem idle_loopInv {lw : BitVec 24} {p : SrcPort} {q : DstPort} (hp : p.wf = true) (hq : q.wf = true) :
    (idle lw p q).LoopInv := by
  have hd : ¬ (idle lw p q).decoding := fun h => h.2 rfl
  exact ⟨rfl, ⟨hp, hq⟩, fun h => absurd h hd, fun h => absurd h hd, fun h => absurd h hd⟩

theorem idle_inv {lw : BitVec 24} {p : SrcPort} {q : DstPort} (hp : p.wf = true) (hq : q.wf = true) :
    (idle lw p q).Inv :=
  ⟨idle_loopInv hp hq, fun _ => ⟨fun _ => rfl, by simp [idle, State.reset], by simp [idle, State.reset]⟩⟩

/-- So does a fresh start. -/
theorem fresh_loopInv {lw : BitVec 24} {p : SrcPort} {q : DstPort} (hl : legalLiteralWidth lw = true) (hp : p.wf = true)
    (hq : q.wf = true) : (fresh lw p q).LoopInv :=
  ⟨rfl, ⟨hp, hq⟩, fun _ => State.latchStream_registers hl, fun _ => State.latchStream_table _ hl, fun _ h => by cases h⟩

theorem fresh_decoding {lw : BitVec 24} {p : SrcPort} {q : DstPort} : (fresh lw p q).decoding :=
  ⟨⟨rfl, show isError .ok = false from rfl⟩, fun h => by cases h⟩

/-! ### Well-formedness: each check refuses an ill-formed term -/

theorem test_wf_lit : Instr.wf (.lit 255) = true ∧ Instr.wf (.lit 256) = false := by decide
theorem test_wf_copy : Instr.wf (.copy 6) = true ∧ Instr.wf (.copy 5) = false := by decide
theorem test_wf_kwkwk : Instr.wf (.kwkwk 6) = true ∧ Instr.wf (.kwkwk 5) = false := by decide
theorem test_wf_oor : Instr.wf (.oor 6) = true ∧ Instr.wf (.oor 5) = false := by decide

/-- LW = 2 with two entries made: CLEAR_CODE 4, END_CODE 5, SAVE_CODE 7. -/
def space2 : CodeSpace := { clearCode := 4, endCode := 5, saveCode := 7 }

/-- LW = 8 with a full table. -/
def space8 : CodeSpace := { clearCode := 256, endCode := 257, saveCode := 4096 }

theorem test_wfIn_lit : Instr.wfIn space2 (.lit 3) = true ∧ Instr.wfIn space2 (.lit 4) = false := by decide
theorem test_wfIn_copy : Instr.wfIn space2 (.copy 6) = true ∧ Instr.wfIn space2 (.copy 5) = false ∧
    Instr.wfIn space2 (.copy 7) = false := by decide
theorem test_wfIn_kwkwk : Instr.wfIn space2 (.kwkwk 7) = true ∧ Instr.wfIn space2 (.kwkwk 6) = false ∧
    Instr.wfIn { space2 with saveCode := 5 } (.kwkwk 5) = false := by decide
theorem test_wfIn_oor : Instr.wfIn space2 (.oor 8) = true ∧ Instr.wfIn space2 (.oor 7) = false := by decide
theorem test_legal : space2.legal 2 = true ∧ space8.legal 8 = true ∧
    CodeSpace.legal { clearCode := 2, endCode := 3, saveCode := 3 } 1 = false ∧
    CodeSpace.legal { clearCode := 0, endCode := 1, saveCode := 1 } 9 = false ∧
    CodeSpace.legal { space2 with clearCode := 3 } 2 = false ∧ CodeSpace.legal { space2 with endCode := 6 } 2 = false ∧
    CodeSpace.legal { space2 with saveCode := 4 } 2 = false ∧ CodeSpace.legal { space2 with saveCode := 4097 } 2 = false := by
  decide

/-! ### Words and codes written out from 30_encoding.md -/

/-- R88, R89: INIT is opcode 0x01 with arg 0. -/
theorem test_decode_init : decodeCommand 0b00000000000000000000000000000001 = .ok .init := by decide
/-- R88, R89: SET_LITERAL_WIDTH w is opcode 0x02 with arg w; 8 and the largest w. -/
theorem test_decode_setLiteralWidth :
    decodeCommand 0b00000000000000000000100000000010 = .ok (.setLiteralWidth 8) ∧
      decodeCommand 0b11111111111111111111111100000010 = .ok (.setLiteralWidth 0xFFFFFF) := by decide
/-- R88, R89: DECODE is opcode 0x03 with arg 0. -/
theorem test_decode_decode : decodeCommand 0b00000000000000000000000000000011 = .ok .decode := by decide
/-- R89, 95_test_vectors.md T-C14 and T-C15. -/
theorem test_decode_refused :
    decodeCommand 0x00000000 = .error .reservedOpcode ∧ decodeCommand 0x00000004 = .error .reservedOpcode ∧
      decodeCommand 0x000000FF = .error .reservedOpcode ∧ decodeCommand 0x00000101 = .error .nonzeroArg ∧
      decodeCommand 0x00000103 = .error .nonzeroArg := by decide
/-- R83, R84 at LW = 2, SAVE_CODE = 7: the code values of each class, at the borders. -/
theorem test_decode_codes :
    decodeCode space2 0b000 = .lit 0 ∧ decodeCode space2 0b011 = .lit 3 ∧ decodeCode space2 0b100 = .clr ∧
      decodeCode space2 0b101 = .endCode ∧ decodeCode space2 0b110 = .copy 6 ∧ decodeCode space2 0b111 = .kwkwk 7 ∧
      decodeCode space2 0b1000 = .oor 8 := by decide
/-- R83, R84 at LW = 8: CLEAR_CODE 256 and END_CODE 257 at width 9, and no OOR with a full table. -/
theorem test_decode_codes8 :
    decodeCode space8 0b011111111 = .lit 255 ∧ decodeCode space8 0b100000000 = .clr ∧
      decodeCode space8 0b100000001 = .endCode ∧ decodeCode space8 0b100000010 = .copy 258 ∧
      decodeCode space8 0b111111111111 = .copy 4095 := by decide
/-- R83: right after a clear END_CODE is END, not KWKWK. -/
theorem test_decode_end_first : decodeCode { space2 with saveCode := 5 } 5 = .endCode := by decide
/-- R93, and the stream of 41_bitstream_parser.md R135. -/
theorem test_pack : packCodes [(3, 4), (3, 0), (3, 5)] = [0x44, 0x01] ∧
    packCodes [(3, 4), (3, 1), (3, 6), (3, 6), (4, 7), (4, 5)] = [0x8C, 0x7D, 0x05] := by decide
/-- R91: the hex column. -/
theorem test_outcome_codes : Status.code .lzwPrefixChainCyclical = 0xF1 ∧ Status.code .badLiteralWidth = 0xF5 ∧
    Status.ofCode 0xF9 = some .unexpectedEof ∧ Status.ofCode 0x03 = none := by decide
/-- 10_state.md R30. -/
theorem test_phase_codes : Phase.ofCode 2 = .emitLit ∧ Phase.code .flush = 3 := by decide
/-- `SETLW 2` of 95_test_vectors.md section 3; bits above the row's are zero. -/
theorem test_decodeTableWord : decodeTableWord 32 0x00000202 = some (.setLiteralWidth 2) ∧
    decodeTableWord 8 0x02 = some (.setLiteralWidth 0) ∧ decodeTableWord 40 0x01 = none := by decide

/-! ### One step each -/

/-- T-C3, run by step as the first instruction after reset. -/
theorem test_init : answers (step (State.reset.withFetchWord 32 1))
    (fun t => t.initDone && decide (t.response = some .ok) && decide (t.lwReg = 0) && decide (t.phase = .idle)) = true := by
  decide +kernel

/-- T-C2: before INIT. -/
theorem test_setLiteralWidth_uninitialized : answers (step (State.reset.withFetchWord 32 0x202))
    (fun t => decide (t.response = some .initializerNotCalled) && decide (t.lwReg = 0)) = true := by
  decide +kernel

/-- T-C6, w = 9: pinned at the setter. -/
theorem test_setLiteralWidth_illegal : answers (exec (.setLiteralWidth 9) (idle 0 (srcOf []) (dstOf 0)))
    (fun t => decide (t.response = some .badLiteralWidth) && decide (t.status = .badLiteralWidth)) = true := by
  decide +kernel

/-- T-K1: the whole stream in one DECODE. -/
theorem test_decode_K1 : answers (exec .decode (idle 2 (srcOf [0x8C, 0x7D, 0x05]) (dstOf 100)))
    (fun t => ended .ok [1, 1, 1, 1, 1, 1, 1, 1] 3 t && decide (t.saveCode = 9) && decide (t.width = 4) &&
      decide (t.prevCode = 7) && decide (t.nbits = 4)) = true := by
  decide +kernel

/-- T-CLR1: CLR in mid-stream, then KWKWK again. -/
theorem test_decode_CLR1 : answers (exec .decode (idle 2 (srcOf [0x8C, 0x4C, 0x73, 0x01]) (dstOf 100)))
    (fun t => ended .ok [1, 2, 1, 2, 3, 3, 3] 4 t && decide (t.saveCode = 7) && decide (t.width = 3)) = true := by
  decide +kernel

/-- The example of 42_code_semantics.md R151. -/
theorem test_lit : answers (exec (.lit 1) (fresh 2 (srcOf []) (dstOf 4)))
    (fun t => decide (out t = [1]) && decide (t.saveCode = 6) && decide (t.prevCode = 1) && decide (t.mem = Memory.unwritten) &&
      decide (t.phase = .fill)) = true := by
  decide +kernel

/-- T-F2 (1): a literal without space. -/
theorem test_lit_no_space : answers (exec (.lit 3) (fresh 2 (srcOf []) (dstOf 0)))
    (fun t => ended .shortWrite [] 0 t && decide (t.phase = .emitLit) && decide (t.code = 3)) = true := by
  decide +kernel

/-- The example of 42_code_semantics.md R152. -/
theorem test_clr : answers (exec .clr { entry6 (srcOf []) (dstOf 4) with saveCode := 4096, width := 12 })
    (fun t => decide (t.saveCode = 5) && decide (t.width = 3) && decide (t.prevCode = 0) &&
      decide (t.mem.prefixTab = [(6, 1)])) = true := by
  decide +kernel

/-- T-END1. -/
theorem test_end : answers (exec .decode (idle 2 (srcOf [0x05, 0xFF]) (dstOf 4)))
    (fun t => ended .ok [] 1 t && decide (t.phase = .idle)) = true := by
  decide +kernel

/-- The example of 42_code_semantics.md R154: 01 01, entry 7, and WIDTH grows to 4. -/
theorem test_copy : answers (exec (.copy 6) (entry6 (srcOf []) (dstOf 4)))
    (fun t => decide (out t = [1, 1]) && decide (t.mem.prefixTab = [(6, 1), (7, 6)]) &&
      decide (t.mem.suffixTab = [(6, 1), (7, 1)]) && decide (t.saveCode = 8) && decide (t.width = 4)) = true := by
  decide +kernel

/-- T-CY1: the cycle check. -/
theorem test_copy_cyclical : answers (exec (.copy 6) selfLinked) (ended .lzwPrefixChainCyclical [] 0) = true := by
  decide +kernel

/-- The example of 42_code_semantics.md R155. -/
theorem test_kwkwk : answers (exec (.kwkwk 6) { fresh 2 (srcOf []) (dstOf 4) with saveCode := 6, prevCode := 1 })
    (fun t => decide (out t = [1, 1]) && decide (t.mem.prefixTab = [(6, 1)]) && decide (t.mem.suffixTab = [(6, 1)]) &&
      decide (t.saveCode = 7)) = true := by
  decide +kernel

/-- The flush example of 43_expansion_and_flush.md R184, for KWKWK: what fits is written. -/
theorem test_kwkwk_partial : answers (exec (.kwkwk 6) { fresh 2 (srcOf []) (dstOf 1) with saveCode := 6, prevCode := 3 })
    (fun t => ended .shortWrite [3] 0 t && decide (t.phase = .flush) && decide (t.stackStart = 4094) &&
      decide (t.flushed = 1) && decide (t.saveCode = 6)) = true := by
  decide +kernel

/-- T-OOR2. -/
theorem test_oor : answers (exec .decode (idle 2 (srcOf [0xCC, 0x01]) (dstOf 4))) (ended .lzwCodeOutOfRange [1] 2) = true := by
  decide +kernel

/-- T-P5: the limit test comes first. -/
theorem test_limit_first : answers (exec .decode (idle 2 { srcOf [] with closed := true, limits := [0] } (dstOf 4)))
    (ended .shortRead [] 0) = true := by
  decide +kernel

/-- T-F5: the closed test precedes the space test. -/
theorem test_closed_first : answers (exec .decode (idle 2 (srcOf [0x8C]) { dstOf 0 with closed := true }))
    (ended .closedForWrites [] 1) = true := by
  decide +kernel

/-- T-C14: a reserved opcode sets the mark, and no response is sent. -/
theorem test_refused_word : answers (step (State.reset.withFetchWord 32 0x04))
    (fun t => decide (t.refusedMark = some (.commandWord .reservedOpcode)) && decide (t.response = none)) = true := by
  decide +kernel

/-- 70_reset_and_hazards.md R244: a source must not be reopened, nor appended to once closed. -/
theorem test_host_refused :
    srcChangeAllowed { srcOf [1] with closed := true } (srcOf [1]) = false ∧
      srcChangeAllowed { srcOf [1, 2] with closed := true, wi := 1 } { srcOf [1, 2] with closed := true } = false := by
  decide +kernel

/-- 70_reset_and_hazards.md R243: append, and the limit of T-P2 raised by a pop and a push. -/
theorem test_host_allowed :
    srcChangeAllowed { srcOf [1, 9] with wi := 1 } (srcOf [1, 2]) = true ∧
      srcChangeAllowed { srcOf [1] with limits := [0] } (srcOf [1]) = true ∧
      srcChangeAllowed (srcOf [1]) { srcOf [1] with limits := [2] } = true := by
  decide +kernel

/-- R56 after a CLR: the entry at 6 is stale, and `exp` has only the literals (20_memory.md R56, 42_code_semantics.md R152). -/
theorem test_exp_domain : (entry6 (srcOf []) (dstOf 4)).exp 6 = some [1, 1] ∧
    ∀ n ∈ [4, 5, 6, 7], (entry6 (srcOf []) (dstOf 4)).clearState.exp (BitVec.ofNat 12 n) = none := by
  decide +kernel

/-- R207: the entry checks come before the refusals, "before doing anything"; past them the broken Cursor is refused. -/
theorem test_decode_entry_checks_first :
    answers (exec .decode { State.reset with src := { srcOf [1] with ri := 2 } })
      (fun t => decide (t.response = some .initializerNotCalled) && decide (t.refusedMark = none)) = true ∧
    answers (exec .decode (idle 2 { srcOf [1] with ri := 2 } (dstOf 1)))
      (fun t => decide (t.response = none) && decide (t.refusedMark = some .brokenCursor)) = true := by
  decide

/-! ### Witnesses: states and operands that meet the hypotheses of each statement, clause by clause -/

/-- Entry 6 made: the registers, the table and the Cursors are legal in FILL. -/
theorem entry6_registers : (entry6 (srcOf []) (dstOf 0)).RegistersLegal := by
  refine ⟨by decide, by decide, by decide, by decide, by decide, by decide, by decide, by decide, by decide, by decide,
    by decide, fun _ => ?_, by decide, by decide, by decide, by decide⟩
  unfold State.ordinaryCode
  decide

/-- And the invariant holds with any legal Cursors. -/
theorem entry6_loopInv {p : SrcPort} {q : DstPort} (hp : p.wf = true) (hq : q.wf = true) : (entry6 p q).LoopInv := by
  refine ⟨rfl, ⟨hp, hq⟩, fun _ => { entry6_registers with }, fun _ => ?_, fun _ h => by cases h⟩
  intro k h1 h2
  change 5 < k at h1
  change k < 7 at h2
  obtain rfl : k = 6 := by omega
  exact ⟨1, 1, rfl, rfl, show 1 < 6 by omega, .inl (show 1 < 4 by omega)⟩

/-- `n` entries from index `i`, each holding `v`. -/
def constTable {w : Nat} (v : BitVec w) : (n i : Nat) → Table w
  | 0, _ => []
  | n + 1, i => (i, v) :: constTable v n (i + 1)

theorem constTable_sortedFrom {w : Nat} (v : BitVec w) (n i : Nat) (h : i + n ≤ 4096) :
    Table.sortedFrom i (constTable v n i) = true := by
  induction n generalizing i with
  | zero => rfl
  | succ n ih =>
    simp only [constTable, Table.sortedFrom, ih (i + 1) (by omega), Bool.and_eq_true, decide_eq_true_eq, and_true]
    exact ⟨Nat.le_refl i, show i < 4096 by omega⟩

theorem constTable_read {w : Nat} (v : BitVec w) (n i k : Nat) (h : i ≤ k) (h' : k < i + n) :
    Table.read (constTable v n i) k = some v := by
  induction n generalizing i with
  | zero => omega
  | succ n ih =>
    unfold constTable Table.read
    split
    · rfl
    · exact ih (i + 1) (by omega) (by omega)

/-- `lw = 2` with a full table: every entry links to the literal 1. -/
def fullTable (p : SrcPort) : State :=
  { fresh 2 p (dstOf 4) with
    saveCode := 4096, width := 12, prevCode := 1
    mem := { prefixTab := constTable 1 4090 6, suffixTab := constTable 1 4090 6, stackTab := [] } }

theorem fullTable_loopInv {p : SrcPort} (hp : p.wf = true) : (fullTable p).LoopInv := by
  have hs : ∀ {w : Nat} (v : BitVec w), Table.wf (constTable v 4090 6) = true := fun v =>
    Table.sortedFrom_mono _ (by omega) (constTable_sortedFrom v 4090 6 (by omega))
  refine ⟨(Memory.wf_iff _).2 ⟨hs _, hs _, rfl⟩, ⟨hp, rfl⟩, fun _ => ?_, fun _ => ?_, fun _ h => by cases h⟩
  · exact ⟨show 2 ≤ 2 by omega, show 2 ≤ 8 by omega, rfl, rfl, show 3 ≤ 12 by omega, show 12 ≤ 12 by omega,
      show 5 ≤ 4096 by omega, show 4096 ≤ 4096 by omega, fun h => absurd h (show ¬ 4096 < 4096 by omega), fun _ => rfl,
      fun _ => show 1 < 4096 by omega, fun _ => .inl (show 1 < 4 by omega), show 0 < 1 by omega, fun _ => show 0 < 20 by omega,
      fun h => (by rcases h with h | h <;> cases h), fun h => by cases h⟩
  · intro k h1 h2
    change 5 < k at h1
    change k < 4096 at h2
    exact ⟨1, 1, constTable_read _ _ _ _ (by omega) (by omega), constTable_read _ _ _ _ (by omega) (by omega),
      show 1 < k by omega, .inl (show 1 < 4 by omega)⟩

/-- A KWKWK about to run: `lw = 2` after `CLR, LIT 1` (R155's example), with room for its two bytes. -/
def beforeKwkwk : State := { fresh 2 (srcOf []) (dstOf 4) with saveCode := 6, prevCode := 1 }

theorem beforeKwkwk_loopInv : beforeKwkwk.LoopInv := by
  refine ⟨rfl, ⟨rfl, rfl⟩, fun _ => ⟨by decide, by decide, by decide, by decide, by decide, by decide, by decide, by decide,
    by decide, by decide, by decide, fun _ => .inl (by decide), by decide, by decide, by decide, by decide⟩, fun _ => ?_,
    fun _ h => by cases h⟩
  intro k h1 h2
  change 5 < k at h1
  change k < 6 at h2
  omega

/-- A flush suspended after one of the two bytes of entry 6 (R184's example shape). -/
def suspendedFlush (n : Nat) : State :=
  { entry6 (srcOf []) (dstOf n) with
    phase := .flush, code := 6, first := 1, stackStart := 4094, flushed := 1
    mem := { prefixTab := [(6, 1)], suffixTab := [(6, 1)], stackTab := [(4094, 1), (4095, 1)] } }

theorem witness_EncodedInstructionDecodesBack : space2.legal 2 = true ∧ space8.legal 8 = true ∧
    (∀ i ∈ [Instr.init, .setLiteralWidth 0xFFFFFF, .decode, .lit 3, .clr, .endCode, .copy 6, .kwkwk 7, .oor 8],
      i.wfIn space2 = true) ∧
    ∀ i ∈ [Instr.lit 255, .copy 258, .copy 4095], i.wfIn space8 = true := by
  decide

theorem witness_DecodedWordEncodesBack : space2.legal 2 = true ∧ decode space2 (.command 0x202) = .ok (.setLiteralWidth 2) ∧
    decode space2 (.code 6) = .ok (.copy 6) := by
  decide

/-- Each class at its borders, and a full table. -/
theorem witness_CodeClassesPartitionTheCodes : space2.legal 2 = true ∧ space8.legal 8 = true ∧
    (3 : CodeValue).toNat < space2.clearCode.toNat ∧ (4 : CodeValue).toNat = space2.clearCode.toNat ∧
    (5 : CodeValue).toNat = space2.endCode.toNat ∧
    (space2.endCode.toNat < (6 : CodeValue).toNat ∧ (6 : CodeValue).toNat < space2.saveCode.toNat) ∧
    ((7 : CodeValue).toNat = space2.saveCode.toNat ∧ space2.endCode.toNat < (7 : CodeValue).toNat) ∧
    space2.saveCode.toNat < (8 : CodeValue).toNat ∧ space8.saveCode.toNat = 4096 := by
  decide

/-- WIDTH = 12 with an empty accumulator and two bytes, the most one code needs; and NBITS = WIDTH, which needs none. -/
theorem witness_ParserTakesTheLowWidthBitsOfTheStream :
    ∀ s ∈ [{ fresh 2 (srcOf [0xFF, 0x0F]) (dstOf 4) with width := 12 },
        { fresh 2 (srcOf []) (dstOf 4) with bits := 7, nbits := 3 }],
      s.src.wf = true ∧ s.bits.toNat < 2 ^ s.nbits.toNat ∧ s.width.toNat ≤ 12 ∧ s.nbits.toNat < s.width.toNat + 8 ∧
        s.width.toNat ≤ s.nbits.toNat + 8 * s.src.available := by
  decide

/-- One byte short of 12 bits: an open end, a closed end, and a limit. -/
theorem witness_ParserSuspendsWithoutLosingBits :
    ∀ p ∈ [srcOf [1], { srcOf [1] with closed := true }, { srcOf [1, 2] with closed := true, limits := [1] }],
      p.wf = true ∧ ({ fresh 2 p (dstOf 4) with width := 12 } : State).nbits.toNat + 8 * p.available < 12 ∧
        parses { fresh 2 p (dstOf 4) with width := 12 } = false := by
  decide

/-- A limit of 0, an empty open source, an empty closed one, one byte left. -/
theorem witness_SrcReadTestsLimitThenEmptyThenReads :
    ∀ p ∈ [{ srcOf [1] with limits := [0] }, srcOf [], { srcOf [] with closed := true }, srcOf [1]], p.wf = true := by
  decide

/-- Closed and full, full, a limit of 0, one byte of space. -/
theorem witness_DstWriteTestsClosedThenSpaceThenWrites :
    ∀ q ∈ [{ dstOf 0 with closed := true }, dstOf 0, { dstOf 1 with limits := [0] }, dstOf 1], q.wf = true := by
  decide

/-- Closed; a space of 0; a space below and above the bytes. -/
theorem witness_DstCopyMovesWhatFits :
    ∀ q ∈ [{ dstOf 4 with closed := true }, dstOf 0, dstOf 1, { dstOf 4 with limits := [3] }], q.wf = true := by
  decide

theorem witness_StepRunsTheDecodedCommand : ∃ (s : State) (w : CommandWord) (rest : List HostEvent) (i : Instr),
    s.refusedMark = none ∧ s.host = .command w :: rest ∧ decodeCommand w = .ok i :=
  ⟨State.reset.withFetchWord 32 3, 3, [], .decode, by decide⟩

theorem witness_DecodePassRunsTheParsedCode : ∃ s t : State, s.phase = .fill ∧ parseCode s = .go () t :=
  ⟨fresh 2 (srcOf [0x44]) (dstOf 4), _, rfl, parseCode_of_parses (by decide +kernel)⟩

/-- A first code that goes on (CLR) and one that ends the command (END). -/
theorem witness_DecodeRunsTheStreamCodeByCode : ∀ n ∈ [0x44, 0x05], ∃ s t u : State,
    s = fresh 2 (srcOf [BitVec.ofNat 8 n]) (dstOf 4) ∧ s.LoopInv ∧ s.ready ∧ s.portsAccepted ∧ s.phase = .fill ∧
      parseCode { s with response := none } = .go () t ∧ exec (decodeCode t.codeSpace t.code) t = .next u := by
  intro n hn
  have hp : parses (fresh 2 (srcOf [BitVec.ofNat 8 n]) (dstOf 4)) = true := by
    revert n
    decide +kernel
  have he : answers (exec (decodeCode (parsed (fresh 2 (srcOf [BitVec.ofNat 8 n]) (dstOf 4))).codeSpace
      (parsed (fresh 2 (srcOf [BitVec.ofNat 8 n]) (dstOf 4))).code) (parsed (fresh 2 (srcOf [BitVec.ofNat 8 n]) (dstOf 4)))) (fun _ => true) = true := by
    revert n
    decide +kernel
  exact ⟨_, _, _, rfl, fresh_loopInv rfl rfl rfl, fresh_decoding.1, ⟨⟨rfl, rfl⟩, rfl⟩, rfl,
    parseCode_of_parses (s := fresh 2 (srcOf [BitVec.ofNat 8 n]) (dstOf 4)) hp, (eq_of_answers State.reset he).1⟩

/-- A fresh start at both ends of 2..8, and resumes in EMIT_LIT and in FLUSH. -/
theorem witness_DecodeRunsTheStreamCodeByCode_phases :
    (∀ n ∈ [2, 8], ∃ s : State, s.LoopInv ∧ s.ready ∧ s.portsAccepted ∧ s.phase = .idle ∧ s.lwReg.toNat = n) ∧
      ∀ p ∈ [Phase.emitLit, .flush], ∃ s u : State, s.LoopInv ∧ s.ready ∧ s.portsAccepted ∧ s.phase = p ∧
        decodePass { s with response := none } = .next u := by
  constructor
  · intro n hn
    refine ⟨idle (BitVec.ofNat 24 n) (srcOf [1]) (dstOf 4), idle_loopInv rfl rfl,
      ⟨rfl, show isError .ok = false from rfl⟩, ⟨⟨rfl, rfl⟩, rfl⟩, rfl, ?_⟩
    revert n
    decide
  · intro p hp
    have h6 := entry6_loopInv (p := srcOf []) (q := dstOf 1) rfl rfl
    have hd : (entry6 (srcOf []) (dstOf 1)).decoding := ⟨⟨rfl, rfl⟩, fun h => by cases h⟩
    have hr := h6.registers hd
    simp only [List.mem_cons, List.not_mem_nil, or_false] at hp
    rcases hp with rfl | rfl
    · have h : answers (decodePass { entry6 (srcOf []) (dstOf 1) with phase := .emitLit, code := 1 }) (fun _ => true) = true := by
        decide +kernel
      obtain ⟨u, h1, -⟩ := exists_of_answers h
      exact ⟨{ entry6 (srcOf []) (dstOf 1) with phase := .emitLit, code := 1 }, u, ⟨h6.mem_wf, h6.cursors,
        fun _ => { hr with nbits_fill := (by decide), nbits_emit := (by decide), code_literal := (by decide) },
        fun _ => h6.table hd, fun _ h => by cases h⟩, ⟨rfl, rfl⟩, ⟨⟨rfl, rfl⟩, rfl⟩, rfl, h1⟩
    · have h : answers (decodePass (suspendedFlush 1)) (fun _ => true) = true := by decide +kernel
      obtain ⟨u, h1, -⟩ := exists_of_answers h
      exact ⟨suspendedFlush 1, u, ⟨rfl, ⟨rfl, rfl⟩,
        fun _ => { hr with nbits_fill := (by decide), nbits_emit := (by decide), code_literal := (by decide) },
        fun _ => h6.table hd, fun _ _ => ⟨by decide, by decide, by decide, [1, 1], by decide +kernel⟩⟩, ⟨rfl, rfl⟩,
        ⟨⟨rfl, rfl⟩, rfl⟩, rfl, h1⟩

theorem witness_RefusedActionsOnlySetTheMark : State.reset.refusedMark = none ∧
    decodeCommand 0x04 = .error .reservedOpcode ∧ decodeCommand 0x101 = .error .nonzeroArg ∧
    srcChangeAllowed State.reset.src { State.reset.src with ri := 1 } = false ∧
    dstChangeAllowed State.reset.dst { State.reset.dst with wi := 1 } = false := by
  decide

theorem witness_RefusedMarkIsSticky : ∃ s t : State, exec .init s = .next t ∧ s.refusedMark.isSome = true ∧
    s.refusedMark = some .concurrentCommand :=
  ⟨State.reset.markRefused .concurrentCommand, _, rfl, rfl, rfl⟩

/-- A closed source consumed, and one closed now; a closed destination drained, and one closed now. -/
theorem witness_AllowedHostChangesKeepTheCursors :
    (∃ p q : SrcPort, srcChangeAllowed p q = true ∧ p.wf = true ∧ p.closed = true ∧ p ≠ q) ∧
      (∃ p q : SrcPort, srcChangeAllowed p q = true ∧ p.wf = true ∧ p.closed = false ∧ q.closed = true) ∧
      (∃ p q : DstPort, dstChangeAllowed p q = true ∧ p.wf = true ∧ p.closed = true ∧ p ≠ q) ∧
      ∃ p q : DstPort, dstChangeAllowed p q = true ∧ p.wf = true ∧ p.closed = false ∧ q.closed = true :=
  ⟨⟨{ srcOf [1] with closed := true }, { srcOf [1] with closed := true, ri := 1 }, by decide⟩,
    ⟨srcOf [1], { srcOf [1] with closed := true }, by decide⟩,
    ⟨{ dstOf 1 with closed := true }, { dstOf 2 with closed := true }, by decide⟩,
    ⟨dstOf 1, { dstOf 1 with closed := true }, by decide⟩⟩

/-- Room for one byte at `wi`, an unread byte, and a destination index up to `len`. -/
theorem witness_HostMayAppendConsumeCompactOverwriteCloseAndLimit :
    ∃ (p : SrcPort) (bs : List Byte) (q : DstPort), p.wf = true ∧ p.closed = false ∧ p.wi + bs.length ≤ p.data.length ∧
      p.ri + 1 ≤ p.wi ∧ p.ri + bs.length ≤ p.data.length ∧ q.wf = true ∧ 2 ≤ q.len ∧ 1 ≤ bs.length :=
  ⟨{ srcOf [1, 2] with wi := 1 }, [7], dstOf 2, by decide⟩

theorem witness_AllowedHostChangesTouchOnlyTheCursor : State.reset.refusedMark = none ∧ State.reset.host = [] ∧
    srcChangeAllowed State.reset.src (srcOf [1]) = false ∧
    srcChangeAllowed State.reset.src { State.reset.src with closed := true } = true ∧
    dstChangeAllowed State.reset.dst (dstOf 8) = true := by
  decide

theorem witness_PowerOnLeavesTheBlockUninitialized :
    ∃ (s : State) (rest : List HostEvent), s.refusedMark = none ∧ s.host = .powerOn :: rest :=
  ⟨{ idle 2 (srcOf [1]) (dstOf 1) with host := [.powerOn] }, [], rfl, rfl⟩

theorem witness_OnlyInitAndPowerOnChangeInitDone : ∃ s t : State, step s = .next t ∧ t.initDone ≠ s.initDone :=
  ⟨State.reset.withFetchWord 32 1, _, rfl, by decide⟩

theorem witness_OnlySetLiteralWidthAndInitWriteLwReg : ∃ s t : State, step s = .next t ∧ t.lwReg ≠ s.lwReg := by
  have h : answers (step ((idle 0 (srcOf []) (dstOf 0)).withFetchWord 32 0x802)) (fun t => decide (t.lwReg = 8)) = true := by
    decide +kernel
  obtain ⟨t, h1, h2⟩ := exists_of_answers h
  refine ⟨_, t, h1, ?_⟩
  rw [of_decide_eq_true h2]
  decide

theorem witness_PinnedErrorStaysUntilInit : ∃ s t : State,
    step s = .next t ∧ s.initDone = true ∧ isError s.status = true ∧ t.status ≠ s.status :=
  ⟨({ idle 2 (srcOf []) (dstOf 0) with status := .lzwCodeOutOfRange } : State).withFetchWord 32 1, _, rfl, by decide⟩

/-- Both ends of 2..8. -/
theorem witness_SetLiteralWidthStoresALegalWidth : ∃ s : State, s.ready ∧ s.phase = .idle ∧
    ∀ n ∈ [2, 8], 2 ≤ (BitVec.ofNat 24 n).toNat ∧ (BitVec.ofNat 24 n).toNat ≤ 8 :=
  ⟨idle 0 (srcOf []) (dstOf 0), ⟨rfl, rfl⟩, rfl, by decide⟩

/-- Both neighbours of 2..8, and both ends of the 24 bits. -/
theorem witness_SetLiteralWidthPinsAnIllegalWidth : ∃ s : State, s.ready ∧ s.phase = .idle ∧
    ∀ n ∈ [0, 1, 9, 0xFFFFFF], (BitVec.ofNat 24 n).toNat < 2 ∨ 8 < (BitVec.ofNat 24 n).toNat :=
  ⟨idle 0 (srcOf []) (dstOf 0), ⟨rfl, rfl⟩, rfl, by decide⟩

/-- Uninitialized; pinned; suspended. -/
theorem witness_SetLiteralWidthEntryChecksInOrder : State.reset.initDone = false ∧
    (∃ s : State, s.initDone = true ∧ isError s.status = true) ∧
    ∃ s : State, s.initDone = true ∧ isError s.status = false ∧ s.phase ≠ .idle :=
  ⟨rfl, ⟨{ idle 2 (srcOf []) (dstOf 0) with status := .unexpectedEof }, by decide⟩,
    ⟨fresh 2 (srcOf []) (dstOf 0), by decide⟩⟩

/-- Uninitialized; pinned; each with a broken Cursor too. -/
theorem witness_DecodeEntryChecksInOrder : (∃ s : State, s.initDone = false ∧ s.src.wf = false) ∧
    ∃ s : State, s.initDone = true ∧ isError s.status = true ∧ s.src.wf = false :=
  ⟨⟨{ State.reset with src := { srcOf [1] with ri := 2 } }, by decide⟩,
    ⟨{ idle 2 { srcOf [1] with ri := 2 } (dstOf 0) with status := .unexpectedEof }, by decide⟩⟩

/-- Each part of the Cursor invariant broken in turn, and arrays that share their last and first address. -/
theorem witness_DecodeRefusesBrokenOrOverlappingPorts :
    (∀ pq ∈ [({ srcOf [1] with ri := 2 }, dstOf 1), ({ srcOf [1] with wi := 2 }, dstOf 1), (srcOf [1], { dstOf 1 with wi := 2 }),
        (srcOf [1], { dstOf 1 with len := 2 })],
      ¬ (pq.1.ri ≤ pq.1.wi ∧ pq.1.wi ≤ pq.1.data.length ∧ pq.2.wi ≤ pq.2.len ∧ pq.2.len = pq.2.data.length)) ∧
    ∃ s : State, s.ready ∧ s.cursorsLegal ∧
      ∃ a, s.src.base ≤ a ∧ a < s.src.base + s.src.data.length ∧ s.dst.base ≤ a ∧ a < s.dst.base + s.dst.data.length :=
  ⟨by decide, idle 2 (srcOf [1, 2]) { dstOf 4 with base := 1 }, ⟨rfl, rfl⟩, ⟨rfl, rfl⟩, 1, by decide⟩

theorem witness_DecodeWithoutALiteralWidthFails : ∀ n ∈ [0, 1, 9], ∃ s : State, s.ready ∧ s.portsAccepted ∧ s.phase = .idle ∧
    s.lwReg = BitVec.ofNat 24 n ∧ (s.lwReg.toNat < 2 ∨ 8 < s.lwReg.toNat) := by
  intro n hn
  refine ⟨idle (BitVec.ofNat 24 n) (srcOf [1]) (dstOf 1), ⟨rfl, show isError .ok = false from rfl⟩, ⟨⟨rfl, rfl⟩, rfl⟩, rfl,
    rfl, ?_⟩
  revert n
  decide

/-- Both ends of 2..8 and both neighbours. -/
theorem witness_FreshStartIsTheClearedState : ∀ n ∈ [1, 2, 8, 9], ∃ s : State, s.phase = .idle ∧ s.lwReg.toNat = n := by
  intro n hn
  refine ⟨idle (BitVec.ofNat 24 n) (srcOf [1]) (dstOf 1), ?_⟩
  revert n
  decide

/-- An idle state, and one in FILL with an entry in the table. -/
theorem witness_DecodeAlwaysAnswersAndNeverFindsACycle :
    ∃ s : State, s.Inv ∧ s.ready ∧ s.portsAccepted ∧ (∃ u : State, u.Inv ∧ u.ready ∧ u.portsAccepted ∧ u.phase = .fill) := by
  refine ⟨idle 2 (srcOf [0x44, 0x01]) (dstOf 4), idle_inv rfl rfl, ⟨rfl, rfl⟩, ⟨⟨rfl, rfl⟩, rfl⟩,
    { entry6 (srcOf [6]) (dstOf 4) with status := .shortRead }, ⟨?_, ?_⟩, ⟨rfl, rfl⟩, ⟨⟨rfl, rfl⟩, rfl⟩, rfl⟩
  · have h := entry6_loopInv (p := srcOf [6]) (q := dstOf 4) rfl rfl
    have hd : (entry6 (srcOf [6]) (dstOf 4)).decoding := ⟨⟨rfl, rfl⟩, fun h => by cases h⟩
    exact ⟨h.mem_wf, h.cursors, fun _ => { h.registers hd with }, fun _ => h.table hd, fun _ h => by cases h⟩
  · refine fun _ => ⟨fun h => ?_, fun _ => rfl, fun h => ?_⟩
    · cases h
    · rcases h with h | h <;> cases h

theorem witness_DecodeMovesOnlyThroughThePorts :
    ∃ s t : State, exec .decode s = .next t ∧ s.src ≠ t.src ∧ s.dst ≠ t.dst := by
  have h : answers (exec .decode (idle 2 (srcOf [0x44, 0x01]) (dstOf 4)))
      (fun t => decide (srcOf [0x44, 0x01] ≠ t.src) && decide (dstOf 4 ≠ t.dst)) = true := by
    decide +kernel
  obtain ⟨t, h1, h2⟩ := exists_of_answers h
  simp only [Bool.and_eq_true, decide_eq_true_eq] at h2
  exact ⟨_, t, h1, h2⟩

/-- T-P1 (short-read), T-F2 (short-write in EMIT_LIT) and a suspended flush. -/
theorem witness_ReissuedDecodeRepeatsItsSuspension :
    (∃ s t : State, exec .decode s = .next t ∧ t.response = some .shortRead) ∧
      (∃ s t : State, exec .decode s = .next t ∧ t.response = some .shortWrite ∧ t.phase = .emitLit) ∧
      ∃ s t : State, exec .decode s = .next t ∧ t.response = some .shortWrite ∧ t.phase = .flush := by
  have h1 : answers (exec .decode (idle 2 (srcOf [0x8C]) (dstOf 100))) (fun t => decide (t.response = some .shortRead)) =
      true := by decide +kernel
  have h2 : answers (exec .decode (idle 2 (srcOf [0x44, 0x01]) (dstOf 0)))
      (fun t => decide (t.response = some .shortWrite ∧ t.phase = .emitLit)) = true := by decide +kernel
  have h3 : answers (exec .decode (suspendedFlush 0))
      (fun t => decide (t.response = some .shortWrite ∧ t.phase = .flush)) = true := by decide +kernel
  obtain ⟨t1, a1, b1⟩ := exists_of_answers h1
  obtain ⟨t2, a2, b2⟩ := exists_of_answers h2
  obtain ⟨t3, a3, b3⟩ := exists_of_answers h3
  exact ⟨⟨_, t1, a1, of_decide_eq_true b1⟩, ⟨_, t2, a2, of_decide_eq_true b2⟩, ⟨_, t3, a3, of_decide_eq_true b3⟩⟩

theorem witness_DecodeEndsWithOkAtTheEndCode : ∃ s : State, s.LoopInv ∧ s.ready ∧ s.portsAccepted ∧ s.phase = .fill ∧
    s.width.toNat ≤ s.nbits.toNat ∧ s.bits.toNat % 2 ^ s.width.toNat = s.endCode.toNat := by
  have h := fresh_loopInv (lw := 2) (p := srcOf []) (q := dstOf 0) rfl rfl rfl
  refine ⟨{ fresh 2 (srcOf []) (dstOf 0) with bits := 5, nbits := 3 }, ⟨rfl, h.cursors, fun _ => ?_, fun _ => h.table
    fresh_decoding, fun _ h => by cases h⟩, ⟨rfl, rfl⟩, ⟨⟨rfl, rfl⟩, rfl⟩, rfl, by decide, by decide⟩
  exact { h.registers fresh_decoding with
    bits_lt := by decide, nbits_fill := by decide, nbits_emit := by decide }

/-- T-K1 cut after its first byte, as in T-P1. -/
theorem witness_CuttingTheSourceChangesNothing : ∃ (s t : State) (m : Nat), s.LoopInv ∧ s.ready ∧ s.portsAccepted ∧
    s.src.ri ≤ m ∧ m ≤ s.src.wi ∧ exec .decode { s with src := { s.src with wi := m, closed := false } } = .next t ∧
    t.response = some .shortRead := by
  have h : answers (exec .decode (idle 2 { srcOf [0x8C, 0x7D, 0x05] with wi := 1 } (dstOf 100)))
      (fun t => decide (t.response = some .shortRead)) = true := by decide +kernel
  obtain ⟨t, h1, h2⟩ := exists_of_answers h
  exact ⟨idle 2 { srcOf [0x8C, 0x7D, 0x05] with closed := true } (dstOf 100), t, 1, idle_loopInv rfl (by decide), ⟨rfl, rfl⟩,
    ⟨⟨rfl, by decide⟩, by decide⟩, by decide, by decide, h1, of_decide_eq_true h2⟩

/-- T-COPY1 with its destination cut to 4 bytes: the cut falls inside the expansion of COPY 6. -/
theorem witness_CuttingTheDestinationChangesNothing : ∃ (s t : State) (m : Nat), s.LoopInv ∧ s.ready ∧ s.portsAccepted ∧
    s.dst.wi ≤ m ∧ m ≤ s.dst.len ∧
    exec .decode { s with dst := { s.dst with data := s.dst.data.take m, len := m } } = .next t ∧
    t.response = some .shortWrite := by
  have h : answers (exec .decode (idle 2 (srcOf [0x8C, 0x66, 0x58]) (dstOf 4)))
      (fun t => decide (t.response = some .shortWrite)) = true := by decide +kernel
  obtain ⟨t, h1, h2⟩ := exists_of_answers h
  exact ⟨idle 2 (srcOf [0x8C, 0x66, 0x58]) (dstOf 7), t, 4, idle_loopInv rfl rfl, ⟨rfl, rfl⟩,
    ⟨⟨rfl, rfl⟩, by decide⟩, by decide, by decide, h1, of_decide_eq_true h2⟩

/-- One byte of space. -/
theorem witness_LitWritesItsByteAndUpdates : ∃ s : State, s.dst.wf = true ∧ s.dst.closed = false ∧ 0 < s.dst.space :=
  ⟨fresh 2 (srcOf []) (dstOf 1), by decide⟩

/-- Closed; open and full. -/
theorem witness_LitWithoutSpaceKeepsItsCode : (∃ s : State, s.dst.closed = true) ∧
    ∃ s : State, s.dst.closed = false ∧ s.dst.space = 0 :=
  ⟨⟨fresh 2 (srcOf []) { dstOf 1 with closed := true }, rfl⟩, ⟨fresh 2 (srcOf []) (dstOf 0), by decide⟩⟩

/-- The largest literal width. -/
theorem witness_ClrResetsTheDictionaryOnly : ∃ s : State, s.lw.toNat ≤ 8 ∧ s.lw.toNat = 8 :=
  ⟨fresh 8 (srcOf []) (dstOf 0), by decide⟩

/-- R154's example, with just the space it needs. -/
theorem witness_CopyWritesItsExpansionAndUpdates : ∃ (c : CodeValue) (s : State) (l : List Byte),
    s.dst.wf = true ∧ s.dst.closed = false ∧ s.exp c = some l ∧ l.length ≤ 4096 ∧ l.length ≤ s.dst.space :=
  ⟨6, entry6 (srcOf []) (dstOf 2), [1, 1], by decide +kernel⟩

/-- R155's example. -/
theorem witness_KwkwkWritesThePreviousExpansionAndItsFirstByte : ∃ (s : State) (l : List Byte) (b : Byte),
    s.dst.wf = true ∧ s.dst.closed = false ∧ s.exp s.prevCode = some l ∧ l.head? = some b ∧ l.length ≤ 4095 ∧
      l.length + 1 ≤ s.dst.space :=
  ⟨beforeKwkwk, [1], 1, by decide +kernel⟩

theorem witness_KwkwkEntryExpandsToWhatItWrote : ∃ (c : CodeValue) (s t : State) (l : List Byte) (b : Byte), s.LoopInv ∧
    s.decoding ∧ s.phase = .fill ∧ c.toNat = s.saveCode.toNat ∧ s.endCode.toNat < c.toNat ∧ s.dst.closed = false ∧
    s.exp s.prevCode = some l ∧ l.head? = some b ∧ l.length + 1 ≤ s.dst.space ∧ exec (.kwkwk c) s = .next t := by
  have h : answers (exec (.kwkwk 6) beforeKwkwk) (fun _ => true) = true := by decide +kernel
  obtain ⟨t, h1, -⟩ := exists_of_answers h
  exact ⟨6, beforeKwkwk, t, [1], 1, beforeKwkwk_loopInv, ⟨⟨rfl, rfl⟩, fun h => by cases h⟩, rfl, by decide, by decide, rfl,
    by decide +kernel, rfl, by decide, h1⟩

/-- One byte of space for two bytes, COPY and KWKWK; and no space. -/
theorem witness_ExpansionThatDoesNotFitSuspendsInFlush :
    (∃ (c : CodeValue) (s : State) (l : List Byte), s.dst.wf = true ∧ s.dst.closed = false ∧ s.exp c = some l ∧
      l.length ≤ 4096 ∧ s.dst.space < l.length ∧ s.dst.space = 1) ∧
    ∃ (s : State) (p : List Byte) (b : Byte), s.dst.wf = true ∧ s.dst.closed = false ∧ s.exp s.prevCode = some p ∧
      p.head? = some b ∧ p.length ≤ 4095 ∧ s.dst.space < (p ++ [b]).length ∧ s.dst.space = 0 :=
  ⟨⟨6, entry6 (srcOf []) (dstOf 1), [1, 1], by decide +kernel⟩,
    ⟨{ beforeKwkwk with dst := dstOf 0 }, [1], 1, by decide +kernel⟩⟩

/-- The last byte of the tail, with one byte of space and with none. -/
theorem witness_ResumedFlushWritesOnlyTheTail : ∀ n ∈ [0, 1], ∃ (s : State) (l : List Byte), s.phase = .flush ∧
    s.dst.wf = true ∧ s.dst.closed = false ∧
    Table.readRun s.mem.stackTab (s.stackStart.toNat + s.flushed.toNat) (4096 - (s.stackStart.toNat + s.flushed.toNat)) =
      some l ∧ s.stackStart.toNat + s.flushed.toNat < 4096 ∧ l.length = 1 ∧ s.dst.space = n := by
  intro n hn
  refine ⟨suspendedFlush n, [1], ?_⟩
  revert n
  decide

theorem witness_ExpansionOnAClosedDestinationFails :
    (∃ (c : CodeValue) (s : State) (l : List Byte), s.dst.closed = true ∧ s.exp c = some l ∧ l.length ≤ 4095) ∧
      ∃ (s : State) (l : List Byte), s.dst.closed = true ∧ s.exp s.prevCode = some l ∧ l.length ≤ 4095 :=
  ⟨⟨6, entry6 (srcOf []) { dstOf 4 with closed := true }, [1, 1], by decide +kernel⟩,
    ⟨{ beforeKwkwk with dst := { dstOf 4 with closed := true } }, [1], by decide +kernel⟩⟩

/-- A chain of `slots` entries for COPY and for KWKWK: one entry that links to itself (T-CY1, T-CY3). -/
theorem witness_ChainLongerThanTheStackIsCyclical : ∀ kw : Bool, ∃ (c : CodeValue) (s : State) (slots : Nat) (x : Nat → CodeValue),
    slots = (if kw then 4095 else 4096) ∧ x 0 = (if kw then s.prevCode else c) ∧
      (∀ k, k < slots → s.clearCode.toNat ≤ (x k).toNat ∧ (Table.read s.mem.suffixTab (x k).toNat).isSome = true) ∧
      ∀ k, k < slots → k + 1 < slots → ∃ p, Table.read s.mem.prefixTab (x k).toNat = some p ∧ x (k + 1) = p.setWidth 12 := by
  intro kw
  refine ⟨6, selfLinked, _, fun _ => 6, rfl, ?_,
    fun _ _ => (by decide : selfLinked.clearCode.toNat ≤ (6 : CodeValue).toNat ∧
      (Table.read selfLinked.mem.suffixTab (6 : CodeValue).toNat).isSome = true), fun _ _ _ => ⟨6, rfl, rfl⟩⟩
  cases kw <;> rfl

/-- Two entries that link to each other (T-CY2). -/
theorem witness_ChainLongerThanTheStackIsCyclical_two : ∃ (s : State) (x : Nat → CodeValue), x 0 = 7 ∧
    (∀ k, k < 4096 → s.clearCode.toNat ≤ (x k).toNat ∧ (Table.read s.mem.suffixTab (x k).toNat).isSome = true) ∧
      ∀ k, k < 4096 → k + 1 < 4096 → ∃ p, Table.read s.mem.prefixTab (x k).toNat = some p ∧ x (k + 1) = p.setWidth 12 := by
  refine ⟨twoLinked, fun k => if k % 2 = 0 then 7 else 6, rfl, fun k _ => ?_, fun k _ _ => ?_⟩
  · rcases Nat.mod_two_eq_zero_or_one k with h | h <;> simp only [h] <;> decide
  · rcases Nat.mod_two_eq_zero_or_one k with h | h
    · exact ⟨6, by simp only [h, show (k + 1) % 2 = 1 by omega]; decide⟩
    · exact ⟨7, by simp only [h, show (k + 1) % 2 = 0 by omega]; decide⟩

/-- A chain that comes to a literal after one link. -/
theorem witness_ChainLongerThanTheStackIsCyclical_literal : ∃ (c : CodeValue) (s t : State) (x : Nat → CodeValue), x 0 = c ∧
    (∀ k, k < 1 → s.clearCode.toNat ≤ (x k).toNat ∧ (Table.read s.mem.suffixTab (x k).toNat).isSome = true) ∧
    (∀ k, k < 1 → k + 1 < 4096 → ∃ p, Table.read s.mem.prefixTab (x k).toNat = some p ∧ x (k + 1) = p.setWidth 12) ∧
    (x 1).toNat < s.clearCode.toNat ∧ s.status ≠ .lzwPrefixChainCyclical ∧ exec (.copy c) s = .next t := by
  have h : answers (exec (.copy 6) (entry6 (srcOf []) (dstOf 4))) (fun _ => true) = true := by decide +kernel
  obtain ⟨t, h1, -⟩ := exists_of_answers h
  refine ⟨6, entry6 (srcOf []) (dstOf 4), t, fun k => if k = 0 then 6 else 1, rfl, fun k hk => ?_, fun k hk _ => ?_, by decide,
    by decide, h1⟩
  · obtain rfl : k = 0 := by omega
    decide
  · obtain rfl : k = 0 := by omega
    exact ⟨1, by decide⟩

/-- The first entry of the walk of COPY 6 and of KWKWK after PREV_CODE 6: no suffix; and a suffix without a prefix. -/
theorem witness_WalkOverAnUnwrittenEntryFaults : ∀ kw : Bool, ∀ suf ∈ [[], [(6, (1 : BitVec 8))]],
    ∃ (c : CodeValue) (s : State) (slots : Nat) (x : Nat → CodeValue), slots = (if kw then 4095 else 4096) ∧
      x 0 = (if kw then s.prevCode else c) ∧ 0 < slots ∧ s.mem.suffixTab = suf ∧ s.clearCode.toNat ≤ (x 0).toNat ∧
      (Table.read s.mem.suffixTab (x 0).toNat = none ∨ (0 + 1 < slots ∧ Table.read s.mem.prefixTab (x 0).toNat = none)) := by
  intro kw suf hsuf
  refine ⟨6, { entry6 (srcOf []) (dstOf 4) with mem := { prefixTab := [], suffixTab := suf, stackTab := [] } }, _, fun _ => 6,
    rfl, by cases kw <;> rfl, by cases kw <;> decide, rfl, show 4 ≤ 6 by omega, .inr ⟨by cases kw <;> decide, rfl⟩⟩

/-- The second entry: 7 links to 6, which has no suffix, or no prefix. -/
theorem witness_WalkOverAnUnwrittenEntryFaults_second : ∀ suf ∈ [[(7, 2)], [(6, 1), (7, (2 : BitVec 8))]],
    ∃ (c : CodeValue) (s : State) (x : Nat → CodeValue), x 0 = c ∧
      (∀ k, k < 1 → s.clearCode.toNat ≤ (x k).toNat ∧ (Table.read s.mem.suffixTab (x k).toNat).isSome = true) ∧
      (∀ k, k < 1 → ∃ p, Table.read s.mem.prefixTab (x k).toNat = some p ∧ x (k + 1) = p.setWidth 12) ∧
      s.clearCode.toNat ≤ (x 1).toNat ∧ s.mem.suffixTab = suf ∧ Table.read s.mem.prefixTab (x 1).toNat = none := by
  intro suf hsuf
  refine ⟨7, { twoLinked with mem := { prefixTab := [(7, 6)], suffixTab := suf, stackTab := [] } },
    fun k => if k = 0 then 7 else 6, rfl, fun k hk => ?_, fun k hk => ?_, show 4 ≤ 6 by omega, rfl, rfl⟩
  · obtain rfl : k = 0 := by omega
    refine ⟨show 4 ≤ 7 by omega, ?_⟩
    revert suf
    decide
  · obtain rfl : k = 0 := by omega
    exact ⟨6, rfl, rfl⟩

/-- Each of the three instructions, going on without an error. -/
theorem witness_OrdinaryCodeFrame : ∀ i ∈ [Instr.lit 1, .copy 6, .kwkwk 7], ∃ t : State,
    exec i (entry6 (srcOf []) (dstOf 4)) = .next t ∧ t.status ≠ .closedForWrites ∧ t.status ≠ .lzwPrefixChainCyclical := by
  intro i hi
  have h : answers (exec i (entry6 (srcOf []) (dstOf 4)))
      (fun t => decide (t.status ≠ .closedForWrites ∧ t.status ≠ .lzwPrefixChainCyclical)) = true := by
    revert i
    decide +kernel
  obtain ⟨t, h1, h2⟩ := exists_of_answers h
  exact ⟨t, h1, of_decide_eq_true h2⟩

/-- A full table, the least and the largest code above END_CODE, and an instruction that goes on. -/
theorem witness_FullTableStaysFrozen : ∀ n ∈ [6, 4095], ∃ s t : State, s.saveCode.toNat = 4096 ∧
    s.endCode.toNat = s.clearCode.toNat + 1 ∧ s.endCode.toNat < (BitVec.ofNat 12 n).toNat ∧ exec (.lit 1) s = .next t ∧
    t.status ≠ .closedForWrites ∧ t.status ≠ .lzwPrefixChainCyclical := by
  intro n hn
  have h : answers (exec (.lit 1) (fullTable (srcOf []))) (fun t => decide (t.status = .ok)) = true := by decide +kernel
  obtain ⟨t, h1, h2⟩ := exists_of_answers h
  rw [decide_eq_true_eq] at h2
  refine ⟨fullTable (srcOf []), t, rfl, rfl, ?_, h1, by simp [h2], by simp [h2]⟩
  revert n
  decide

/-- A full table that meets the invariant, and 12 bits to parse. -/
theorem witness_FullTableStaysFrozen_legal : ∃ s t : State, s.saveCode.toNat = 4096 ∧ s.LoopInv ∧ s.decoding ∧ s.phase = .fill ∧
    parseCode s = .go () t :=
  ⟨fullTable (srcOf [0xFF, 0x0F]), _, rfl, fullTable_loopInv rfl, ⟨⟨rfl, rfl⟩, fun h => by cases h⟩, rfl,
    parseCode_of_parses (by decide +kernel)⟩

/-- The largest literal and an entry. -/
theorem witness_ExpansionsExistAndAreBounded : ∀ n ∈ [3, 6], ∃ s : State, s.LoopInv ∧ s.decoding ∧
    s.ordinaryCode (BitVec.ofNat 12 n) ∧ (BitVec.ofNat 12 n).toNat < s.saveCode.toNat := by
  intro n hn
  refine ⟨entry6 (srcOf []) (dstOf 4), entry6_loopInv rfl rfl, ⟨⟨rfl, rfl⟩, fun h => by cases h⟩, ?_⟩
  unfold State.ordinaryCode
  revert n
  decide

/-- A DECODE step from a state that meets the invariant. -/
theorem witness_StepKeepsTheInvariant : ∃ s t : State, s.Inv ∧ s.mem.wf = true ∧ step s = .next t := by
  have h : answers (step ((idle 2 (srcOf [0x8C, 0x7D, 0x05]) (dstOf 9)).withFetchWord 32 3)) (fun _ => true) = true := by
    decide +kernel
  obtain ⟨t, h1, -⟩ := exists_of_answers h
  have hi := idle_inv (lw := 2) (p := srcOf [0x8C, 0x7D, 0x05]) (q := dstOf 9) rfl rfl
  have hd : ¬ (idle 2 (srcOf [0x8C, 0x7D, 0x05]) (dstOf 9)).decoding := fun h => h.2 rfl
  exact ⟨(idle 2 (srcOf [0x8C, 0x7D, 0x05]) (dstOf 9)).withFetchWord 32 3, t, ⟨⟨hi.loop.mem_wf, hi.loop.cursors,
    fun h => absurd h hd, fun h => absurd h hd, fun h => absurd h hd⟩, hi.boundary⟩, rfl, h1⟩

/-- A DECODE step from a state that is not legal but has canonical tables. -/
theorem witness_StepKeepsTheTablesCanonical : ∃ s t : State, s.mem.wf = true ∧ step s = .next t ∧ t.mem ≠ s.mem := by
  have h : answers (step ((entry6 (srcOf [0x06]) (dstOf 9)).withFetchWord 32 3))
      (fun t => decide (t.mem ≠ (entry6 (srcOf [0x06]) (dstOf 9)).mem)) = true := by
    decide +kernel
  obtain ⟨t, h1, h2⟩ := exists_of_answers h
  exact ⟨_, t, rfl, h1, of_decide_eq_true h2⟩

end Sys2Proof.Tests
end

section
/-! What a step does, one rule per event (00_scope.md R3, 70_reset_and_hazards.md R242), and the statement of 00_scope.md about it. -/

namespace Sys2Proof.Machine

/-- Consuming the first event leaves the other events and the rest of the state. -/
theorem State.popHost_of_host_eq {s : State} {e : HostEvent} {rest : List HostEvent} (hhost : s.host = e :: rest) :
    s.popHost = { s with host := rest } := by
  unfold State.popHost
  rw [hhost, List.tail_cons]

/-- A step of an unmarked state is its host's first event, on the state without it. -/
theorem step_of_host_eq {s : State} {e : HostEvent} {rest : List HostEvent} (hmark : s.refusedMark = none)
    (hhost : s.host = e :: rest) : step s = runEvent e { s with host := rest } := by
  rw [← State.popHost_of_host_eq hhost]
  unfold step
  rw [hmark, hhost]

/-- A command event whose word decodes runs the instruction the word is (30_encoding.md R89). -/
theorem runEvent_command_of_decode {w : CommandWord} {i : Instr} (hdecode : decodeCommand w = .ok i) (s : State) :
    runEvent (.command w) s = exec i s := by
  simp only [runEvent, runCommand, hdecode]

/-- Settles O14: the step is the command event, and a command event is `exec` of what its word decodes to. -/
theorem stepRunsTheDecodedCommand : Obligations.StepRunsTheDecodedCommand := by
  intro s w rest i hmark hhost hdecode
  calc step s = runEvent (.command w) { s with host := rest } := step_of_host_eq hmark hhost
    _ = exec i { s with host := rest } := runEvent_command_of_decode hdecode _

end Sys2Proof.Machine
end

section
/-! What one step can do, one inversion lemma per command and per event, and the statements of 10_state.md that follow from it. -/

namespace Sys2Proof.Machine

/-! ### What a step, an event and a command can answer -/

/-- A step of an unmarked state does nothing or performs the host's first event. -/
theorem step_next {s t : State} (h : step s = .next t) :
    t = s ∨ ∃ e rest, s.host = e :: rest ∧ runEvent e s.popHost = .next t := by
  unfold step at h
  split at h
  · cases h
  · injection h with h
    exact .inl h.symm
  · exact .inr ⟨_, _, ‹_›, h⟩

/-- A command word decodes to a host command, never to a code (30_encoding.md R89). -/
theorem decodeCommand_ok {w : CommandWord} {i : Instr} (h : decodeCommand w = .ok i) :
    i = .init ∨ (∃ v, i = .setLiteralWidth v) ∨ i = .decode := by
  unfold decodeCommand at h
  split at h
  · split at h
    · exact .inl (Except.ok.inj h).symm
    · cases h
  · split at h
    · exact .inr (.inl ⟨_, (Except.ok.inj h).symm⟩)
    · split at h
      · split at h
        · exact .inr (.inr (Except.ok.inj h).symm)
        · cases h
      · cases h

/-- The ways a command event ends: the three commands, or the refusal of its word (30_encoding.md R89). -/
theorem runCommand_next {w : CommandWord} {s t : State} (h : runCommand w s = .next t) :
    (decodeCommand w = .ok .init ∧ execInit s = .next t) ∨
      (∃ v, decodeCommand w = .ok (.setLiteralWidth v) ∧ execSetLiteralWidth v s = .next t) ∨
      (decodeCommand w = .ok .decode ∧ execDecode s = .next t) ∨
      ∃ e, decodeCommand w = .error e ∧ t = s.markRefused (.commandWord e) := by
  unfold runCommand at h
  split at h
  · rename_i i hdecode
    rcases decodeCommand_ok hdecode with rfl | ⟨v, rfl⟩ | rfl
    · exact .inl ⟨hdecode, h⟩
    · exact .inr (.inl ⟨v, hdecode, h⟩)
    · exact .inr (.inr (.inl ⟨hdecode, h⟩))
  · rename_i e hdecode
    injection h with h
    exact .inr (.inr (.inr ⟨e, hdecode, h.symm⟩))

/-- The entry checks of 60_exceptions.md R207: a block that is not ready responds and does nothing else, and a ready one runs the
rest of its command. -/
theorem entryChecks_next {s t : State} {rest : Host.Outcome State Fault Refusal}
    (h : (if s.initDone = false then .next (s.respond .initializerNotCalled)
      else if isError s.status then .next (s.respond s.status) else rest) = .next t) :
    (¬ s.ready ∧ ∃ o, t = s.respond o) ∨ (s.ready ∧ rest = .next t) := by
  split at h
  · rename_i hinit
    injection h with h
    exact .inl ⟨fun hready => by simp [hready.1] at hinit, _, h.symm⟩
  · rename_i hinit
    split at h
    · rename_i herror
      injection h with h
      exact .inl ⟨fun hready => by simp [hready.2] at herror, _, h.symm⟩
    · rename_i herror
      exact .inr ⟨⟨by simpa using hinit, by simpa using herror⟩, h⟩

/-- SET_LITERAL_WIDTH past its entry checks and with no decode suspended (40_host_commands.md R102). -/
theorem execSetLiteralWidth_of_ready_idle {s : State} (hready : s.ready) (hphase : s.phase = .idle) (w : BitVec 24) :
    execSetLiteralWidth w s = if legalLiteralWidth w then .next ((s.setLwReg w).respond s.status)
      else .next ((s.setLwReg w).raise .badLiteralWidth) := by
  unfold execSetLiteralWidth
  rw [if_neg (by simp [hready.1]), if_neg (by simp [hready.2]), if_neg (by simp [hphase])]

/-- The ways SET_LITERAL_WIDTH ends: an entry check, the refusal of R241, a legal width, an illegal one. -/
theorem execSetLiteralWidth_next {w : BitVec 24} {s t : State} (h : execSetLiteralWidth w s = .next t) :
    (¬ s.ready ∧ ∃ o, t = s.respond o) ∨ (s.ready ∧ s.phase ≠ .idle ∧ t = s.markRefused .literalWidthWhileSuspended) ∨
      (s.ready ∧ s.phase = .idle ∧ legalLiteralWidth w = true ∧ t = (s.setLwReg w).respond s.status) ∨
      (s.ready ∧ s.phase = .idle ∧ legalLiteralWidth w = false ∧ t = (s.setLwReg w).raise .badLiteralWidth) := by
  obtain hcheck | ⟨hready, hrest⟩ := entryChecks_next h
  · exact .inl hcheck
  split at hrest
  · rename_i hphase
    injection hrest with ht
    exact .inr (.inl ⟨hready, hphase, ht.symm⟩)
  · rename_i hphase
    split at hrest
    · rename_i hlegal
      injection hrest with ht
      exact .inr (.inr (.inl ⟨hready, not_not.1 hphase, hlegal, ht.symm⟩))
    · rename_i hlegal
      injection hrest with ht
      exact .inr (.inr (.inr ⟨hready, not_not.1 hphase, Bool.eq_false_iff.2 hlegal, ht.symm⟩))

/-- The ways DECODE ends: an entry check, the refusals of R244 and R245, or its loop (40_host_commands.md R103). -/
theorem execDecode_next {s t : State} (h : execDecode s = .next t) :
    (¬ s.ready ∧ ∃ o, t = s.respond o) ∨ (s.ready ∧ ¬ s.cursorsLegal ∧ t = s.markRefused .brokenCursor) ∨
      (s.ready ∧ s.cursorsLegal ∧ arraysOverlap s.src s.dst = true ∧ t = s.markRefused .overlappingArrays) ∨
      (s.ready ∧ s.portsAccepted ∧ decodeLoop (passBound s) s.beginCommand = .next t) := by
  obtain hcheck | ⟨hready, hrest⟩ := entryChecks_next h
  · exact .inl hcheck
  split at hrest
  · rename_i hbroken
    injection hrest with ht
    exact .inr (.inl ⟨hready, fun hcursors => by simp [hcursors.1, hcursors.2] at hbroken, ht.symm⟩)
  · rename_i hbroken
    have hcursors : s.cursorsLegal := by simpa [State.cursorsLegal] using hbroken
    split at hrest
    · rename_i hoverlap
      injection hrest with ht
      exact .inr (.inr (.inl ⟨hready, hcursors, hoverlap, ht.symm⟩))
    · rename_i hoverlap
      exact .inr (.inr (.inr ⟨hready, ⟨hcursors, by simpa using hoverlap⟩, hrest⟩))

/-! ### INIT_DONE and LW_REG (10_state.md R22, R24) -/

/-- INIT sets INIT_DONE and clears LW_REG (40_host_commands.md R101). -/
theorem execInit_initDone_lwReg {s t : State} (h : execInit s = .next t) : t.initDone = true ∧ t.lwReg = 0 := by
  injection h with h
  subst h
  exact ⟨rfl, rfl⟩

/-- DECODE writes neither INIT_DONE nor LW_REG, from any state. -/
theorem execDecode_initDone_lwReg {s t : State} (h : execDecode s = .next t) :
    t.initDone = s.initDone ∧ t.lwReg = s.lwReg := by
  rcases execDecode_next h with ⟨-, o, rfl⟩ | ⟨-, -, rfl⟩ | ⟨-, -, -, rfl⟩ | ⟨-, -, hloop⟩
  · exact ⟨rfl, rfl⟩
  · exact ⟨rfl, rfl⟩
  · exact ⟨rfl, rfl⟩
  · obtain ⟨⟨hinit, hlw, -, -⟩, -⟩ := decodeLoop_kept hloop
    exact ⟨hinit, hlw⟩

/-- SET_LITERAL_WIDTH leaves INIT_DONE, and stores its operand or leaves LW_REG. -/
theorem execSetLiteralWidth_initDone_lwReg {w : BitVec 24} {s t : State} (h : execSetLiteralWidth w s = .next t) :
    t.initDone = s.initDone ∧ (t.lwReg = s.lwReg ∨ t.lwReg = w) := by
  rcases execSetLiteralWidth_next h with ⟨-, o, rfl⟩ | ⟨-, -, rfl⟩ | ⟨-, -, -, rfl⟩ | ⟨-, -, -, rfl⟩
  · exact ⟨rfl, .inl rfl⟩
  · exact ⟨rfl, .inl rfl⟩
  · exact ⟨rfl, .inr rfl⟩
  · exact ⟨rfl, .inr rfl⟩

theorem hostSource_initDone_lwReg (new : SrcPort) (s : State) :
    (hostSource new s).initDone = s.initDone ∧ (hostSource new s).lwReg = s.lwReg := by
  unfold hostSource
  split <;> exact ⟨rfl, rfl⟩

theorem hostDestination_initDone_lwReg (new : DstPort) (s : State) :
    (hostDestination new s).initDone = s.initDone ∧ (hostDestination new s).lwReg = s.lwReg := by
  unfold hostDestination
  split <;> exact ⟨rfl, rfl⟩

/-- What a step does to INIT_DONE and LW_REG: only power-on, INIT and SET_LITERAL_WIDTH write them. -/
theorem step_initDone_lwReg {s t : State} (h : step s = .next t) :
    (t.initDone = s.initDone ∧ t.lwReg = s.lwReg) ∨
      (∃ rest, s.host = .powerOn :: rest ∧ t.initDone = false) ∨
      (∃ w rest, s.host = .command w :: rest ∧ decodeCommand w = .ok .init ∧ t.initDone = true ∧ t.lwReg = 0) ∨
      ∃ w rest v, s.host = .command w :: rest ∧ decodeCommand w = .ok (.setLiteralWidth v) ∧
        t.initDone = s.initDone ∧ t.lwReg = v := by
  obtain rfl | ⟨e, rest, hhost, hrun⟩ := step_next h
  · exact .inl ⟨rfl, rfl⟩
  cases e with
  | command w =>
    rcases runCommand_next hrun with ⟨hdecode, hexec⟩ | ⟨v, hdecode, hexec⟩ | ⟨-, hexec⟩ | ⟨e, -, rfl⟩
    · exact .inr (.inr (.inl ⟨w, rest, hhost, hdecode, execInit_initDone_lwReg hexec⟩))
    · obtain ⟨hinit, hlw | hlw⟩ := execSetLiteralWidth_initDone_lwReg hexec
      · exact .inl ⟨hinit, hlw⟩
      · exact .inr (.inr (.inr ⟨w, rest, v, hhost, hdecode, hinit, hlw⟩))
    · exact .inl (execDecode_initDone_lwReg (s := s.popHost) hexec)
    · exact .inl ⟨rfl, rfl⟩
  | concurrentCommand w =>
    injection hrun with hrun
    subst hrun
    exact .inl ⟨rfl, rfl⟩
  | source new =>
    injection hrun with hrun
    subst hrun
    exact .inl (hostSource_initDone_lwReg new _)
  | destination new =>
    injection hrun with hrun
    subst hrun
    exact .inl (hostDestination_initDone_lwReg new _)
  | powerOn =>
    injection hrun with hrun
    subst hrun
    exact .inr (.inl ⟨rest, hhost, rfl⟩)

/-- Settles O23: of the steps that write INIT_DONE or LW_REG, SET_LITERAL_WIDTH keeps INIT_DONE. -/
theorem onlyInitAndPowerOnChangeInitDone : Obligations.OnlyInitAndPowerOnChangeInitDone := by
  intro s t hstep hne
  rcases step_initDone_lwReg hstep with ⟨hinit, -⟩ | hpower | ⟨w, rest, hhost, hdecode, hinit, -⟩ | ⟨-, -, -, -, -, hinit, -⟩
  · exact absurd hinit hne
  · exact .inl hpower
  · exact .inr ⟨w, rest, hhost, hdecode, hinit⟩
  · exact absurd hinit hne

/-- Settles O24: the steps that write LW_REG are power-on, INIT and SET_LITERAL_WIDTH. -/
theorem onlySetLiteralWidthAndInitWriteLwReg : Obligations.OnlySetLiteralWidthAndInitWriteLwReg := by
  intro s t hstep hne
  rcases step_initDone_lwReg hstep with
    ⟨-, hlw⟩ | ⟨rest, hhost, -⟩ | ⟨w, rest, hhost, hdecode, -, hlw⟩ | ⟨w, rest, v, hhost, hdecode, -, hlw⟩
  · exact absurd hlw hne
  · exact .inl ⟨rest, hhost⟩
  · exact .inr (.inl ⟨w, rest, hhost, hdecode, hlw⟩)
  · exact .inr (.inr ⟨w, rest, v, hhost, hdecode, hlw⟩)

/-- Settles O27: past the entry checks a legal width is stored and STATUS is the response. -/
theorem setLiteralWidthStoresALegalWidth : Obligations.SetLiteralWidthStoresALegalWidth := by
  intro w s hready hphase hmin hmax
  calc exec (.setLiteralWidth w) s = execSetLiteralWidth w s := rfl
    _ = .next ((s.setLwReg w).respond s.status) := by
      rw [execSetLiteralWidth_of_ready_idle hready hphase, if_pos ((legalLiteralWidth_iff w).2 ⟨hmin, hmax⟩)]

/-- Settles O28: past the entry checks an illegal width is stored and its error raised, which keeps INIT_DONE, LW_REG, the
ports, the mark and the host's list (60_exceptions.md R209). -/
theorem setLiteralWidthPinsAnIllegalWidth : Obligations.SetLiteralWidthPinsAnIllegalWidth := by
  intro w s hready hphase hillegal
  have hlegal : ¬ legalLiteralWidth w = true := by
    rw [legalLiteralWidth_iff]
    omega
  have hexec : exec (.setLiteralWidth w) s = .next ((s.setLwReg w).raise .badLiteralWidth) :=
    (execSetLiteralWidth_of_ready_idle hready hphase w).trans (if_neg hlegal)
  exact ⟨_, hexec, rfl, rfl, rfl, hready.1, rfl, rfl, rfl, rfl⟩

end Sys2Proof.Machine
end

section
/-! The invariant of 10_state.md R41: it holds at reset and every step keeps it, whatever the event. -/

namespace Sys2Proof.Machine

/-! ### States with no decode in progress -/

/-- With no decode in progress the loop invariant asks for the canonical tables and the Cursors alone. -/
theorem State.LoopInv.of_not_decoding {s : State} (hmem : s.mem.wf = true) (hcursors : s.cursorsLegal)
    (hidle : ¬ s.decoding) : s.LoopInv :=
  ⟨hmem, hcursors, fun hd => absurd hd hidle, fun hd => absurd hd hidle, fun hd => absurd hd hidle⟩

/-- Before INIT and with an error pinned, so does the invariant. -/
theorem State.Inv.of_not_ready {s : State} (hmem : s.mem.wf = true) (hcursors : s.cursorsLegal) (hready : ¬ s.ready) :
    s.Inv :=
  ⟨.of_not_decoding hmem hcursors fun hd => hready hd.1, fun hr => absurd hr hready⟩

theorem State.raise_not_ready {e : Status} (h : isError e = true) (s : State) : ¬ (s.raise e).ready := fun hready => by
  have hstatus := hready.2
  rw [State.raise_status, h] at hstatus
  cases hstatus

theorem State.raise_inv {e : Status} (h : isError e = true) {s : State} (hcursors : s.cursorsLegal) : (s.raise e).Inv :=
  .of_not_ready (freeMemory_wf _) hcursors (State.raise_not_ready h s)

/-- Power-on clears INIT_DONE and the tables, so whatever it draws for PHASE and STATUS is no decode in progress. -/
theorem State.powerOn_inv {s : State} (hcursors : s.cursorsLegal) : s.powerOn.Inv :=
  .of_not_ready Memory.unwritten_wf hcursors fun hready => Bool.noConfusion hready.1

/-- Settles O57: at reset INIT_DONE is 0, so only the tables and the Cursors are asked for. -/
theorem resetMeetsTheInvariant : Obligations.ResetMeetsTheInvariant :=
  ⟨.of_not_ready Memory.unwritten_wf ⟨rfl, rfl⟩ (fun hready => Bool.noConfusion hready.1), rfl, fun _ => ⟨rfl, rfl, rfl⟩⟩

/-! ### Fields the invariant does not speak of -/

/-- The invariant says nothing of LW_REG, the response, the mark, the host's list and the draws, and of the Cursors only that
they are legal. -/
theorem State.Inv.of_fields {s t : State} (h : s.Inv) (hcursors : t.cursorsLegal)
    (hfields : t = { s with
      lwReg := t.lwReg, src := t.src, dst := t.dst, response := t.response, refusedMark := t.refusedMark
      host := t.host, draws := t.draws }) : t.Inv := by
  obtain ⟨⟨hmem, -, hregisters, htable, hflush⟩, hboundary⟩ := h
  rw [hfields]
  exact ⟨⟨hmem, hcursors, fun hd => { hregisters hd with }, htable, fun hd hphase => { hflush hd hphase with }⟩, hboundary⟩

theorem State.Inv.respond {s : State} (h : s.Inv) (o : Status) : (s.respond o).Inv := h.of_fields h.loop.cursors rfl

theorem State.Inv.markRefused {s : State} (h : s.Inv) (a : RefusedAction) : (s.markRefused a).Inv :=
  h.of_fields h.loop.cursors rfl

theorem State.Inv.setLwReg {s : State} (h : s.Inv) (w : BitVec 24) : (s.setLwReg w).Inv := h.of_fields h.loop.cursors rfl

/-! ### The host's changes keep the Cursors legal (70_reset_and_hazards.md R243, R244) -/

theorem srcChangeAllowed_wf {old new : SrcPort} (hold : old.wf = true) (h : srcChangeAllowed old new = true) :
    new.wf = true := by
  rw [SrcPort.wf_iff] at hold
  simp only [srcChangeAllowed, Bool.or_eq_true] at h
  rcases h with ((((happend | hconsume) | hcompact) | hoverwrite) | hclose) | hlimit
  · simp only [srcAppend, Bool.and_eq_true, decide_eq_true_eq] at happend
    obtain ⟨⟨⟨⟨⟨⟨hnew, -⟩, hwi⟩, hlength⟩, -⟩, -⟩, -⟩ := happend
    have hri : new.ri = old.ri := by rw [hnew]
    exact (SrcPort.wf_iff new).2 ⟨by omega, hlength⟩
  · simp only [srcConsume, Bool.and_eq_true, decide_eq_true_eq] at hconsume
    obtain ⟨⟨hnew, -⟩, hri⟩ := hconsume
    have hkept : new.wi = old.wi ∧ new.data = old.data := by rw [hnew]; exact ⟨rfl, rfl⟩
    exact (SrcPort.wf_iff new).2 ⟨hri, by rw [hkept.1, hkept.2]; exact hold.2⟩
  · simp only [srcCompact, Bool.and_eq_true] at hcompact
    obtain ⟨⟨⟨-, hwf⟩, -⟩, -⟩ := hcompact
    exact hwf
  · simp only [srcOverwrite, Bool.and_eq_true, decide_eq_true_eq] at hoverwrite
    obtain ⟨⟨hnew, hlength⟩, -⟩ := hoverwrite
    have hkept : new.ri = old.ri ∧ new.wi = old.wi := by rw [hnew]; exact ⟨rfl, rfl⟩
    exact (SrcPort.wf_iff new).2 ⟨by omega, by omega⟩
  · rw [of_decide_eq_true hclose]
    exact (SrcPort.wf_iff _).2 hold
  · simp only [srcLimit, Bool.and_eq_true, decide_eq_true_eq] at hlimit
    rw [hlimit.1]
    exact (SrcPort.wf_iff _).2 hold

theorem dstChangeAllowed_wf {old new : DstPort} (hold : old.wf = true) (h : dstChangeAllowed old new = true) :
    new.wf = true := by
  rw [DstPort.wf_iff] at hold
  simp only [dstChangeAllowed, Bool.or_eq_true] at h
  rcases h with (hdrain | hclose) | hlimit
  · simp only [dstDrain, Bool.and_eq_true] at hdrain
    exact hdrain.2
  · rw [of_decide_eq_true hclose]
    exact (DstPort.wf_iff _).2 hold
  · simp only [dstLimit, Bool.and_eq_true, decide_eq_true_eq] at hlimit
    rw [hlimit.1]
    exact (DstPort.wf_iff _).2 hold

theorem hostSource_inv {s : State} (h : s.Inv) (new : SrcPort) : (hostSource new s).Inv := by
  obtain ⟨hsrc, hdst⟩ := h.loop.cursors
  unfold hostSource
  split
  · exact h.of_fields ⟨srcChangeAllowed_wf hsrc ‹_›, hdst⟩ rfl
  · exact h.markRefused .hostChange

theorem hostDestination_inv {s : State} (h : s.Inv) (new : DstPort) : (hostDestination new s).Inv := by
  obtain ⟨hsrc, hdst⟩ := h.loop.cursors
  unfold hostDestination
  split
  · exact h.of_fields ⟨hsrc, dstChangeAllowed_wf hdst ‹_›⟩ rfl
  · exact h.markRefused .hostChange

/-! ### The commands -/

theorem isError_of_decodeError {o : Status} (h : decodeError o) : isError o = true := by
  rcases h with rfl | rfl | rfl | rfl <;> rfl

/-- The end of a DECODE is an error, or STATUS and PHASE agree (60_exceptions.md R202). -/
theorem State.Ended.statusPhase {t : State} (h : t.Ended) : t.statusPhase := by
  intro hready
  obtain ⟨-, herror | ⟨hstatus, hphase⟩ | ⟨hstatus, hphase⟩ | ⟨hstatus, hphase | hphase⟩⟩ := h
  · have hno := hready.2
    rw [isError_of_decodeError herror] at hno
    cases hno
  · simp [hstatus, hphase]
  · simp [hstatus, hphase]
  · simp [hstatus, hphase]
  · simp [hstatus, hphase]

/-- INIT leaves the block idle with OK and every table entry unwritten. -/
theorem execInit_inv {s t : State} (h : s.Inv) (hexec : execInit s = .next t) : t.Inv := by
  injection hexec with ht
  subst ht
  exact ⟨.of_not_decoding Memory.unwritten_wf h.loop.cursors fun hd => hd.2 rfl, fun _ => ⟨fun _ => rfl, by simp, by simp⟩⟩

theorem execSetLiteralWidth_inv {w : BitVec 24} {s t : State} (h : s.Inv) (hexec : execSetLiteralWidth w s = .next t) :
    t.Inv := by
  rcases execSetLiteralWidth_next hexec with ⟨-, o, rfl⟩ | ⟨-, -, rfl⟩ | ⟨-, -, -, rfl⟩ | ⟨-, -, -, rfl⟩
  · exact h.respond o
  · exact h.markRefused _
  · exact (h.setLwReg w).respond s.status
  · exact State.raise_inv rfl h.loop.cursors

/-- An accepted DECODE keeps the loop invariant and ends, so STATUS and PHASE agree again. -/
theorem execDecode_inv {s t : State} (h : s.Inv) (hexec : execDecode s = .next t) : t.Inv := by
  rcases execDecode_next hexec with ⟨-, o, rfl⟩ | ⟨-, -, rfl⟩ | ⟨-, -, -, rfl⟩ | ⟨hready, -, hloop⟩
  · exact h.respond o
  · exact h.markRefused .brokenCursor
  · exact h.markRefused .overlappingArrays
  · obtain ⟨u, hu, hinv, -, hended⟩ := decodeLoop_answers h.loop.beginCommand hready rfl
    have htu : t = u := Host.Outcome.next.inj (hloop.symm.trans hu)
    rw [htu]
    exact ⟨hinv, hended.statusPhase⟩

theorem runCommand_inv {w : CommandWord} {s t : State} (h : s.Inv) (hrun : runCommand w s = .next t) : t.Inv := by
  rcases runCommand_next hrun with ⟨-, hexec⟩ | ⟨v, -, hexec⟩ | ⟨-, hexec⟩ | ⟨e, -, rfl⟩
  · exact execInit_inv h hexec
  · exact execSetLiteralWidth_inv h hexec
  · exact execDecode_inv h hexec
  · exact h.markRefused _

/-- Every host event keeps the invariant. -/
theorem runEvent_inv {e : HostEvent} {s t : State} (h : s.Inv) (hrun : runEvent e s = .next t) : t.Inv := by
  cases e with
  | command w => exact runCommand_inv h hrun
  | concurrentCommand w =>
    injection hrun with hrun
    exact hrun ▸ h.markRefused .concurrentCommand
  | source new =>
    injection hrun with hrun
    exact hrun ▸ hostSource_inv h new
  | destination new =>
    injection hrun with hrun
    exact hrun ▸ hostDestination_inv h new
  | powerOn =>
    injection hrun with hrun
    exact hrun ▸ State.powerOn_inv h.loop.cursors

/-- Settles O58: a step does nothing or performs one host event, and each event keeps the invariant. -/
theorem stepKeepsTheInvariant : Obligations.StepKeepsTheInvariant := by
  intro s t hinv hstep
  obtain rfl | ⟨e, rest, -, hrun⟩ := step_next hstep
  · exact hinv
  · exact runEvent_inv (s := s.popHost) (hinv.of_fields hinv.loop.cursors rfl) hrun

end Sys2Proof.Machine
end

section
/-! The ports (20_memory.md R60 to R67): the effective limit, and how SrcRead, DstWrite and DstCopy end with a legal Cursor. -/

namespace Sys2Proof.Machine

/-! ### The effective limit (20_memory.md R62) -/

theorem effectiveLimit_eq_min? (l : List Nat) : effectiveLimit l = l.min? := by
  induction l with
  | nil => rfl
  | cons n l ih =>
    rw [effectiveLimit, List.min?_cons, ih]
    cases l.min? <;> rfl

/-- Settles O10: the effective limit is the library's minimum of a list. -/
theorem effectiveLimitIsTheLeast : Obligations.EffectiveLimitIsTheLeast := by
  intro l
  rw [effectiveLimit_eq_min?]
  exact ⟨List.min?_eq_none_iff, fun _ => List.min?_eq_some_iff⟩

/-! ### SrcRead (20_memory.md R63) -/

/-- Settles O11: each way SrcRead can end names the test it passed or failed. -/
theorem srcReadTestsLimitThenEmptyThenReads : Obligations.SrcReadTestsLimitThenEmptyThenReads := by
  intro s hwf
  cases hread : srcRead s with
  | fault f => exact absurd hread (srcRead_no_fault hwf f)
  | go b t =>
    obtain ⟨hbyte, hunread, hlimit, rfl⟩ := srcRead_go hread
    rw [if_neg (by simp [hunread, hlimit]), if_neg hunread]
    exact ⟨b, hbyte, rfl⟩
  | stop t =>
    obtain ⟨rfl, hshort⟩ | ⟨rfl, hlimit, hempty, hclosed⟩ := srcRead_stop hread
    · rw [if_pos hshort]
      rfl
    · rw [if_neg (by simp [hlimit, hclosed]), if_pos hempty]
      exact ⟨_, rfl, rfl, rfl, rfl, rfl⟩

/-! ### DstWrite and DstCopy (20_memory.md R66, R67) -/

/-- There is no space when the array is full or a limit is used up (20_memory.md R65). -/
theorem DstPort.space_eq_zero_iff {p : DstPort} (hwf : p.wf = true) : p.space = 0 ↔ p.wi = p.len ∨ 0 ∈ p.limits := by
  have hle := ((DstPort.wf_iff p).1 hwf).1
  rw [DstPort.space, capByLimit_eq_zero_iff]
  exact or_congr_left ⟨fun h => by omega, fun h => by omega⟩

/-- One byte appended is the byte at the write-index replaced. -/
theorem DstPort.append_singleton {p : DstPort} (h : p.wi < p.data.length) (b : Byte) : p.append [b] = { p with
    data := p.data.set p.wi b, wi := p.wi + 1, limits := p.limits.map (fun n => n - 1) } := by
  rw [List.set_eq_take_append_cons_drop, if_pos h, DstPort.append, List.append_assoc]
  rfl

/-- Settles O12: each way DstWrite can end names the test it passed or failed. -/
theorem dstWriteTestsClosedThenSpaceThenWrites : Obligations.DstWriteTestsClosedThenSpaceThenWrites := by
  intro b s hwf
  have hfull := DstPort.space_eq_zero_iff hwf
  cases hwrite : dstWrite b s with
  | fault f => exact absurd hwrite (dstWrite_no_fault hwf f)
  | go u t =>
    obtain ⟨hopen, hspace, hfits, rfl⟩ := dstWrite_go hwrite
    rw [if_neg (by simp [hopen]), if_neg (fun h => hspace (hfull.2 h)), DstPort.append_singleton (by omega)]
    rfl
  | stop t =>
    obtain ⟨hclosed, rfl⟩ | ⟨hopen, hspace, rfl⟩ := dstWrite_stop hwrite
    · rw [if_pos hclosed]
      exact ⟨_, rfl, rfl, rfl, rfl, rfl⟩
    · rw [if_neg (by simp [hopen]), if_pos (hfull.1 hspace)]
      rfl

/-- The appended bytes lie at the write-index. -/
theorem DstPort.append_inside {p : DstPort} (h : p.wi ≤ p.data.length) {bytes : List Byte} {j : Nat}
    (hj : j < bytes.length) : (p.append bytes).data[p.wi + j]? = bytes[j]? := by
  have htake : (p.data.take p.wi).length = p.wi := by
    rw [List.length_take]
    omega
  rw [DstPort.append, List.append_assoc, List.getElem?_append_right (by omega), htake, Nat.add_sub_cancel_left,
    List.getElem?_append_left hj]

theorem dstCopy_of_closed {s : State} (hclosed : s.dst.closed = true) (bytes : List Byte) :
    dstCopy bytes s = .stop (s.raise .closedForWrites) := if_pos hclosed

/-- Settles O13: on a closed port the error, on an open one the append of the bytes that fit. -/
theorem dstCopyMovesWhatFits : Obligations.DstCopyMovesWhatFits := by
  intro bytes s hwf
  split
  · rename_i hclosed
    exact ⟨_, dstCopy_of_closed hclosed bytes, rfl, rfl, rfl, rfl⟩
  · rename_i hopen
    obtain ⟨hwi, hlen⟩ := (DstPort.wf_iff _).1 hwf
    have hspace := s.dst.space_le
    have hcopied := copied_length bytes s
    refine ⟨_, _, dstCopy_of_open bytes hwf (by simpa using hopen), rfl, rfl, ?_, fun j hj => ?_, fun j hj => ?_⟩
    · rw [← hcopied]
      rfl
    · calc (s.dst.append (copied bytes s)).data[s.dst.wi + j]? = (copied bytes s)[j]? :=
          DstPort.append_inside (by omega) (by omega)
        _ = bytes[j]? := List.getElem?_take_of_lt hj
    · exact DstPort.append_outside (by omega) (by omega)

end Sys2Proof.Machine
end

section
/-! The Cursor changes the host may make (70_reset_and_hazards.md R243). -/

namespace Sys2Proof.Machine

/-! ### Bytes written over bytes of an array -/

section
variable {data bytes : List Byte} {i : Nat}

theorem length_overwrite (h : i + bytes.length ≤ data.length) :
    (data.take i ++ bytes ++ data.drop (i + bytes.length)).length = data.length := by
  simp only [List.length_append, List.length_take, List.length_drop]
  omega

theorem take_overwrite (h : i ≤ data.length) :
    (data.take i ++ bytes ++ data.drop (i + bytes.length)).take i = data.take i := by
  have htake : (data.take i).length = i := by
    rw [List.length_take]
    omega
  rw [List.append_assoc]
  exact List.take_left' htake

theorem drop_overwrite (h : i ≤ data.length) :
    (data.take i ++ bytes ++ data.drop (i + bytes.length)).drop (i + bytes.length) = data.drop (i + bytes.length) := by
  refine List.drop_left' ?_
  rw [List.length_append, List.length_take]
  omega

end

/-! ### The source -/

theorem srcChangeAllowed_iff (old new : SrcPort) : srcChangeAllowed old new = true ↔
    srcAppend old new = true ∨ srcConsume old new = true ∨ srcCompact old new = true ∨ srcOverwrite old new = true ∨
      srcClose old new = true ∨ srcLimit old new = true := by
  simp only [srcChangeAllowed, Bool.or_eq_true, or_assoc]

theorem SrcPort.unread_length {p : SrcPort} (hwf : p.wf = true) : p.unread.length = p.wi - p.ri := by
  obtain ⟨hri, hwi⟩ := (SrcPort.wf_iff p).1 hwf
  rw [SrcPort.unread, List.length_take, List.length_drop]
  omega

theorem limitPushed_cons (n : Nat) (l : List Nat) : limitPushed l (n :: l) = true := by
  simp [limitPushed]

section
variable {p : SrcPort}

theorem srcAppend_overwrite (hopen : p.closed = false) {bytes : List Byte} (hfits : p.wi + bytes.length ≤ p.data.length) :
    srcAppend p { p with
      data := p.data.take p.wi ++ bytes ++ p.data.drop (p.wi + bytes.length), wi := p.wi + bytes.length } = true := by
  simp only [srcAppend, length_overwrite hfits, take_overwrite (Nat.le_of_add_right_le hfits),
    drop_overwrite (Nat.le_of_add_right_le hfits), hopen]
  simpa using hfits

theorem srcConsume_advance {k : Nat} (h : p.ri + k ≤ p.wi) : srcConsume p { p with ri := p.ri + k } = true := by
  simpa [srcConsume] using h

/-- The unread bytes may lie at any index of another array. -/
theorem srcCompact_move (hwf : p.wf = true) (base : Nat) (old room : List Byte) : srcCompact p { p with
    base := base, data := old ++ p.unread ++ room, ri := old.length, wi := old.length + (p.wi - p.ri) } = true := by
  have hlen := SrcPort.unread_length hwf
  have hunread : SrcPort.unread { p with
      base := base, data := old ++ p.unread ++ room, ri := old.length, wi := old.length + (p.wi - p.ri) } = p.unread := by
    rw [SrcPort.unread, List.append_assoc, List.drop_left, Nat.add_sub_cancel_left]
    exact List.take_left' hlen
  simp [srcCompact, SrcPort.wf, hunread, hlen, -List.append_assoc]

theorem srcOverwrite_overwrite {bytes : List Byte} (hfits : p.ri + bytes.length ≤ p.data.length) :
    srcOverwrite p { p with data := p.data.take p.ri ++ bytes ++ p.data.drop (p.ri + bytes.length) } = true := by
  simp only [srcOverwrite, length_overwrite hfits, take_overwrite (Nat.le_of_add_right_le hfits)]
  simp

theorem srcLimit_push (p : SrcPort) (n : Nat) : srcLimit p { p with limits := n :: p.limits } = true := by
  simp [srcLimit, limitPushed_cons]

theorem srcLimit_pop (p : SrcPort) (n : Nat) : srcLimit { p with limits := n :: p.limits } p = true := by
  simp [srcLimit, limitPushed_cons]

end

/-! ### The destination -/

theorem dstChangeAllowed_iff (old new : DstPort) : dstChangeAllowed old new = true ↔
    dstDrain old new = true ∨ dstClose old new = true ∨ dstLimit old new = true := by
  simp only [dstChangeAllowed, Bool.or_eq_true, or_assoc]

/-- A drain brings any array, with the write-index anywhere in it. -/
theorem dstDrain_replace (q : DstPort) (base : Nat) {bytes : List Byte} {k : Nat} (h : k ≤ bytes.length) :
    dstDrain q { q with base := base, data := bytes, wi := k, len := bytes.length } = true := by
  simpa [dstDrain, DstPort.wf] using h

theorem dstDrain_rewind {q : DstPort} (hwf : q.wf = true) {k : Nat} (h : k ≤ q.len) :
    dstDrain q { q with wi := k } = true := by
  simpa [dstDrain, DstPort.wf, h] using ((DstPort.wf_iff q).1 hwf).2

theorem dstLimit_push (q : DstPort) (n : Nat) : dstLimit q { q with limits := n :: q.limits } = true := by
  simp [dstLimit, limitPushed_cons]

theorem dstLimit_pop (q : DstPort) (n : Nat) : dstLimit { q with limits := n :: q.limits } q = true := by
  simp [dstLimit, limitPushed_cons]

/-- Settles O20: each change is one of the kinds R243 lists. -/
theorem hostMayAppendConsumeCompactOverwriteCloseAndLimit :
    Obligations.HostMayAppendConsumeCompactOverwriteCloseAndLimit := by
  refine ⟨fun p bs k n base old room hwf => ?_, fun q k n base bs hwf => ?_⟩
  · simp only [srcChangeAllowed_iff]
    exact ⟨fun hopen hfits => .inl (srcAppend_overwrite hopen hfits), fun h => .inr (.inl (srcConsume_advance h)),
      .inr (.inr (.inl (srcCompact_move hwf base old room))),
      fun hfits => .inr (.inr (.inr (.inl (srcOverwrite_overwrite hfits)))),
      .inr (.inr (.inr (.inr (.inl (decide_eq_true rfl))))), .inr (.inr (.inr (.inr (.inr (srcLimit_push p n))))),
      .inr (.inr (.inr (.inr (.inr (srcLimit_pop p n)))))⟩
  · simp only [dstChangeAllowed_iff]
    exact ⟨fun h => .inl (dstDrain_rewind hwf h), fun h => .inl (dstDrain_replace q base h), .inr (.inl (decide_eq_true rfl)),
      .inr (.inr (dstLimit_push q n)), .inr (.inr (dstLimit_pop q n))⟩

end Sys2Proof.Machine
end

section
/-! What a command that stops or moves leaves behind: FILL without enough bits (41_bitstream_parser.md R133, R134), and DECODE's
frame (20_memory.md R60 to R65, R70). -/

namespace Sys2Proof.Machine

/-! ### FILL without enough bits -/

theorem parseCode_no_fault {s : State} (hwf : s.src.wf = true) (f : Fault) : parseCode s ≠ .fault f := by
  intro hparse
  rcases Flow.andThen_eq_fault hparse with hfill | ⟨_, _, _, hextract⟩
  · exact fillLoop_no_fault hwf f hfill
  · cases hextract

/-- ParseCode stops where FILL does: SrcRead ended the command after some bytes were pushed, and the stream is as it was. -/
theorem parseCode_stop {s t : State} (hwf : s.src.wf = true) (h : parseCode s = .stop t) :
    ∃ r, s.FilledTo r ∧ srcRead r = .stop t ∧
      (s.accumulatorLegal → s.width.toNat ≤ 12 → s.nbits.toNat < s.width.toNat + 8 →
        r.streamValue = s.streamValue ∧ r.streamLength = s.streamLength) := by
  rcases Flow.andThen_eq_stop h with hfill | ⟨_, _, _, hextract⟩
  · obtain ⟨r, hfilled, hread, -, hstream⟩ := fillLoop_stop hwf hfill
    exact ⟨r, hfilled, hread, fun ha hmax hlt => (hstream ha hmax hlt).2⟩
  · cases hextract

/-- ParseCode goes on only when the accumulator and the available bytes hold WIDTH bits. -/
theorem width_le_of_parseCode_go {s t : State} {u : Unit} (hwf : s.src.wf = true) (ha : s.accumulatorLegal)
    (hmax : s.width.toNat ≤ 12) (hlt : s.nbits.toNat < s.width.toNat + 8) (h : parseCode s = .go u t) :
    s.width.toNat ≤ s.nbits.toNat + 8 * s.src.available := by
  obtain ⟨-, hread, htwf, hstream⟩ := parseCode_go hwf h
  obtain ⟨-, -, -, -, hlength⟩ := hstream ha hmax hlt
  have hbounded := hread.bounded
  have hri := hread.ri_le
  have hend := ((SrcPort.wf_iff _).1 htwf).1
  rw [State.streamLength, State.streamLength, hread.unmoved.2.2.1] at hlength
  rw [hread.unmoved.2.2.1] at hend
  omega

/-- What is available once some bytes have been read (20_memory.md R62, R64). -/
theorem SrcPort.ReadTo.available_eq {p q : SrcPort} (h : p.ReadTo q) : q.available = p.available - (q.ri - p.ri) := by
  have hri := h.ri_le
  have hlimits : q.limits = decrementLimits (q.ri - p.ri) p.limits := by rw [h.fields]
  rw [SrcPort.available, hlimits, h.unmoved.2.2.1, show p.wi - q.ri = p.wi - p.ri - (q.ri - p.ri) by omega,
    capByLimit_sub h.bounded, SrcPort.available]

/-- SrcRead ends a command only when no byte is available, and leaves the Cursor. -/
theorem srcRead_stop_src {s t : State} (h : srcRead s = .stop t) : s.src.available = 0 ∧ t.src = s.src := by
  rw [SrcPort.available, capByLimit_eq_zero_iff]
  obtain ⟨rfl, hlimit | ⟨hempty, -⟩⟩ | ⟨rfl, -, hempty, -⟩ := srcRead_stop h
  · exact ⟨.inr hlimit, rfl⟩
  · exact ⟨.inl (by omega), rfl⟩
  · exact ⟨.inl (by omega), rfl⟩

/-- Settles O9: FILL cannot go on, so it stops at a SrcRead that finds no byte available, with the stream as it was. -/
theorem parserSuspendsWithoutLosingBits : Obligations.ParserSuspendsWithoutLosingBits := by
  intro s hwf hacc hmax hfew
  cases hparse : parseCode s with
  | fault f => exact absurd hparse (parseCode_no_fault hwf f)
  | go u t =>
    have henough := width_le_of_parseCode_go hwf hacc hmax (by omega) hparse
    omega
  | stop t =>
    obtain ⟨r, hfilled, hread, hstream⟩ := parseCode_stop hwf hparse
    obtain ⟨hvalue, hlength⟩ := hstream hacc hmax (by omega)
    obtain ⟨hnone, hsrc⟩ := srcRead_stop_src hread
    have hall : r.src.ri = s.src.ri + s.src.available := by
      have hleft := hfilled.src.available_eq
      have hbounded := hfilled.src.bounded
      have hri := hfilled.src.ri_le
      omega
    have hclosed : r.src.closed = s.src.closed := hfilled.src.unmoved.2.2.2
    have hdst : r.dst = s.dst := by rw [hfilled.fields]
    have hkept : r.phase = s.phase ∧ r.width = s.width ∧ r.mem = s.mem := by
      rw [hfilled.fields]
      exact ⟨rfl, rfl, rfl⟩
    refine ⟨t, rfl, by rw [hsrc, hall], hsrc ▸ hfilled.src, ?_⟩
    rw [hsrc, ← hclosed]
    obtain ⟨rfl, hshort⟩ | ⟨rfl, hlimit, -, heof⟩ := srcRead_stop hread
    · refine ⟨rfl, hdst, fun _ => ⟨rfl, hvalue, hlength, hkept⟩, fun ⟨hlimit, heof⟩ => ?_⟩
      simp [hlimit, heof] at hshort
    · refine ⟨rfl, hdst, fun hshort => ?_, fun _ => rfl⟩
      simp [hlimit, heof] at hshort

/-! ### DECODE's frame -/

/-- Settles O35: an entry check and a refusal move nothing, and the loop of an accepted DECODE moves the ports only. -/
theorem decodeMovesOnlyThroughThePorts : Obligations.DecodeMovesOnlyThroughThePorts := by
  intro s t hexec
  rcases execDecode_next hexec with ⟨-, o, rfl⟩ | ⟨-, -, rfl⟩ | ⟨-, -, -, rfl⟩ | ⟨-, hports, hloop⟩
  · exact ⟨rfl, rfl, rfl, .refl _, .refl _⟩
  · exact ⟨rfl, rfl, rfl, .refl _, .refl _⟩
  · exact ⟨rfl, rfl, rfl, .refl _, .refl _⟩
  · have hsrc : s.src.wf = true := hports.1.1
    have hkept := (decodeLoop_kept hloop).2 hsrc
    exact ⟨hkept.initDone, hkept.lwReg, hkept.host, (hkept.src hsrc).1, hkept.dst⟩

end Sys2Proof.Machine
end

section
/-! The canonical form of the tables: every operation that may end a command keeps it, and so every step, from every state
(20_memory.md R50, R54). -/

namespace Sys2Proof.Machine

/-- An operation leaves canonical tables, whether it goes on or ends the command. -/
def Flow.TablesWf {α : Type} : Flow α → Prop
  | .go _ s => s.mem.wf = true
  | .stop s => s.mem.wf = true
  | .fault _ => True

theorem Flow.TablesWf.andThen {α β : Type} {x : Flow α} {f : α → State → Flow β} (hx : x.TablesWf)
    (hf : ∀ a t, t.mem.wf = true → (f a t).TablesWf) : (x.andThen f).TablesWf := by
  cases x with
  | go a t => exact hf a t hx
  | stop t => exact hx
  | fault e => trivial

theorem Flow.TablesWf.of_toOutcome {x : Flow Unit} {t : State} (hx : x.TablesWf) (h : x.toOutcome = .next t) :
    t.mem.wf = true := by
  rcases Flow.toOutcome_eq_next h with rfl | rfl <;> exact hx

theorem State.raise_mem_wf (e : Status) (s : State) : (s.raise e).mem.wf = true := freeMemory_wf s.draws

section
variable {s : State}

/-! ### The port operations -/

theorem srcRead_tablesWf (h : s.mem.wf = true) : (srcRead s).TablesWf := by
  cases hread : srcRead s with
  | go b t =>
    obtain ⟨-, -, -, rfl⟩ := srcRead_go hread
    exact h
  | stop t =>
    obtain ⟨rfl, -⟩ | ⟨rfl, -⟩ := srcRead_stop hread
    · exact h
    · exact s.raise_mem_wf _
  | fault f => trivial

theorem dstWrite_tablesWf (b : Byte) (h : s.mem.wf = true) : (dstWrite b s).TablesWf := by
  cases hwrite : dstWrite b s with
  | go u t =>
    obtain ⟨-, -, -, rfl⟩ := dstWrite_go hwrite
    exact h
  | stop t =>
    obtain ⟨-, rfl⟩ | ⟨-, -, rfl⟩ := dstWrite_stop hwrite
    · exact s.raise_mem_wf _
    · exact h
  | fault f => trivial

theorem dstCopy_tablesWf (bytes : List Byte) (h : s.mem.wf = true) : (dstCopy bytes s).TablesWf := by
  cases hcopy : dstCopy bytes s with
  | go k t =>
    obtain ⟨-, -, -, rfl⟩ := dstCopy_go hcopy
    exact h
  | stop t =>
    obtain ⟨-, rfl⟩ := dstCopy_stop hcopy
    exact s.raise_mem_wf _
  | fault f => trivial

/-! ### The parser, the walk, the literal write and the flush -/

theorem fillLoop_tablesWf (n : Nat) (h : s.mem.wf = true) : (fillLoop n s).TablesWf := by
  induction n generalizing s with
  | zero => exact h
  | succ n ih =>
    unfold fillLoop
    split
    · exact (srcRead_tablesWf h).andThen fun b t ht => ih (s := t.pushByte b) ht
    · exact h

theorem parseCode_tablesWf (h : s.mem.wf = true) : (parseCode s).TablesWf :=
  (fillLoop_tablesWf 2 h).andThen fun _ _ ht => ht

/-- A walk writes STACK inside the table only. -/
theorem walkChain_literal_wf {clear : BitVec 9} {pre : Table 16} {suf : Table 8} {i start : Nat} {x head : CodeValue}
    {stack stack' : Table 8} (hi : i < 4096) (hstack : Table.wf stack = true)
    (h : walkChain clear pre suf i x stack = .literal stack' start head) : Table.wf stack' = true := by
  induction i generalizing x stack with
  | zero =>
    unfold walkChain at h
    split at h
    · injection h with h
      exact h ▸ Table.wf_write _ hstack hi
    · split at h <;> cases h
  | succ i ih =>
    unfold walkChain at h
    split at h
    · injection h with h
      exact h ▸ Table.wf_write _ hstack hi
    · split at h
      · exact ih (by omega) (Table.wf_write _ hstack hi) h
      · cases h

theorem walk_tablesWf (kw : Bool) (c : CodeValue) (h : s.mem.wf = true) : (walk kw c s).TablesWf := by
  obtain ⟨hprefix, hsuffix, hstack⟩ := (Memory.wf_iff _).1 h
  have hstart : (walkStart kw c s).1 < 4096 := by
    unfold walkStart
    split <;> simp
  unfold walk
  split
  · trivial
  · exact s.raise_mem_wf _
  · rename_i stack start head hwalk
    have hwf := walkChain_literal_wf hstart hstack hwalk
    refine (Memory.wf_iff _).2 ⟨hprefix, hsuffix, ?_⟩
    rw [State.setExpansion_mem]
    show Table.wf (if kw then _ else _) = true
    split
    · exact Table.wf_write _ hwf (by decide)
    · exact hwf

theorem emitLiteral_tablesWf (h : s.mem.wf = true) : (emitLiteral s).TablesWf :=
  (dstWrite_tablesWf _ h).andThen fun _ _ ht => ht

theorem flushThenUpdate_tablesWf (h : s.mem.wf = true) : (flushThenUpdate s).TablesWf := by
  refine Flow.TablesWf.andThen ?_ fun _ _ ht => State.update_wf ht
  unfold flush
  split
  · trivial
  · refine (dstCopy_tablesWf _ h).andThen fun k t ht => ?_
    split <;> exact ht

/-! ### The codes -/

variable {t : State}

theorem literalStep_mem_wf (h : s.mem.wf = true) (hstep : literalStep s = .next t) : t.mem.wf = true := by
  refine Flow.TablesWf.of_toOutcome ?_ hstep
  exact (emitLiteral_tablesWf h).andThen fun _ _ ht => State.update_wf ht

theorem flushStep_mem_wf (h : s.mem.wf = true) (hstep : flushStep s = .next t) : t.mem.wf = true :=
  (flushThenUpdate_tablesWf h).of_toOutcome hstep

theorem expandStep_mem_wf {kw : Bool} {c : CodeValue} (h : s.mem.wf = true) (hstep : expandStep kw c s = .next t) :
    t.mem.wf = true := by
  refine Flow.TablesWf.of_toOutcome ?_ hstep
  exact (walk_tablesWf kw c h).andThen fun _ _ ht => flushThenUpdate_tablesWf ht

/-- The instruction of every code keeps the canonical form. -/
theorem dispatchCode_mem_wf {c : CodeValue} (h : s.mem.wf = true) (hstep : dispatchCode c s = .next t) :
    t.mem.wf = true := by
  unfold dispatchCode classify at hstep
  split at hstep
  · exact literalStep_mem_wf (s := s.enterCode c .emitLit) h hstep
  split at hstep
  · injection hstep with hstep
    exact hstep ▸ h
  split at hstep
  · injection hstep with hstep
    exact hstep ▸ h
  split at hstep
  · exact expandStep_mem_wf h hstep
  split at hstep
  · exact expandStep_mem_wf h hstep
  · injection hstep with hstep
    exact hstep ▸ s.raise_mem_wf _

/-! ### DECODE -/

theorem freshStart_mem_wf (h : s.mem.wf = true) : (freshStart s).mem.wf = true := by
  unfold freshStart
  split
  · exact h
  · exact s.raise_mem_wf _

theorem decodePass_mem_wf (h : s.mem.wf = true) (hpass : decodePass s = .next t) : t.mem.wf = true := by
  unfold decodePass at hpass
  split at hpass
  · injection hpass with hpass
    exact hpass ▸ freshStart_mem_wf h
  · have hparse := parseCode_tablesWf h
    split at hpass
    · rename_i u hgo
      rw [hgo] at hparse
      exact dispatchCode_mem_wf hparse hpass
    · rename_i u hstop
      rw [hstop] at hparse
      injection hpass with hpass
      exact hpass ▸ hparse
    · cases hpass
  · exact literalStep_mem_wf h hpass
  · exact flushStep_mem_wf h hpass

theorem decodeLoop_mem_wf {n : Nat} (h : s.mem.wf = true) (hloop : decodeLoop n s = .next t) : t.mem.wf = true := by
  induction n generalizing s with
  | zero => cases hloop
  | succ n ih =>
    unfold decodeLoop at hloop
    split at hloop
    · rename_i u hpass
      have hu := decodePass_mem_wf h hpass
      split at hloop
      · injection hloop with hloop
        exact hloop ▸ hu
      · exact ih hu hloop
    · cases hloop
    · cases hloop

theorem execDecode_mem_wf (h : s.mem.wf = true) (hexec : execDecode s = .next t) : t.mem.wf = true := by
  rcases execDecode_next hexec with ⟨-, o, rfl⟩ | ⟨-, -, rfl⟩ | ⟨-, -, -, rfl⟩ | ⟨-, -, hloop⟩
  · exact h
  · exact h
  · exact h
  · exact decodeLoop_mem_wf (s := s.beginCommand) h hloop

/-! ### The other commands and events -/

theorem execSetLiteralWidth_mem_wf {w : BitVec 24} (h : s.mem.wf = true) (hexec : execSetLiteralWidth w s = .next t) :
    t.mem.wf = true := by
  rcases execSetLiteralWidth_next hexec with ⟨-, o, rfl⟩ | ⟨-, -, rfl⟩ | ⟨-, -, -, rfl⟩ | ⟨-, -, -, rfl⟩
  · exact h
  · exact h
  · exact h
  · exact State.raise_mem_wf _ _

theorem runCommand_mem_wf {w : CommandWord} (h : s.mem.wf = true) (hrun : runCommand w s = .next t) :
    t.mem.wf = true := by
  rcases runCommand_next hrun with ⟨-, hexec⟩ | ⟨v, -, hexec⟩ | ⟨-, hexec⟩ | ⟨e, -, rfl⟩
  · injection hexec with hexec
    exact hexec ▸ Memory.unwritten_wf
  · exact execSetLiteralWidth_mem_wf h hexec
  · exact execDecode_mem_wf h hexec
  · exact h

theorem hostSource_mem (new : SrcPort) (s : State) : (hostSource new s).mem = s.mem := by
  unfold hostSource
  split <;> rfl

theorem hostDestination_mem (new : DstPort) (s : State) : (hostDestination new s).mem = s.mem := by
  unfold hostDestination
  split <;> rfl

theorem runEvent_mem_wf {e : HostEvent} (h : s.mem.wf = true) (hrun : runEvent e s = .next t) : t.mem.wf = true := by
  cases e with
  | command w => exact runCommand_mem_wf h hrun
  | concurrentCommand w =>
    injection hrun with hrun
    exact hrun ▸ h
  | source new =>
    injection hrun with hrun
    rw [← hrun, hostSource_mem, h]
  | destination new =>
    injection hrun with hrun
    rw [← hrun, hostDestination_mem, h]
  | powerOn =>
    injection hrun with hrun
    exact hrun ▸ Memory.unwritten_wf

end

/-- Settles O59: a step does nothing or performs one host event, and each event keeps the canonical form. -/
theorem stepKeepsTheTablesCanonical : Obligations.StepKeepsTheTablesCanonical := by
  intro s t hwf hstep
  obtain rfl | ⟨e, rest, -, hrun⟩ := step_next hstep
  · exact hwf
  · exact runEvent_mem_wf (s := s.popHost) hwf hrun

end Sys2Proof.Machine
end

section
/-! Expansions: what Update does as one statement, what COPY and KWKWK write when it fits, what the new entry expands to, and
when the walk faults (20_memory.md R54, R56 to R58, 42_code_semantics.md R154 to R160, 43_expansion_and_flush.md R180 to R184). -/

namespace Sys2Proof.Machine

/-! ### Update -/

/-- Update makes an entry: the table is not full and there is a previous code (42_code_semantics.md R157). -/
abbrev State.makesEntry (s : State) : Prop := s.saveCode.toNat ≤ 4095 ∧ s.saveCode.toNat ≠ s.endCode.toNat

section
variable {s : State}

theorem State.update_mem_of_makesEntry (h : s.makesEntry) : s.update.mem = s.addEntry.mem := by
  rw [State.update_mem, if_pos ⟨h.1, s.hasPrev_iff.2 h.2⟩]

theorem State.update_mem_of_not_makesEntry (h : ¬ s.makesEntry) : s.update.mem = s.mem := by
  rw [State.update_mem, if_neg fun hc => h ⟨hc.1, s.hasPrev_iff.1 hc.2⟩]

theorem State.update_prefix_read (k : Nat) : Table.read s.update.mem.prefixTab k =
    if k = s.saveCode.toNat ∧ s.makesEntry then some (s.prevCode.setWidth 16) else Table.read s.mem.prefixTab k := by
  by_cases h : s.makesEntry
  · rw [State.update_mem_of_makesEntry h]
    exact (Table.read_write _ _ _ _).trans (if_congr ⟨fun e => ⟨e.symm, h⟩, fun e => e.1.symm⟩ rfl rfl)
  · rw [State.update_mem_of_not_makesEntry h, if_neg fun hc => h hc.2]

theorem State.update_suffix_read (k : Nat) : Table.read s.update.mem.suffixTab k =
    if k = s.saveCode.toNat ∧ s.makesEntry then some s.first else Table.read s.mem.suffixTab k := by
  by_cases h : s.makesEntry
  · rw [State.update_mem_of_makesEntry h]
    exact (Table.read_write _ _ _ _).trans (if_congr ⟨fun e => ⟨e.symm, h⟩, fun e => e.1.symm⟩ rfl rfl)
  · rw [State.update_mem_of_not_makesEntry h, if_neg fun hc => h hc.2]

theorem State.update_stackTab : s.update.mem.stackTab = s.mem.stackTab := by
  rw [State.update_mem]
  split <;> rfl

end

/-- Update from every state, legal or not (42_code_semantics.md R157 to R160). -/
theorem State.update_updatedTo (s : State) : s.UpdatedTo s.update where
  prefix_read := s.update_prefix_read
  suffix_read := s.update_suffix_read
  stack_eq := s.update_stackTab
  save_eq := by
    rw [State.update_saveCode]
    split
    · have hone : (1 : BitVec 13).toNat = 1 := rfl
      rw [BitVec.toNat_add]
      omega
    · rfl
  width_eq := by
    by_cases hwidth : s.width.toNat ≤ 12
    · exact s.update_width_toNat hwidth
    · have hsame : widthGrows (s.saveCode + 1) s.width = false := by
        have : ¬ s.width.toNat < Config.maxWidth := fun h => hwidth (Nat.le_of_lt h)
        simp [widthGrows, this]
      have hlarge : ¬ s.width.toNat < 12 := fun h => hwidth (Nat.le_of_lt h)
      rw [State.update_width, hsame]
      simp [hlarge]
  fields := by
    unfold State.update
    split
    · split <;> rfl
    · rfl

/-! ### COPY and KWKWK when their bytes fit -/

/-- The bytes of a walk whose chain expands to `l` with first byte `b`: for KWKWK that byte again after them
(43_expansion_and_flush.md R183). -/
def expandedBytes (kw : Bool) (l : List Byte) (b : Byte) : List Byte := if kw then l ++ [b] else l

theorem expandedBytes_length (kw : Bool) (l : List Byte) (b : Byte) :
    (expandedBytes kw l b).length = l.length + kw.toNat := by
  cases kw
  · rfl
  · exact List.length_append

/-- KWKWK keeps the last slot of STACK for its extra byte. -/
theorem walkStart_slots (kw : Bool) (c : CodeValue) (s : State) : (walkStart kw c s).1 + 1 = 4096 - kw.toNat := by
  cases kw <;> rfl

/-- The state in which `bytes` of the code `c` have been walked onto STACK and written out, before Update. -/
def State.expanded (c : CodeValue) (bytes : List Byte) (stack : Table 8) (b : Byte) (s : State) : State :=
  { s with
    code := c, first := b, stackStart := BitVec.ofNat 12 (4096 - bytes.length), flushed := BitVec.ofNat 13 bytes.length
    mem := { s.mem with stackTab := stack }, dst := s.dst.append bytes }

/-- A flush that begins at STACK_START and has space for all of it writes all of it. -/
theorem flushStep_of_fits {s : State} {bytes : List Byte} (hwf : s.dst.wf = true) (hopen : s.dst.closed = false)
    (hflushed : s.flushed = 0) (hstart : s.stackStart.toNat = 4096 - bytes.length) (hlen : bytes.length ≤ 4096)
    (hrun : Table.readRun s.mem.stackTab (4096 - bytes.length) bytes.length = some bytes)
    (hfit : bytes.length ≤ s.dst.space) :
    flushStep s = .next (State.update { s with flushed := BitVec.ofNat 13 bytes.length, dst := s.dst.append bytes }) := by
  have htail : tailStart s = 4096 - bytes.length := by
    rw [tailStart, hflushed, hstart]
    rfl
  have hcount : 4096 - (4096 - bytes.length) = bytes.length := by omega
  rw [flushStep_of_open hwf hopen (by rw [htail, hcount, hrun]) (by omega), if_pos hfit, hstart, hcount]

/-- COPY and KWKWK of a chain that has an expansion, on an open destination with space for it. -/
theorem expandStep_of_fits {kw : Bool} {c : CodeValue} {s : State} {l : List Byte} (hwf : s.dst.wf = true)
    (hopen : s.dst.closed = false) (hexp : s.exp (walkStart kw c s).2 = some l) (hlen : l.length + kw.toNat ≤ 4096)
    (hfit : l.length + kw.toNat ≤ s.dst.space) :
    ∃ stack b, l.head? = some b ∧
      expandStep kw c s = .next (s.expanded c (expandedBytes kw l b) stack b).update ∧
      Table.readRun stack (4096 - (l.length + kw.toNat)) (l.length + kw.toNat) = some (expandedBytes kw l b) ∧
      ∀ j, j < 4096 - (l.length + kw.toNat) → Table.read stack j = Table.read s.mem.stackTab j := by
  have hslots := walkStart_slots kw c s
  have hpos := expansion_pos hexp
  obtain ⟨stack, b, hstep, hhead, hrun, hbelow⟩ := expandStep_of_exp hexp (by omega)
  have hbytes := expandedBytes_length kw l b
  have hstart : (walkStart kw c s).1 + 1 - l.length = 4096 - (l.length + kw.toNat) := by omega
  rw [hstart, show 4096 - (4096 - (l.length + kw.toNat)) = l.length + kw.toNat by omega] at hrun
  rw [hstart] at hstep hbelow
  refine ⟨stack, b, hhead, ?_, hrun, hbelow⟩
  rw [← hbytes] at hstep hrun
  have hstackStart : (BitVec.ofNat 12 (4096 - (expandedBytes kw l b).length)).toNat = 4096 - (expandedBytes kw l b).length := by
    rw [BitVec.toNat_ofNat]
    omega
  rw [hstep, flushStep_of_fits (bytes := expandedBytes kw l b)
    (s := (s.setExpansion stack (4096 - (expandedBytes kw l b).length) b).enterCode c .flush)
    hwf hopen rfl hstackStart (by omega) hrun (hbytes ▸ hfit)]
  exact congrArg _ (State.update_setPhase (s.expanded c (expandedBytes kw l b) stack b) .flush)

/-- Settles O45: the flush writes the whole expansion, and Update follows. -/
theorem copyWritesItsExpansionAndUpdates : Obligations.CopyWritesItsExpansionAndUpdates := by
  intro c s l hwf hopen hexp hlen hfit
  obtain ⟨stack, b, hhead, hstep, hrun, hbelow⟩ := expandStep_of_fits (kw := false) (c := c) hwf hopen hexp hlen hfit
  exact ⟨_, stack, b, hstep, hhead, hrun, hbelow, State.update_updatedTo _⟩

/-! ### Expansions in a legal table (20_memory.md R56 to R58) -/

/-- A code's expansion in a legal table needs fewer links than there are codes. -/
theorem State.TableLegal.expansion_of_exp {s : State} (ht : s.TableLegal) (hend : s.endCode.toNat = s.clearCode.toNat + 1)
    {c : CodeValue} (ho : s.ordinaryCode c) (hc : c.toNat < s.saveCode.toNat) {l : List Byte} (h : s.exp c = some l) :
    expansion s.codeSpace s.mem.prefixTab s.mem.suffixTab 4095 c = some l ∧
      l.length ≤ c.toNat - s.endCode.toNat + 1 := by
  obtain ⟨l', hl', hlen⟩ := ht.expansion_some hend 4095 (by omega) ho hc
  have hexp : s.exp c = some l' := expansion_mono hl' (by omega)
  obtain rfl : l = l' := Option.some.inj (h.symm.trans hexp)
  exact ⟨hl', hlen⟩

/-- The expansion of an entry is that of the code in PREFIX with the byte in SUFFIX after it (20_memory.md R56). -/
theorem expansion_entry {k : CodeSpace} {pre : Table 16} {suf : Table 8} {fuel : Nat} {c : CodeValue} {p : BitVec 16}
    {b : Byte} {l : List Byte} (hlit : ¬ c.toNat < k.clearCode.toNat) (hend : k.endCode.toNat < c.toNat)
    (hsave : c.toNat < k.saveCode.toNat) (hp : Table.read pre c.toNat = some p) (hb : Table.read suf c.toNat = some b)
    (hl : expansion k pre suf fuel (chainLink p) = some l) : expansion k pre suf (fuel + 1) c = some (l ++ [b]) := by
  simp [expansion, hlit, hend, hsave, hp, hb, hl]

/-- The entry Update makes expands to PREV_CODE's expansion with FIRST after it (42_code_semantics.md R157). -/
theorem State.update_exp_saveCode {s : State} (h : s.makesEntry) (hend : s.endCode.toNat = s.clearCode.toNat + 1)
    {c : CodeValue} (hc : c.toNat = s.saveCode.toNat) (hgt : s.endCode.toNat < c.toNat) {l : List Byte}
    (hprev : expansion s.codeSpace s.mem.prefixTab s.mem.suffixTab 4095 s.prevCode = some l) :
    s.update.exp c = some (l ++ [s.first]) := by
  have hsave : s.update.saveCode.toNat = s.saveCode.toNat + 1 := by
    rw [s.update_updatedTo.save_eq, if_pos h.1]
  have hgrown : expansion s.update.codeSpace s.update.mem.prefixTab s.update.mem.suffixTab 4095 s.prevCode = some l := by
    refine expansion_grow (k := s.codeSpace) s.update_clearCode s.update_endCode ?_ (fun i hi => ⟨?_, ?_⟩) hprev
    · rw [State.codeSpace_saveCode, State.codeSpace_saveCode, hsave]
      omega
    · rw [State.update_prefix_read, if_neg fun hc => Nat.ne_of_lt hi hc.1]
    · rw [State.update_suffix_read, if_neg fun hc => Nat.ne_of_lt hi hc.1]
  refine expansion_entry (fuel := 4095) (p := prefixEntry s.prevCode) ?_ ?_ ?_ ?_ ?_ ?_
  · rw [State.codeSpace_clearCode, State.update_clearCode]
    omega
  · rw [State.codeSpace_endCode, State.update_endCode]
    exact hgt
  · rw [State.codeSpace_saveCode, hsave]
    omega
  · rw [State.update_prefix_read, if_pos ⟨hc, h⟩]
    rfl
  · rw [State.update_suffix_read, if_pos ⟨hc, h⟩]
  · rw [chainLink_prefixEntry]
    exact hgrown

/-- Settles O47: KWKWK writes the expansion of PREV_CODE and its first byte, which is FIRST when Update makes the entry. -/
theorem kwkwkEntryExpandsToWhatItWrote : Obligations.KwkwkEntryExpandsToWhatItWrote := by
  intro c s t l b hinv hdecoding _ hc hgt hopen hexp hhead hfit hexec
  have hregisters := hinv.registers hdecoding
  have hend := hregisters.end_eq
  have hprev : hasPrev s = true := (State.hasPrev_iff s).2 (by omega)
  obtain ⟨hshort, hlen⟩ := (hinv.table hdecoding).expansion_of_exp hend (hregisters.prev_ordinary hprev)
    (hregisters.prev_lt hprev) hexp
  obtain ⟨stack, b', hhead', hstep, -, -⟩ := expandStep_of_fits (kw := true) (c := c) hinv.cursors.2 hopen hexp
    (show l.length + 1 ≤ 4096 by omega) hfit
  obtain rfl : b = b' := Option.some.inj (hhead.symm.trans hhead')
  obtain rfl : t = _ := Host.Outcome.next.inj (hexec.symm.trans hstep)
  have hmakes : (s.expanded c (expandedBytes true l b) stack b).makesEntry :=
    ⟨show s.saveCode.toNat ≤ 4095 by omega, show s.saveCode.toNat ≠ s.endCode.toNat by omega⟩
  exact State.update_exp_saveCode hmakes hend hc hgt hshort

theorem expansion_of_literal {k : CodeSpace} (pre : Table 16) (suf : Table 8) (fuel : Nat) {c : CodeValue}
    (h : c.toNat < k.clearCode.toNat) : expansion k pre suf fuel c = some [literalByte c] := by
  cases fuel <;> simp [expansion, h]

/-- Settles O56: a code's expansion has at most one byte more than its distance from END_CODE. -/
theorem expansionsExistAndAreBounded : Obligations.ExpansionsExistAndAreBounded := by
  intro s c hinv hdecoding ho hc
  obtain ⟨l, hexp, hpos, hlen⟩ := (hinv.table hdecoding).exp_some (hinv.registers hdecoding).end_eq ho hc
  have hend := s.endCode.isLt
  refine ⟨l, hexp, hpos, fun hlit => ?_, fun _ => hlen, by omega⟩
  exact Option.some.inj (hexp.symm.trans (expansion_of_literal _ _ _ hlit))

/-! ### The walk over an unwritten entry (20_memory.md R54) -/

theorem expandStep_of_unwritten {kw : Bool} {c : CodeValue} {s : State}
    (h : walkChain s.clearCode s.mem.prefixTab s.mem.suffixTab (walkStart kw c s).1 (walkStart kw c s).2 s.mem.stackTab =
      .unwritten) : expandStep kw c s = .fault .readUnwrittenTable := by
  unfold expandStep walk
  rw [h]
  rfl

/-- COPY and KWKWK are one step with two starts of the walk. -/
theorem exec_copy_or_kwkwk (kw : Bool) (c : CodeValue) (s : State) :
    exec (if kw then .kwkwk c else .copy c) s = expandStep kw c s := by
  cases kw <;> rfl

theorem walkStart_code (kw : Bool) (c : CodeValue) (s : State) :
    (walkStart kw c s).2 = if kw then s.prevCode else c := by
  cases kw <;> rfl

/-- Settles O52: the walk reads the unwritten entry after the written ones, and its fault is the instruction's. -/
theorem walkOverAnUnwrittenEntryFaults : Obligations.WalkOverAnUnwrittenEntryFaults := by
  intro kw c s slots n x hslots hx hn hentries hlinks hentry hunwritten
  have hstart : (walkStart kw c s).1 + 1 = slots := by
    rw [hslots]
    cases kw <;> rfl
  rw [exec_copy_or_kwkwk]
  apply expandStep_of_unwritten
  rw [walkStart_code, ← hx]
  refine walkChain_unwritten (by omega) hentries hlinks hentry (hunwritten.imp_right ?_) _
  exact fun ⟨hlast, hprefix⟩ => ⟨by omega, hprefix⟩

end Sys2Proof.Machine
end

section
/-! The encodings (30_encoding.md): a command word by its fields, the class of a code, decode and encode as inverses, and the
packing of a code stream. -/

namespace Sys2Proof

/-! ### Command words (30_encoding.md R88, R89) -/

theorem commandOpcode_toNat (w : CommandWord) : (commandOpcode w).toNat = w.toNat % 256 := by
  rw [commandOpcode, BitVec.extractLsb'_toNat, Nat.shiftRight_zero]

theorem commandArg_eq_ofNat (w : CommandWord) : commandArg w = BitVec.ofNat 24 (w.toNat / 256) := by
  rw [commandArg, BitVec.extractLsb', Nat.shiftRight_eq_div_pow]

theorem commandOpcode_eq_iff (w : CommandWord) (o : BitVec 8) : commandOpcode w = o ↔ w.toNat % 256 = o.toNat := by
  rw [← BitVec.toNat_inj, commandOpcode_toNat]

theorem commandArg_eq_zero_iff (w : CommandWord) : commandArg w = 0 ↔ w.toNat / 256 = 0 := by
  have hzero : (0 : BitVec 24).toNat = 0 := rfl
  rw [← BitVec.toNat_inj, commandArg_eq_ofNat, BitVec.toNat_ofNat, hzero]
  omega

/-- Settles O1: the two fields of the word are its remainder and its quotient by 256. -/
theorem commandWordDecodesByOpcodeAndArg : Obligations.CommandWordDecodesByOpcodeAndArg := by
  intro w
  simp only [decodeCommand, commandOpcode_eq_iff, commandArg_eq_zero_iff]
  rw [commandArg_eq_ofNat]
  rfl

/-- The decoder on a word written from its fields. -/
theorem decodeCommand_commandWord (o : BitVec 8) (a : BitVec 24) : decodeCommand (commandWord o a) =
    if o = 0x01 then (if a = 0 then .ok .init else .error .nonzeroArg)
    else if o = 0x02 then .ok (.setLiteralWidth a)
    else if o = 0x03 then (if a = 0 then .ok .decode else .error .nonzeroArg)
    else .error .reservedOpcode := by
  rw [decodeCommand, commandOpcode_commandWord, commandArg_commandWord]

theorem commandWord_of_fields {w : CommandWord} {o : BitVec 8} {a : BitVec 24} (ho : commandOpcode w = o)
    (ha : commandArg w = a) : commandWord o a = w := by
  rw [← ho, ← ha, commandWord_fields]

/-- A command word that decodes is the encoding of its command, which has no class condition. -/
theorem encode_of_decodeCommand {w : CommandWord} {i : Instr} (k : CodeSpace) (h : decodeCommand w = .ok i) :
    encode k i = .command w ∧ i.wfIn k = true := by
  unfold decodeCommand at h
  split at h
  case isTrue hinit =>
    split at h <;> cases h
    exact ⟨congrArg Encoded.command (commandWord_of_fields hinit ‹_›), rfl⟩
  case isFalse =>
    split at h
    case isTrue hsetlw =>
      cases h
      exact ⟨congrArg Encoded.command (commandWord_of_fields hsetlw rfl), rfl⟩
    case isFalse =>
      split at h
      case isTrue hdecode =>
        split at h <;> cases h
        exact ⟨congrArg Encoded.command (commandWord_of_fields hdecode ‹_›), rfl⟩
      case isFalse => cases h

/-! ### The class of a code (30_encoding.md R83) -/

section
variable {k : CodeSpace} {c : CodeValue}

theorem decodeCode_lit (h : c.toNat < k.clearCode.toNat) : decodeCode k c = .lit c := if_pos h

theorem decodeCode_clr (h : c.toNat = k.clearCode.toNat) : decodeCode k c = .clr := by
  have hlit : ¬ c.toNat < k.clearCode.toNat := by omega
  rw [decodeCode, classify, if_neg hlit, if_pos h]

theorem decodeCode_endCode (hend : k.endCode.toNat = k.clearCode.toNat + 1) (h : c.toNat = k.endCode.toNat) :
    decodeCode k c = .endCode := by
  have hlit : ¬ c.toNat < k.clearCode.toNat := by omega
  have hclr : c.toNat ≠ k.clearCode.toNat := by omega
  rw [decodeCode, classify, if_neg hlit, if_neg hclr, if_pos h]

/-- Above END_CODE the class is decided by SAVE_CODE. -/
theorem decodeCode_above_endCode (hend : k.endCode.toNat = k.clearCode.toNat + 1) (h : k.endCode.toNat < c.toNat) :
    decodeCode k c =
      if c.toNat < k.saveCode.toNat then .copy c else if c.toNat = k.saveCode.toNat then .kwkwk c else .oor c := by
  have hlit : ¬ c.toNat < k.clearCode.toNat := by omega
  have hclr : c.toNat ≠ k.clearCode.toNat := by omega
  have hne : c.toNat ≠ k.endCode.toNat := by omega
  rw [decodeCode, classify, if_neg hlit, if_neg hclr, if_neg hne]

theorem decodeCode_copy (hend : k.endCode.toNat = k.clearCode.toNat + 1) (h : k.endCode.toNat < c.toNat)
    (hsave : c.toNat < k.saveCode.toNat) : decodeCode k c = .copy c := by
  rw [decodeCode_above_endCode hend h, if_pos hsave]

theorem decodeCode_kwkwk (hend : k.endCode.toNat = k.clearCode.toNat + 1) (h : k.endCode.toNat < c.toNat)
    (hsave : c.toNat = k.saveCode.toNat) : decodeCode k c = .kwkwk c := by
  rw [decodeCode_above_endCode hend h, if_neg (Nat.not_lt.2 hsave.ge), if_pos hsave]

theorem decodeCode_oor (hend : k.endCode.toNat = k.clearCode.toNat + 1) (h : k.endCode.toNat < c.toNat)
    (hsave : k.saveCode.toNat < c.toNat) : decodeCode k c = .oor c := by
  rw [decodeCode_above_endCode hend h, if_neg hsave.not_gt, if_neg hsave.ne']

/-- The six conditions cover every code. -/
theorem codeClass_cases (hend : k.endCode.toNat = k.clearCode.toNat + 1) (hsave : k.endCode.toNat ≤ k.saveCode.toNat)
    (c : CodeValue) :
    c.toNat < k.clearCode.toNat ∨ c.toNat = k.clearCode.toNat ∨ c.toNat = k.endCode.toNat ∨
      (k.endCode.toNat < c.toNat ∧ c.toNat < k.saveCode.toNat) ∨
      (c.toNat = k.saveCode.toNat ∧ k.endCode.toNat < c.toNat) ∨ k.saveCode.toNat < c.toNat := by
  omega

/-- CLEAR_CODE and END_CODE are registers of 9 bits, and a code has 12. -/
theorem toNat_setWidth_code (x : BitVec 9) : (x.setWidth 12).toNat = x.toNat :=
  BitVec.toNat_setWidth_of_le (by decide)

theorem setWidth_code_of_toNat_eq {x : BitVec 9} (h : c.toNat = x.toNat) : x.setWidth 12 = c :=
  BitVec.eq_of_toNat_eq ((toNat_setWidth_code x).trans h.symm)

/-- The instruction a code decodes to is encoded as that code and meets the condition of its class. -/
theorem encode_decodeCode (hend : k.endCode.toNat = k.clearCode.toNat + 1) (hsave : k.endCode.toNat ≤ k.saveCode.toNat)
    (c : CodeValue) : encode k (decodeCode k c) = .code c ∧ (decodeCode k c).wfIn k = true := by
  rcases codeClass_cases hend hsave c with h | h | h | h | h | h
  · rw [decodeCode_lit h]
    exact ⟨rfl, decide_eq_true h⟩
  · rw [decodeCode_clr h]
    exact ⟨congrArg Encoded.code (setWidth_code_of_toNat_eq h), rfl⟩
  · rw [decodeCode_endCode hend h]
    exact ⟨congrArg Encoded.code (setWidth_code_of_toNat_eq h), rfl⟩
  · rw [decodeCode_copy hend h.1 h.2]
    exact ⟨rfl, by simpa [Instr.wfIn] using h⟩
  · rw [decodeCode_kwkwk hend h.2 h.1]
    exact ⟨rfl, by simpa [Instr.wfIn] using h⟩
  · rw [decodeCode_oor hend (hsave.trans_lt h) h]
    exact ⟨rfl, decide_eq_true h⟩

end

/-- Settles O4: the six conditions are the branches of the decoder's tests, and a code is below 4096. -/
theorem codeClassesPartitionTheCodes : Obligations.CodeClassesPartitionTheCodes := by
  intro lw k c hk
  obtain ⟨-, -, -, hend, hsave, -⟩ := (k.legal_iff lw).1 hk
  refine ⟨?_, decodeCode_lit, decodeCode_clr, decodeCode_endCode hend, fun h => decodeCode_copy hend h.1 h.2,
    fun h => decodeCode_kwkwk hend h.2 h.1, fun h => decodeCode_oor hend (hsave.trans_lt h) h, fun h => h ▸ c.isLt⟩
  rcases codeClass_cases hend hsave c with h | h | h | h | h | h
  all_goals
    simp (disch := omega) only [decide_eq_true, decide_eq_false]
    rfl

/-! ### Decode and encode are inverses (30_encoding.md R82 to R84, R86, R88, R89) -/

/-- Settles O2: a command by the fields of its word, a code by the condition of its class. -/
theorem encodedInstructionDecodesBack : Obligations.EncodedInstructionDecodesBack := by
  intro lw k i hk hi
  obtain ⟨-, -, -, hend, hsave, -⟩ := (k.legal_iff lw).1 hk
  cases i with
  | init => exact decodeCommand_commandWord 0x01 0
  | setLiteralWidth w => exact decodeCommand_commandWord 0x02 w
  | decode => exact decodeCommand_commandWord 0x03 0
  | lit c => exact congrArg Except.ok (decodeCode_lit (of_decide_eq_true hi))
  | clr => exact congrArg Except.ok (decodeCode_clr (toNat_setWidth_code _))
  | endCode => exact congrArg Except.ok (decodeCode_endCode hend (toNat_setWidth_code _))
  | copy c =>
    obtain ⟨habove, hbelow⟩ := (Bool.and_eq_true _ _).mp hi
    exact congrArg Except.ok (decodeCode_copy hend (of_decide_eq_true habove) (of_decide_eq_true hbelow))
  | kwkwk c =>
    obtain ⟨hnext, habove⟩ := (Bool.and_eq_true _ _).mp hi
    exact congrArg Except.ok (decodeCode_kwkwk hend (of_decide_eq_true habove) (of_decide_eq_true hnext))
  | oor c =>
    have habove : k.saveCode.toNat < c.toNat := of_decide_eq_true hi
    exact congrArg Except.ok (decodeCode_oor hend (hsave.trans_lt habove) habove)

/-- Settles O3: each of the two encodings is the inverse of its decoder. -/
theorem decodedWordEncodesBack : Obligations.DecodedWordEncodesBack := by
  intro lw k e i hk hdecode
  obtain ⟨-, -, -, hend, hsave, -⟩ := (k.legal_iff lw).1 hk
  cases e with
  | command w => exact encode_of_decodeCommand k hdecode
  | code c =>
    obtain rfl : decodeCode k c = i := Except.ok.inj hdecode
    exact encode_decodeCode hend hsave c

/-! ### Packing (30_encoding.md R80, R82, R87) -/

/-- `n` bytes read as stream bits are the low `8 n` bits of the number they were taken from. -/
theorem streamNat_bytesOfNat (n v : Nat) : streamNat (bytesOfNat n v) = v % 2 ^ (8 * n) := by
  induction n generalizing v with
  | zero => exact (Nat.mod_one v).symm
  | succ n ih =>
    rw [bytesOfNat, streamNat, ih, BitVec.toNat_ofNat, Nat.mul_succ, Nat.add_comm (8 * n), Nat.pow_add, Nat.mod_mul]

/-- Settles O7: the stream number has no bit at or above S, so the `ceil(S / 8)` bytes hold all of it. -/
theorem packedCodesAreTheStreamBits : Obligations.PackedCodesAreTheStreamBits := by
  intro codes
  refine ⟨?_, bytesOfNat_length _ _⟩
  rw [packCodes, streamNat_bytesOfNat]
  apply Nat.mod_eq_of_lt
  calc codesNat codes < 2 ^ codesBits codes := codesNat_lt codes
    _ ≤ 2 ^ (8 * ((codesBits codes + 7) / 8)) := Nat.pow_le_pow_right (by decide) (by omega)

/-! ### Written-out words (30_encoding.md R84, R89, R93) -/

/-- Settles O5, by running the decoders and the packer. -/
theorem writtenOutWordsDecode : Obligations.WrittenOutWordsDecode := by
  unfold Obligations.WrittenOutWordsDecode
  decide

end Sys2Proof
end

section
/-! The parser with enough bits (41_bitstream_parser.md R130, R131), LIT and END (42_code_semantics.md R151, R153), and the host
actions that are refused (70_reset_and_hazards.md R240). -/

namespace Sys2Proof.Machine

/-! ### ParseCode with enough bits -/

/-- ParseCode stops only when the accumulator and the available bytes do not hold WIDTH bits. -/
theorem lt_width_of_parseCode_stop {s t : State} (hwf : s.src.wf = true) (ha : s.accumulatorLegal)
    (hmax : s.width.toNat ≤ 12) (hlt : s.nbits.toNat < s.width.toNat + 8) (h : parseCode s = .stop t) :
    s.nbits.toNat + 8 * s.src.available < s.width.toNat := by
  rcases Flow.andThen_eq_stop h with hfill | ⟨_, _, _, hextract⟩
  · obtain ⟨r, hfilled, hread, hfew, hstream⟩ := fillLoop_stop hwf hfill
    obtain ⟨-, -, hlength⟩ := hstream ha hmax hlt
    have hnone := (srcRead_stop_src hread).1
    have hleft := hfilled.src.available_eq
    have hri := hfilled.src.ri_le
    have hend := ((SrcPort.wf_iff _).1 (hfilled.src_wf hwf)).1
    have hwidth : r.width = s.width := by rw [hfilled.fields]
    rw [State.streamLength, State.streamLength, hfilled.src.unmoved.2.2.1] at hlength
    rw [hfilled.src.unmoved.2.2.1] at hend
    rw [hwidth] at hfew
    omega
  · cases hextract

/-- Settles O8: FILL cannot stop, and the bytes it read are the bits the stream has lost from the source. -/
theorem parserTakesTheLowWidthBitsOfTheStream : Obligations.ParserTakesTheLowWidthBitsOfTheStream := by
  intro s hwf hacc hmax hlt henough
  cases hparse : parseCode s with
  | fault f => exact absurd hparse (parseCode_no_fault hwf f)
  | stop t =>
    have hfew := lt_width_of_parseCode_stop hwf hacc hmax hlt hparse
    omega
  | go u t =>
    obtain ⟨hfields, hread, htwf, hstream⟩ := parseCode_go hwf hparse
    obtain ⟨-, hnbits, hcode, hvalue, hlength⟩ := hstream hacc hmax hlt
    refine ⟨t, rfl, hcode, hvalue, hlength, ?_, hnbits, hread, hfields⟩
    have hri := hread.ri_le
    have hend := ((SrcPort.wf_iff _).1 htwf).1
    rw [State.streamLength, State.streamLength, hread.unmoved.2.2.1] at hlength
    rw [hread.unmoved.2.2.1] at hend
    omega

/-! ### LIT and END -/

/-- With space the step of EMIT_LIT writes CODE's byte, sets FIRST to it and updates the table. -/
theorem literalStep_of_space {s : State} (hwf : s.dst.wf = true) (hopen : s.dst.closed = false) (hspace : 0 < s.dst.space) :
    literalStep s = .next (s.setDst (s.dst.append [literalByte s.code])).setFirstFromCode.update := by
  obtain ⟨t, hstep⟩ := literalStep_answers hwf
  rcases literalStep_next hstep with ⟨hclosed, -⟩ | ⟨-, hfull, -⟩ | ⟨-, -, -, rfl⟩
  · simp [hopen] at hclosed
  · omega
  · exact hstep

/-- Settles O40: LIT is the step of EMIT_LIT with CODE = c, and Update does not read the PHASE it was in. -/
theorem litWritesItsByteAndUpdates : Obligations.LitWritesItsByteAndUpdates := by
  intro c s hwf hopen hspace
  have hlen := ((DstPort.wf_iff _).1 hwf).2
  have hroom := s.dst.space_le
  refine ⟨_, literalStep_of_space (s := s.enterCode c .emitLit) hwf hopen hspace, ?_⟩
  rw [State.enterCode_dst, State.enterCode_code, DstPort.append_singleton (by omega),
    ← State.update_setPhase _ s.phase]
  exact State.update_updatedTo _

/-- Settles O43: END only sets PHASE, STATUS and the response. -/
theorem endFinishesTheStream : Obligations.EndFinishesTheStream := fun s =>
  ⟨(s.setPhase .idle).ret .ok, rfl, rfl, rfl, rfl, rfl⟩

/-! ### Refused host actions -/

theorem runEvent_command_of_error {w : CommandWord} {e : CommandError} (hdecode : decodeCommand w = .error e) (s : State) :
    runEvent (.command w) s = .next (s.markRefused (.commandWord e)) := by
  simp only [runEvent, runCommand, hdecode]

theorem hostSource_of_not_allowed {s : State} {p : SrcPort} (h : srcChangeAllowed s.src p = false) :
    hostSource p s = s.markRefused .hostChange := if_neg (by simp [h])

theorem hostDestination_of_not_allowed {s : State} {p : DstPort} (h : dstChangeAllowed s.dst p = false) :
    hostDestination p s = s.markRefused .hostChange := if_neg (by simp [h])

/-- Settles O17: the step is the refused event, which only marks the state without it. -/
theorem refusedActionsOnlySetTheMark : Obligations.RefusedActionsOnlySetTheMark := by
  intro s rest hmark
  refine ⟨fun w e hhost hdecode => ?_, fun w hhost => ?_, fun p hhost hallowed => ?_, fun p hhost hallowed => ?_⟩
  · exact (step_of_host_eq hmark hhost).trans (runEvent_command_of_error hdecode _)
  · exact step_of_host_eq hmark hhost
  · exact (step_of_host_eq hmark hhost).trans
      (congrArg Host.Outcome.next (hostSource_of_not_allowed (s := { s with host := rest }) hallowed))
  · exact (step_of_host_eq hmark hhost).trans
      (congrArg Host.Outcome.next (hostDestination_of_not_allowed (s := { s with host := rest }) hallowed))

end Sys2Proof.Machine
end

section
/-! INIT, DECODE up to its first passes, and a resumed flush (40_host_commands.md R101 to R107, 43_expansion_and_flush.md R185). -/

namespace Sys2Proof.Machine

/-! ### INIT and DECODE's entry checks -/

/-- Settles O26: INIT writes the values of R231 and draws the working registers only. -/
theorem initSetsTheResetState : Obligations.InitSetsTheResetState := fun _ =>
  ⟨_, rfl, rfl, rfl, rfl, rfl, fun _ => ⟨rfl, rfl, rfl⟩, rfl, rfl, rfl, rfl, rfl⟩

/-- Settles O30: the two checks are the first tests of DECODE, before it looks at the Cursors. -/
theorem decodeEntryChecksInOrder : Obligations.DecodeEntryChecksInOrder := by
  intro s
  split
  · rename_i hinit
    exact if_pos hinit
  · rename_i hinit
    exact fun herror => (if_neg hinit).trans (if_pos herror)

/-! ### One pass, by PHASE (40_host_commands.md R107) -/

section
variable {s : State}

theorem decodePass_idle (hphase : s.phase = .idle) : decodePass s = .next (freshStart s) := by
  unfold decodePass
  rw [hphase]

theorem decodePass_emitLit (hphase : s.phase = .emitLit) : decodePass s = literalStep s := by
  unfold decodePass
  rw [hphase]

theorem decodePass_flush (hphase : s.phase = .flush) : decodePass s = flushStep s := by
  unfold decodePass
  rw [hphase]

theorem decodePass_fill_go {t : State} (hphase : s.phase = .fill) (hparse : parseCode s = .go () t) :
    decodePass s = dispatchCode t.code t := by
  unfold decodePass
  rw [hphase, hparse]

theorem decodePass_fill_stop {t : State} (hphase : s.phase = .fill) (hparse : parseCode s = .stop t) :
    decodePass s = .next t := by
  unfold decodePass
  rw [hphase, hparse]

end

/-- Settles O15: the pass dispatches the code, and the dispatch is `exec` of the decoded instruction. -/
theorem decodePassRunsTheParsedCode : Obligations.DecodePassRunsTheParsedCode := by
  intro s t hphase hparse
  rw [decodePass_fill_go hphase hparse, exec_decodeCode]

/-! ### The fresh start (40_host_commands.md R106) -/

/-- The registers a fresh start sets, as numbers. -/
theorem State.latchStream_toNat {s : State} (hmin : 2 ≤ s.lwReg.toNat) (hmax : s.lwReg.toNat ≤ 8) :
    s.latchStream.lw.toNat = s.lwReg.toNat ∧ s.latchStream.clearCode.toNat = 2 ^ s.lwReg.toNat ∧
      s.latchStream.endCode.toNat = 2 ^ s.lwReg.toNat + 1 ∧ s.latchStream.saveCode.toNat = 2 ^ s.lwReg.toNat + 1 ∧
      s.latchStream.width.toNat = s.lwReg.toNat + 1 := by
  have hlw : (s.lwReg.setWidth 4).toNat = s.lwReg.toNat := by
    rw [BitVec.toNat_setWidth]
    omega
  have hend : (endCodeOf (s.lwReg.setWidth 4)).toNat = 2 ^ s.lwReg.toNat + 1 := by
    rw [endCodeOf_toNat (hlw ▸ hmax), hlw]
  refine ⟨hlw, ?_, hend, ?_, ?_⟩
  · rw [State.latchStream_clearCode, clearCodeOf_toNat (hlw ▸ hmax), hlw]
  · rw [State.latchStream_saveCode, BitVec.toNat_setWidth_of_le (by omega), hend]
  · rw [State.latchStream_width, initialWidth_toNat (hlw ▸ hmax), hlw]

theorem freshStart_of_legal {s : State} (hmin : 2 ≤ s.lwReg.toNat) (hmax : s.lwReg.toNat ≤ 8) :
    freshStart s = s.latchStream := if_pos ((legalLiteralWidth_iff _).2 ⟨hmin, hmax⟩)

theorem freshStart_of_illegal {s : State} (h : ¬ (2 ≤ s.lwReg.toNat ∧ s.lwReg.toNat ≤ 8)) :
    freshStart s = s.raise .badLiteralWidth := if_neg fun hlegal => h ((legalLiteralWidth_iff _).1 hlegal)

/-- Settles O33: the fresh start latches the width, and CLR writes the values it has just written. -/
theorem freshStartIsTheClearedState : Obligations.FreshStartIsTheClearedState := by
  intro s hphase
  rw [decodePass_idle hphase]
  split
  · rename_i hlegal
    obtain ⟨hmin, hmax⟩ := hlegal
    obtain ⟨hlw, hclear, hend, hsave, hwidth⟩ := State.latchStream_toNat hmin hmax
    rw [freshStart_of_legal hmin hmax]
    exact ⟨_, rfl, hlw, hclear, hend, hsave, rfl, hwidth, rfl, rfl, rfl, rfl, rfl⟩
  · rename_i hillegal
    rw [freshStart_of_illegal hillegal]
    exact ⟨_, rfl, rfl, rfl, rfl, rfl, rfl, rfl⟩

/-! ### An accepted DECODE -/

/-- A DECODE whose first pass sends a response is that pass. -/
theorem exec_decode_of_first_pass {s t : State} (hready : s.ready) (hports : s.portsAccepted)
    (hpass : decodePass s.beginCommand = .next t) (hresponse : t.response.isSome = true) : exec .decode s = .next t := by
  rw [exec_decode_of_accepted hports hready, passBound, decodeLoop_succ _ _ hpass, if_pos hresponse]

/-- Settles O32: the first pass is the fresh start, which raises the error. -/
theorem decodeWithoutALiteralWidthFails : Obligations.DecodeWithoutALiteralWidthFails := by
  intro s hready hports hphase hillegal
  have hpass : decodePass s.beginCommand = .next (s.beginCommand.raise .badLiteralWidth) := by
    rw [decodePass_idle (s := s.beginCommand) hphase, freshStart_of_illegal (s := s.beginCommand)]
    rw [State.beginCommand_lwReg]
    omega
  exact ⟨_, exec_decode_of_first_pass hready hports hpass rfl, rfl, rfl, rfl, rfl, rfl, hready.1⟩

/-- With WIDTH bits in the accumulator the parser reads no byte (41_bitstream_parser.md R130). -/
theorem parseCode_of_enough_bits {s : State} (h : s.width.toNat ≤ s.nbits.toNat) : parseCode s = .go () s.extract := by
  have hfill : fill s = .go () s := if_neg (Nat.not_lt.2 h)
  rw [parseCode, hfill, Flow.andThen_go]

/-- Settles O37: the first pass takes END_CODE from the accumulator, and END sends OK. -/
theorem decodeEndsWithOkAtTheEndCode : Obligations.DecodeEndsWithOkAtTheEndCode := by
  intro s hinv hready hports hphase hbits hcode
  have hregisters := hinv.registers ⟨hready, by simp [hphase]⟩
  have hend : s.beginCommand.extract.code.toNat = s.endCode.toNat :=
    (State.extract_toNat hregisters.width_max hbits).1.trans hcode
  have hpass : decodePass s.beginCommand = .next ((s.beginCommand.extract.setPhase .idle).ret .ok) := by
    rw [decodePass_fill_go (s := s.beginCommand) hphase (parseCode_of_enough_bits hbits)]
    exact dispatchCode_end hregisters.end_eq hend
  exact ⟨_, exec_decode_of_first_pass hready hports hpass rfl, rfl, rfl, rfl, rfl, rfl, rfl⟩

/-- From a legal state an accepted DECODE answers. -/
theorem exec_decode_answers {s : State} (hinv : s.LoopInv) (hready : s.ready) (hports : s.portsAccepted) :
    ∃ t, exec .decode s = .next t ∧ t.LoopInv ∧ s.PassTo t ∧ t.Ended := by
  rw [exec_decode_of_accepted hports hready]
  obtain ⟨t, hloop, htinv, hpass, hended⟩ := decodeLoop_answers hinv.beginCommand hready rfl
  exact ⟨t, hloop, htinv, ⟨hpass.initDone, hpass.lwReg, hpass.refusedMark, hpass.host, hpass.src, hpass.dst⟩, hended⟩

/-- Settles O34: the loop answers inside its bound, and its end leaves STATUS and PHASE in agreement. -/
theorem decodeAlwaysAnswersAndNeverFindsACycle : Obligations.DecodeAlwaysAnswersAndNeverFindsACycle := by
  intro s hinv hready hports
  obtain ⟨t, hexec, htinv, -, hended⟩ := exec_decode_answers hinv.loop hready hports
  exact ⟨t, hexec, hended, htinv, hended.statusPhase⟩

/-! ### A resumed flush (43_expansion_and_flush.md R184, R185) -/

/-- Settles O49: in FLUSH the pass is the flush of the tail, with no walk before it. -/
theorem resumedFlushWritesOnlyTheTail : Obligations.ResumedFlushWritesOnlyTheTail := by
  intro s l hphase hwf hopen htail hlt
  rw [decodePass_flush hphase, flushStep_of_open hwf hopen htail (Nat.le_of_lt hlt)]
  split
  · exact ⟨_, rfl, State.update_updatedTo _⟩
  · rename_i hfew
    have hlength : (l.take s.dst.space).length = s.dst.space := by
      rw [List.length_take]
      omega
    rw [DstPort.append, hlength]
    rfl

end Sys2Proof.Machine
end

section
/-! DECODE pass by pass (40_host_commands.md R107, R109): a pass of a running command ends it or leaves a running one, and DECODE
is its first pass and DECODE of what is left. -/

namespace Sys2Proof.Machine

/-! ### A running command -/

/-- A DECODE that has begun and not yet ended, in a legal state. -/
structure State.Running (s : State) : Prop where
  loop : s.LoopInv
  ready : s.ready
  silent : s.response = none

theorem State.Running.begin {s : State} (hinv : s.LoopInv) (hready : s.ready) : s.beginCommand.Running :=
  ⟨hinv.beginCommand, hready, rfl⟩

theorem State.beginCommand_of_silent {s : State} (h : s.response = none) : s.beginCommand = s := by
  unfold State.beginCommand
  rw [← h]

/-- A pass of a running command answers, and ends the command or leaves it running. -/
theorem State.Running.pass {s : State} (h : s.Running) :
    ∃ t, decodePass s = .next t ∧ t.LoopInv ∧ s.PassTo t ∧ (t.Running ∨ t.Ended) := by
  have hgoes : ∀ t : State, t.LoopInv → s.PassTo t → s.GoesOn t → t.Running := fun t hinv hpass hgoes =>
    ⟨hinv, hgoes.ready hpass h.ready, hgoes.1.trans h.silent⟩
  by_cases hphase : s.phase = .fill
  · obtain ⟨t, hstep, hinv, hpass, ⟨hon, -⟩ | hended⟩ := fillPass_keeps h.loop ⟨h.ready, by simp [hphase]⟩ hphase
    · exact ⟨t, hstep, hinv, hpass, .inl (hgoes t hinv hpass hon)⟩
    · exact ⟨t, hstep, hinv, hpass, .inr hended⟩
  · obtain ⟨t, hstep, hinv, hpass, ⟨hon, -⟩ | hended | ⟨-, rfl⟩⟩ := otherPass_keeps h.loop h.ready hphase
    · exact ⟨t, hstep, hinv, hpass, .inl (hgoes t hinv hpass hon)⟩
    · exact ⟨t, hstep, hinv, hpass, .inr hended⟩
    · exact ⟨_, hstep, hinv, hpass, .inr (State.raise_ended (.inl rfl) s)⟩

/-- A pass that sends no response leaves the command running. -/
theorem State.Running.next {s t : State} (h : s.Running) (hstep : decodePass s = .next t) (hsilent : t.response = none) :
    t.Running ∧ s.PassTo t := by
  obtain ⟨u, hu, -, hpass, hend⟩ := h.pass
  obtain rfl : t = u := Host.Outcome.next.inj (hstep.symm.trans hu)
  refine ⟨hend.resolve_right fun hended => ?_, hpass⟩
  obtain ⟨hsent, -⟩ := hended
  rw [hsilent] at hsent
  cases hsent

/-- However many passes are allowed, a loop that answers gives one answer. -/
theorem decodeLoop_unique {n m : Nat} {s t u : State} (ht : decodeLoop n s = .next t) (hu : decodeLoop m s = .next u) :
    t = u :=
  Host.Outcome.next.inj
    ((decodeLoop_mono ht (Nat.le_max_left n m)).symm.trans (decodeLoop_mono hu (Nat.le_max_right n m)))

theorem State.AgreesWith.refl (t : State) : t.AgreesWith t := ⟨rfl, rfl, rfl, rfl, rfl, rfl, rfl, rfl, fun _ => rfl⟩

/-! ### DECODE and its first pass -/

/-- DECODE is its first pass, and DECODE of what is left if the pass has sent no response. -/
theorem exec_decode_pass {s u : State} (hinv : s.LoopInv) (hready : s.ready) (hports : s.portsAccepted)
    (hstep : decodePass s.beginCommand = .next u) :
    if u.response.isSome then exec .decode s = .next u else answersAgree (exec .decode s) (exec .decode u) := by
  split
  · exact exec_decode_of_first_pass hready hports hstep ‹_›
  · rename_i hresponse
    have hsilent : u.response = none := by simpa using hresponse
    obtain ⟨hrunning, hpass⟩ := (State.Running.begin hinv hready).next hstep hsilent
    have huports : u.portsAccepted := State.PassTo.portsAccepted (s := s.beginCommand) hpass hrunning.loop hports
    obtain ⟨t, ht, -⟩ := exec_decode_answers hinv hready hports
    obtain ⟨v, hv, -⟩ := exec_decode_answers hrunning.loop hrunning.ready huports
    have htloop : decodeLoop (s.streamLength + 2) u = .next t := by
      rw [← ht, exec_decode_of_accepted hports hready]
      exact ((decodeLoop_succ _ _ hstep).trans (if_neg hresponse)).symm
    have hvloop : decodeLoop (passBound u) u = .next v := by
      rw [← hv, exec_decode_of_accepted huports hrunning.ready, State.beginCommand_of_silent hsilent]
    obtain rfl := decodeLoop_unique htloop hvloop
    exact ⟨t, t, ht, hv, .refl t⟩

/-- Settles O16: one fact about the first pass, which in IDLE is the fresh start and in FILL the first code's instruction. -/
theorem decodeRunsTheStreamCodeByCode : Obligations.DecodeRunsTheStreamCodeByCode := by
  intro s hinv hready hports
  refine ⟨fun u hstep => exec_decode_pass hinv hready hports hstep, fun hphase hmin hmax => ?_,
    fun hphase t u hparse hexec => exec_decode_pass hinv hready hports ?_⟩
  · obtain ⟨hlw, hclear, hend, hsave, hwidth⟩ := State.latchStream_toNat (s := s.beginCommand) hmin hmax
    have hstep : decodePass s.beginCommand = .next s.beginCommand.latchStream := by
      rw [decodePass_idle (s := s.beginCommand) hphase, freshStart_of_legal (s := s.beginCommand) hmin hmax]
    exact ⟨_, hlw, hclear, hend, hsave, hwidth, rfl, exec_decode_pass hinv hready hports hstep⟩
  · exact (decodePassRunsTheParsedCode s.beginCommand t hphase hparse).trans hexec

end Sys2Proof.Machine
end

section
/-! What the passes of a DECODE do not look at: FILL and EXTRACT not at the destination, the codes not at the source, and no pass at
STATUS, which the end of the command writes (40_host_commands.md R107, 60_exceptions.md R205). -/

namespace Sys2Proof.Machine

/-! ### Other ports, another STATUS -/

/-- The state with its Cursors changed by `p` and `q`, and with its STATUS changed by `o` as long as no response has been sent. -/
def State.recast (p : SrcPort → SrcPort) (q : DstPort → DstPort) (o : Status → Status) (s : State) : State :=
  { s with src := p s.src, dst := q s.dst, status := if s.response.isNone then o s.status else s.status }

/-- The states of a flow changed by `f`. -/
def Flow.mapState {α : Type} (f : State → State) : Flow α → Flow α
  | .go a s => .go a (f s)
  | .stop s => .stop (f s)
  | .fault e => .fault e

/-- The next state of an outcome changed by `f`. -/
def mapNext (f : State → State) : Host.Outcome State Fault Refusal → Host.Outcome State Fault Refusal
  | .next s => .next (f s)
  | .fault e => .fault e
  | .refused r => .refused r

/-- A sequence is changed by `f` where both its parts are. -/
theorem Flow.andThen_mapState {α β : Type} {f : State → State} {g : α → State → Flow β} (x : Flow α)
    (hg : ∀ a s, g a (f s) = (g a s).mapState f) : (x.mapState f).andThen g = (x.andThen g).mapState f := by
  cases x with
  | go a s => exact hg a s
  | stop s => rfl
  | fault e => rfl

theorem Flow.toOutcome_mapState (f : State → State) (x : Flow Unit) : (x.mapState f).toOutcome = mapNext f x.toOutcome := by
  cases x <;> rfl

theorem mapNext_eq_next {f : State → State} {x : Host.Outcome State Fault Refusal} {t : State} (h : x = .next t) :
    mapNext f x = .next (f t) := by
  rw [h]
  rfl

section
variable (p : SrcPort → SrcPort) (q : DstPort → DstPort) (o : Status → Status) (s : State)

@[simp] theorem State.recast_phase : (s.recast p q o).phase = s.phase := rfl
@[simp] theorem State.recast_lwReg : (s.recast p q o).lwReg = s.lwReg := rfl
@[simp] theorem State.recast_codeSpace : (s.recast p q o).codeSpace = s.codeSpace := rfl
@[simp] theorem State.recast_clearCode : (s.recast p q o).clearCode = s.clearCode := rfl
@[simp] theorem State.recast_saveCode : (s.recast p q o).saveCode = s.saveCode := rfl
@[simp] theorem State.recast_width : (s.recast p q o).width = s.width := rfl
@[simp] theorem State.recast_nbits : (s.recast p q o).nbits = s.nbits := rfl
@[simp] theorem State.recast_code : (s.recast p q o).code = s.code := rfl
@[simp] theorem State.recast_flushed : (s.recast p q o).flushed = s.flushed := rfl
@[simp] theorem State.recast_mem : (s.recast p q o).mem = s.mem := rfl
@[simp] theorem State.recast_src : (s.recast p q o).src = p s.src := rfl
@[simp] theorem State.recast_dst : (s.recast p q o).dst = q s.dst := rfl

theorem State.recast_update : (s.recast p q o).update = s.update.recast p q o := by
  unfold State.update
  rw [State.recast_saveCode, show hasPrev (s.recast p q o) = hasPrev s from rfl]
  split
  · split <;> rfl
  · rfl

theorem freshStart_recast : freshStart (s.recast p q o) = (freshStart s).recast p q o := by
  unfold freshStart
  rw [State.recast_lwReg]
  split <;> rfl

theorem walk_recast (kw : Bool) (c : CodeValue) :
    walk kw c (s.recast p q o) = (walk kw c s).mapState (State.recast p q o) := by
  unfold walk
  rw [show walkStart kw c (s.recast p q o) = walkStart kw c s from rfl,
    State.recast_clearCode, State.recast_mem]
  split <;> rfl

/-! ### FILL and EXTRACT -/

theorem srcRead_recast : srcRead (s.recast id q o) = (srcRead s).mapState (State.recast id q o) := by
  unfold srcRead
  rw [State.recast_src, id_eq]
  split
  · rfl
  · split
    · split <;> rfl
    · split <;> rfl

theorem fillLoop_recast (n : Nat) : fillLoop n (s.recast id q o) = (fillLoop n s).mapState (State.recast id q o) := by
  induction n generalizing s with
  | zero => rfl
  | succ n ih =>
    unfold fillLoop
    rw [State.recast_nbits, State.recast_width]
    split
    · rw [srcRead_recast]
      exact Flow.andThen_mapState (g := fun b t => fillLoop n (t.pushByte b)) _ fun b t => ih (t.pushByte b)
    · rfl

theorem parseCode_recast : parseCode (s.recast id q o) = (parseCode s).mapState (State.recast id q o) := by
  unfold parseCode fill
  rw [fillLoop_recast]
  exact Flow.andThen_mapState _ fun _ _ => rfl

/-! ### The codes -/

theorem dstAppend_recast (bytes : List Byte) :
    dstAppend bytes (s.recast p id o) = (dstAppend bytes s).mapState (State.recast p id o) := by
  unfold dstAppend
  rw [State.recast_dst, id_eq]
  split <;> rfl

theorem dstWrite_recast (b : Byte) : dstWrite b (s.recast p id o) = (dstWrite b s).mapState (State.recast p id o) := by
  unfold dstWrite
  rw [State.recast_dst, id_eq, dstAppend_recast]
  split
  · rfl
  · split <;> rfl

theorem dstCopy_recast (bytes : List Byte) :
    dstCopy bytes (s.recast p id o) = (dstCopy bytes s).mapState (State.recast p id o) := by
  unfold dstCopy
  rw [State.recast_dst, id_eq, dstAppend_recast]
  split
  · rfl
  · exact Flow.andThen_mapState _ fun _ _ => rfl

theorem literalStep_recast : literalStep (s.recast p id o) = mapNext (State.recast p id o) (literalStep s) := by
  unfold literalStep emitLiteral
  rw [State.recast_code, dstWrite_recast, ← Flow.toOutcome_mapState,
    Flow.andThen_mapState _ fun _ _ => rfl]
  exact congrArg _ (Flow.andThen_mapState _ fun _ t => congrArg (Flow.go ()) (t.recast_update p id o))

theorem flushThenUpdate_recast :
    flushThenUpdate (s.recast p id o) = (flushThenUpdate s).mapState (State.recast p id o) := by
  have hflush : flush (s.recast p id o) = (flush s).mapState (State.recast p id o) := by
    unfold flush
    rw [State.recast_mem, show tailStart (s.recast p id o) = tailStart s from rfl]
    split
    · rfl
    · rw [dstCopy_recast]
      refine Flow.andThen_mapState _ fun k t => ?_
      show (if (t.addFlushed k).flushed.toNat < Config.tableSize - t.stackStart.toNat then _ else _) = _
      split <;> rfl
  unfold flushThenUpdate
  rw [hflush]
  exact Flow.andThen_mapState _ fun _ t => congrArg (Flow.go ()) (t.recast_update p id o)

theorem flushStep_recast : flushStep (s.recast p id o) = mapNext (State.recast p id o) (flushStep s) := by
  rw [flushStep_eq, flushThenUpdate_recast, Flow.toOutcome_mapState, ← flushStep_eq]

theorem expandStep_recast (kw : Bool) (c : CodeValue) :
    expandStep kw c (s.recast p id o) = mapNext (State.recast p id o) (expandStep kw c s) := by
  unfold expandStep
  rw [walk_recast, ← Flow.toOutcome_mapState]
  exact congrArg _ (Flow.andThen_mapState _ fun _ t => flushThenUpdate_recast p o (t.enterCode c .flush))

theorem dispatchCode_recast (c : CodeValue) :
    dispatchCode c (s.recast p id o) = mapNext (State.recast p id o) (dispatchCode c s) := by
  unfold dispatchCode classify
  rw [State.recast_codeSpace]
  split
  · exact literalStep_recast p o (s.enterCode c .emitLit)
  split
  · rfl
  split
  · rfl
  split
  · exact expandStep_recast p o s false c
  split
  · exact expandStep_recast p o s true c
  · rfl

end

/-! ### STATUS while a command runs -/

/-- The state with another STATUS, as long as no response has been sent. -/
abbrev State.withStatus (o : Status) (s : State) : State := s.recast id id fun _ => o

theorem State.withStatus_of_response {s : State} (h : s.response.isSome = true) (o : Status) : s.withStatus o = s := by
  unfold State.withStatus State.recast
  rw [if_neg (by simpa using Option.isSome_iff_ne_none.1 h)]
  rfl

theorem decodePass_withStatus (o : Status) (s : State) :
    decodePass (s.withStatus o) = mapNext (State.withStatus o) (decodePass s) := by
  cases hphase : s.phase with
  | idle =>
    rw [decodePass_idle hphase, decodePass_idle (s := s.withStatus o) hphase, freshStart_recast]
    rfl
  | fill =>
    have hparse := parseCode_recast id (fun _ => o) s
    unfold decodePass
    rw [State.recast_phase, hphase]
    simp only [hparse]
    cases parseCode s with
    | go _ t => exact dispatchCode_recast id (fun _ => o) t t.code
    | stop t => rfl
    | fault f => rfl
  | emitLit =>
    rw [decodePass_emitLit hphase, decodePass_emitLit (s := s.withStatus o) hphase, literalStep_recast]
  | flush =>
    rw [decodePass_flush hphase, decodePass_flush (s := s.withStatus o) hphase, flushStep_recast]

/-- The loop does not depend on the STATUS it begins with: the end of the command writes it (60_exceptions.md R205). -/
theorem decodeLoop_withStatus (n : Nat) {s : State} (h : s.response = none) (o : Status) :
    decodeLoop n (s.withStatus o) = decodeLoop n s := by
  induction n generalizing s with
  | zero => rfl
  | succ n ih =>
    unfold decodeLoop
    rw [decodePass_withStatus]
    cases decodePass s with
    | next t =>
      show (if t.response.isSome then .next (t.withStatus o) else decodeLoop n (t.withStatus o)) = _
      split
      · rename_i hsent
        simp only [State.withStatus_of_response hsent, hsent, if_true]
      · rename_i hsent
        simp only [ih (by simpa using hsent), hsent, Bool.false_eq_true, if_false]
    | fault f => rfl
    | refused r => rfl

end Sys2Proof.Machine
end

section
/-! Chunk invariance (40_host_commands.md R110): a DECODE that suspends at a cut of one of its arrays, and is resumed with the rest
given back, ends as the one DECODE with the whole array. -/

namespace Sys2Proof.Machine

/-! ### A cut DECODE beside the whole one -/

/-- With STATUS kept, a recast changes the ports only. -/
theorem State.recast_id (p : SrcPort → SrcPort) (q : DstPort → DstPort) (s : State) :
    s.recast p q id = { s with src := p s.src, dst := q s.dst } := by
  unfold State.recast
  rw [id_eq, ite_self]

theorem State.recast_beginCommand (p : SrcPort → SrcPort) (q : DstPort → DstPort) (s : State) :
    (s.recast p q id).beginCommand = s.beginCommand.recast p q id := by
  rw [State.recast_id, State.recast_id]
  rfl

/-- A suspension that is issued again begins with the suspended state, but for its STATUS. -/
theorem State.ret_recast_beginCommand (p : SrcPort → SrcPort) (q : DstPort → DstPort) {s : State} (h : s.response = none)
    (o : Status) : ((s.ret o).recast p q id).beginCommand = (s.recast p q id).withStatus o := by
  rw [State.recast_id, State.recast_id]
  unfold State.beginCommand State.ret State.withStatus State.recast
  simp only [h, Option.isNone_none, if_true, id_eq]

/-- One pass of a cut DECODE, `x`, beside the pass of the whole one, `y`, where `f` gives the rest of the array back. While the cut
DECODE goes on, so does the whole one, in the state with the rest. When the cut DECODE suspends with `stop`, the pass it is
resumed with is `y`. -/
def CutPass (f : State → State) (stop : Status) (x y : Host.Outcome State Fault Refusal) : Prop :=
  ∀ t, x = .next t →
    (t.response = none → y = .next (f t)) ∧
      (t.response = some stop →
        ∃ w : State, w.response = none ∧ (f t).beginCommand = w.withStatus stop ∧ decodePass w = y)

/-- A pass that does not suspend with `stop` and does not see the cut. -/
theorem CutPass.of_mapNext {f : State → State} {stop : Status} {x : Host.Outcome State Fault Refusal}
    (h : ∀ t, x = .next t → t.response ≠ some stop) : CutPass f stop x (mapNext f x) :=
  fun t hx => ⟨fun _ => mapNext_eq_next hx, fun hstop => absurd hstop (h t hx)⟩

/-- A pass that ends the command with another outcome than `stop`. -/
theorem CutPass.of_ended {f : State → State} {stop o : Status} {t : State} {y : Host.Outcome State Fault Refusal}
    (ht : t.response = some o) (hne : o ≠ stop) : CutPass f stop (.next t) y := by
  intro u hu
  obtain rfl := Host.Outcome.next.inj hu
  rw [ht]
  exact ⟨nofun, fun h => absurd (Option.some.inj h) hne⟩

theorem decodeLoop_congr {s t : State} (h : decodePass s = decodePass t) (n : Nat) : decodeLoop n s = decodeLoop n t := by
  cases n with
  | zero => rfl
  | succ n =>
    unfold decodeLoop
    rw [h]

/-- The loop of the whole DECODE is, after the passes of the cut one, the loop of the resumed one. -/
theorem decodeLoop_resumes {p : SrcPort → SrcPort} {q : DstPort → DstPort} {stop : Status}
    (hcut : ∀ v : State, v.Running → CutPass (State.recast p q id) stop (decodePass v) (decodePass (v.recast p q id)))
    {n : Nat} {v t : State} (hv : v.Running) (hloop : decodeLoop n v = .next t) (hstop : t.response = some stop) :
    ∃ j, ∀ m, decodeLoop (m + j) (v.recast p q id) = decodeLoop m (t.recast p q id).beginCommand := by
  induction n generalizing v with
  | zero => cases hloop
  | succ n ih =>
    obtain ⟨u, hu, -, -, -⟩ := hv.pass
    obtain ⟨hon, hend⟩ := hcut v hv u hu
    rw [decodeLoop_succ n v hu] at hloop
    split at hloop
    · obtain rfl := Host.Outcome.next.inj hloop
      obtain ⟨w, hsilent, hbegin, hpass⟩ := hend hstop
      refine ⟨0, fun m => ?_⟩
      rw [hbegin, decodeLoop_withStatus m hsilent, decodeLoop_congr hpass, Nat.add_zero]
    · rename_i hsilent
      have hnone : u.response = none := by simpa using hsilent
      obtain ⟨j, hj⟩ := ih (hv.next hu hnone).1 hloop
      refine ⟨j + 1, fun m => ?_⟩
      rw [← hj m, ← Nat.add_assoc, decodeLoop_succ _ _ (hon hnone)]
      exact if_neg hsilent

/-- The loop invariant asks of the ports that they are legal. -/
theorem State.LoopInv.setPorts {s : State} (h : s.LoopInv) {p : SrcPort} {q : DstPort} (hp : p.wf = true) (hq : q.wf = true) :
    State.LoopInv { s with src := p, dst := q } :=
  ⟨h.mem_wf, ⟨hp, hq⟩, fun hd => { h.registers hd with }, h.table, fun hd hphase => { h.flush hd hphase with }⟩

/-- A read Cursor stays legal. -/
theorem SrcPort.ReadTo.wf {p q : SrcPort} (h : p.ReadTo q) (hwf : p.wf = true) : q.wf = true := by
  obtain ⟨-, hdata, hwi, -⟩ := h.unmoved
  have hbounded := Nat.le_trans h.bounded (capByLimit_le _ _)
  have hri := h.ri_le
  rw [SrcPort.wf_iff] at hwf ⊢
  rw [hdata, hwi]
  omega

/-- A written Cursor stays legal. -/
theorem DstPort.WrittenTo.wf {p q : DstPort} (h : p.WrittenTo q) (hwf : p.wf = true) : q.wf = true := by
  obtain ⟨-, hlength, hlen, -⟩ := h.unmoved
  have hbounded := Nat.le_trans h.bounded p.space_le
  have hwi := h.wi_le
  rw [DstPort.wf_iff] at hwf ⊢
  rw [hlength, hlen]
  omega

/-- Legal Cursors on arrays at accepted places are accepted. -/
theorem State.portsAccepted.of_arrays {s t : State} (h : s.portsAccepted) (hcursors : t.cursorsLegal)
    (hsrc : t.src.base = s.src.base ∧ t.src.data.length = s.src.data.length)
    (hdst : t.dst.base = s.dst.base ∧ t.dst.data.length = s.dst.data.length) : t.portsAccepted := by
  obtain ⟨hsbase, hslen⟩ := hsrc
  obtain ⟨hdbase, hdlen⟩ := hdst
  refine ⟨hcursors, ?_⟩
  rw [arraysOverlap, hsbase, hslen, hdbase, hdlen]
  exact h.2

/-- The resumed DECODE and the whole one answer alike. -/
theorem exec_decode_resumes {p : SrcPort → SrcPort} {q : DstPort → DstPort} {stop : Status} (hsuspends : isError stop = false)
    (hcut : ∀ v : State, v.Running → CutPass (State.recast p q id) stop (decodePass v) (decodePass (v.recast p q id)))
    {s t : State} (hinv : s.LoopInv) (hready : s.ready)
    (hports : ∀ u : State, s.PassTo u → (u.recast p q id).portsAccepted)
    (hexec : exec .decode s = .next t) (hstop : t.response = some stop) :
    answersAgree (exec .decode (t.recast p q id)) (exec .decode (s.recast p q id)) := by
  have hrecast : ∀ u : State, s.PassTo u → u.LoopInv → (u.recast p q id).LoopInv := fun u hpass huinv => by
    obtain ⟨⟨hp, hq⟩, -⟩ := hports u hpass
    rw [State.recast_id]
    exact huinv.setPorts hp hq
  have hready' : ∀ u : State, u.ready → (u.recast p q id).ready := fun u hu => by
    rw [State.recast_id]
    exact hu
  rcases execDecode_next hexec with ⟨hnot, -⟩ | ⟨-, -, rfl⟩ | ⟨-, -, -, rfl⟩ | ⟨-, hsports, hloop⟩
  · exact absurd hready hnot
  · cases hstop
  · cases hstop
  · obtain ⟨u, hu, htinv, hpass, hended⟩ := exec_decode_answers hinv hready hsports
    obtain rfl := Host.Outcome.next.inj (hexec.symm.trans hu)
    have hstatus : t.status = stop := Option.some.inj (hended.1.symm.trans hstop)
    have htready : t.ready := ⟨hpass.initDone.trans hready.1, hstatus ▸ hsuspends⟩
    obtain ⟨j, hj⟩ := decodeLoop_resumes hcut (.begin hinv hready) hloop hstop
    have htports := hports t hpass
    have hwports := hports s (.refl s)
    obtain ⟨x, hx, -⟩ := exec_decode_answers (hrecast t hpass htinv) (hready' t htready) htports
    obtain ⟨y, hy, -⟩ := exec_decode_answers (hrecast s (.refl s) hinv) (hready' s hready) hwports
    refine ⟨x, y, hx, hy, ?_⟩
    rw [exec_decode_of_accepted htports (hready' t htready), ← hj] at hx
    rw [exec_decode_of_accepted hwports (hready' s hready), State.recast_beginCommand] at hy
    obtain rfl := decodeLoop_unique hx hy
    exact .refl x

/-! ### The outcomes a pass can suspend with -/

/-- The fresh start never suspends (40_host_commands.md R106). -/
theorem freshStart_response (s : State) :
    (freshStart s).response = s.response ∨ (freshStart s).response = some .badLiteralWidth := by
  unfold freshStart
  split
  · exact .inl rfl
  · exact .inr rfl

theorem parseCode_stop_response {s t : State} (hwf : s.src.wf = true) (h : parseCode s = .stop t) :
    t.response = some .shortRead ∨ t.response = some .unexpectedEof := by
  obtain ⟨r, -, hread, -⟩ := parseCode_stop hwf h
  obtain ⟨rfl, -⟩ | ⟨rfl, -⟩ := srcRead_stop hread
  · exact .inl rfl
  · exact .inr rfl

section
variable {s t : State} (hsilent : s.response = none)
include hsilent

theorem freshStart_no_suspension {o : Status} (hne : Status.badLiteralWidth ≠ o) : (freshStart s).response ≠ some o := by
  rcases freshStart_response s with h | h <;> rw [h]
  · rw [hsilent]
    exact nofun
  · exact fun hsome => hne (Option.some.inj hsome)

theorem literalStep_no_shortRead (h : literalStep s = .next t) : t.response ≠ some .shortRead := by
  rcases literalStep_next h with ⟨-, rfl⟩ | ⟨-, -, rfl⟩ | ⟨-, -, -, rfl⟩
  · exact nofun
  · exact nofun
  · simp [hsilent]

theorem flushStep_no_shortRead (h : flushStep s = .next t) : t.response ≠ some .shortRead := by
  rcases flushStep_next h with ⟨-, rfl⟩ | ⟨l, -, -, -, rfl | rfl⟩
  · exact nofun
  · exact nofun
  · simp [hsilent]

theorem expandStep_no_shortRead {kw : Bool} {c : CodeValue} (h : expandStep kw c s = .next t) :
    t.response ≠ some .shortRead := by
  rcases expandStep_next h with rfl | ⟨stack, start, b, hflush⟩
  · exact nofun
  · exact flushStep_no_shortRead (s := (s.setExpansion stack start b).enterCode c .flush) hsilent hflush

/-- Only the parser suspends with short-read. -/
theorem dispatchCode_no_shortRead {c : CodeValue} (h : dispatchCode c s = .next t) : t.response ≠ some .shortRead := by
  unfold dispatchCode classify at h
  split at h
  · exact literalStep_no_shortRead (s := s.enterCode c .emitLit) hsilent h
  split at h
  · obtain rfl := Host.Outcome.next.inj h
    simp [hsilent]
  split at h
  · obtain rfl := Host.Outcome.next.inj h
    exact nofun
  split at h
  · exact expandStep_no_shortRead hsilent h
  split at h
  · exact expandStep_no_shortRead hsilent h
  · obtain rfl := Host.Outcome.next.inj h
    exact nofun

end

end Sys2Proof.Machine
end

section
/-! A cut source (40_host_commands.md R110, 41_bitstream_parser.md R133): the parser suspends at the cut with the bits it has, and
goes on from them when the rest of the source is there. -/

namespace Sys2Proof.Machine

/-- The open source whose bytes from index `m` on are still to come. -/
def SrcPort.cut (m : Nat) (p : SrcPort) : SrcPort := { p with wi := m, closed := false }

/-- The source with `d` more bytes of its array to read, and its end as given. -/
def SrcPort.extend (d : Nat) (closed : Bool) (p : SrcPort) : SrcPort := { p with wi := p.wi + d, closed := closed }

theorem SrcPort.cut_wf {p : SrcPort} {m : Nat} (hwf : p.wf = true) (hmin : p.ri ≤ m) (hmax : m ≤ p.wi) :
    (p.cut m).wf = true :=
  (SrcPort.wf_iff _).2 ⟨hmin, Nat.le_trans hmax ((SrcPort.wf_iff p).1 hwf).2⟩

/-- After some reads from the cut source, giving the rest back makes it legal and sets its end to what it was. -/
theorem SrcPort.ReadTo.extend_cut {p q : SrcPort} {m : Nat} (h : (p.cut m).ReadTo q) (hwf : p.wf = true) (hmin : p.ri ≤ m)
    (hmax : m ≤ p.wi) : (q.extend (p.wi - m) p.closed).wf = true ∧
      q.extend (p.wi - m) p.closed = { q with wi := p.wi, closed := p.closed } := by
  obtain ⟨-, hdata, hend, -⟩ := h.unmoved
  have hwi : q.wi = m := hend
  have hlegal := (SrcPort.wf_iff q).1 (h.wf (SrcPort.cut_wf hwf hmin hmax))
  have hlength : p.wi ≤ q.data.length := hdata ▸ ((SrcPort.wf_iff p).1 hwf).2
  rw [SrcPort.extend, hwi, Nat.add_sub_cancel' hmax]
  exact ⟨(SrcPort.wf_iff _).2 ⟨Nat.le_trans hlegal.1 (hwi ▸ hmax), hlength⟩, rfl⟩

/-- The state with `d` more source bytes. -/
abbrev State.extendSrc (d : Nat) (closed : Bool) (s : State) : State := s.recast (SrcPort.extend d closed) id id

/-! ### FILL's passes -/

/-- SrcRead goes on where a byte can be read (20_memory.md R63). -/
theorem srcRead_of_unread {s : State} {b : Byte} (hbyte : s.src.data[s.src.ri]? = some b) (hunread : s.src.ri ≠ s.src.wi)
    (hlimit : 0 ∉ s.src.limits) : srcRead s = .go b (s.setSrc s.src.advance) := by
  unfold srcRead
  rw [if_neg fun h => hlimit ((effectiveLimit_eq_zero_iff _).1 h), if_neg hunread, hbyte]

/-- One FILL read adds eight bits, and leaves WIDTH. -/
theorem srcRead_pushByte {s t : State} {b : Byte} (h : srcRead s = .go b t) (hn : s.nbits.toNat ≤ 16) :
    (t.pushByte b).nbits.toNat = s.nbits.toNat + 8 ∧ (t.pushByte b).width = s.width := by
  obtain ⟨-, -, -, rfl⟩ := srcRead_go h
  refine ⟨?_, rfl⟩
  have height : (8 : BitVec 5).toNat = 8 := rfl
  rw [State.pushByte_nbits, BitVec.toNat_add, State.setSrc_nbits]
  omega

/-- FILL needs no more passes than bring NBITS to WIDTH. -/
theorem fillLoop_of_enough {n k : Nat} {s : State} (hmax : s.width.toNat ≤ 12) (henough : s.width.toNat ≤ s.nbits.toNat + 8 * k)
    (hle : k ≤ n) : fillLoop n s = fillLoop k s := by
  induction k generalizing n s with
  | zero =>
    cases n with
    | zero => rfl
    | succ n => exact if_neg (by omega)
  | succ k ih =>
    obtain ⟨n, rfl⟩ : ∃ m, n = m + 1 := ⟨n - 1, by omega⟩
    unfold fillLoop
    split
    · cases hread : srcRead s with
      | go b t =>
        obtain ⟨hnbits, hwidth⟩ := srcRead_pushByte hread (by omega)
        exact ih (by rw [hwidth]; exact hmax) (by rw [hwidth, hnbits]; omega) (by omega)
      | stop t => rfl
      | fault f => rfl
    · rfl

section
variable {s t : State} {d : Nat} {closed : Bool}

/-- A byte that can be read from the cut source can be read from the whole one. -/
theorem srcRead_extendSrc {b : Byte} (hwf : s.src.wf = true) (h : srcRead s = .go b t) :
    srcRead (s.extendSrc d closed) = .go b (t.extendSrc d closed) := by
  obtain ⟨hbyte, hunread, hlimit, rfl⟩ := srcRead_go h
  have hri := ((SrcPort.wf_iff _).1 hwf).1
  exact srcRead_of_unread (s := s.extendSrc d closed) hbyte (show s.src.ri ≠ s.src.wi + d by omega) hlimit

theorem fillLoop_extendSrc_go {n : Nat} (hwf : s.src.wf = true) (h : fillLoop n s = .go () t) :
    fillLoop n (s.extendSrc d closed) = .go () (t.extendSrc d closed) := by
  induction n generalizing s with
  | zero =>
    injection h with _ h
    exact h ▸ rfl
  | succ n ih =>
    unfold fillLoop at h ⊢
    rw [State.recast_nbits, State.recast_width]
    split at h
    · rename_i hfew
      obtain ⟨b, r, hread, hrest⟩ := Flow.andThen_eq_go h
      rw [if_pos hfew, srcRead_extendSrc hwf hread, Flow.andThen_go]
      exact ih ((srcRead_filledTo hwf hread).1.src_wf hwf) hrest
    · rename_i henough
      injection h with _ h
      rw [if_neg henough, h]

/-- Where FILL stops at the cut, after some reads and with `k` passes left, the whole source goes on from. -/
theorem fillLoop_extendSrc_stop {n : Nat} (hwf : s.src.wf = true) (hmax : s.width.toNat ≤ 12)
    (henough : s.width.toNat ≤ s.nbits.toNat + 8 * n) (h : fillLoop n s = .stop t) :
    ∃ (r : State) (k : Nat), s.FilledTo r ∧ srcRead r = .stop t ∧ k ≤ n ∧ r.width.toNat ≤ r.nbits.toNat + 8 * k ∧
      fillLoop n (s.extendSrc d closed) = fillLoop k (r.extendSrc d closed) := by
  induction n generalizing s with
  | zero => cases h
  | succ n ih =>
    unfold fillLoop at h
    split at h
    · rename_i hfew
      obtain hread | ⟨b, v, hread, hrest⟩ := Flow.andThen_eq_stop h
      · exact ⟨s, n + 1, .refl s, hread, Nat.le_refl _, henough, rfl⟩
      · obtain ⟨hnbits, hwidth⟩ := srcRead_pushByte hread (by omega)
        have hfilled := (srcRead_filledTo hwf hread).1
        obtain ⟨r, k, hr, hstop, hk, hbits, heq⟩ := ih (hfilled.src_wf hwf) (by rw [hwidth]; exact hmax)
          (by rw [hwidth, hnbits]; omega) hrest
        refine ⟨r, k, hfilled.trans hr, hstop, by omega, hbits, ?_⟩
        rw [← heq]
        exact (if_pos hfew).trans (by rw [srcRead_extendSrc hwf hread]; rfl)
    · cases h

/-! ### ParseCode -/

theorem parseCode_extendSrc_go (hwf : s.src.wf = true) (h : parseCode s = .go () t) :
    parseCode (s.extendSrc d closed) = .go () (t.extendSrc d closed) := by
  obtain ⟨_, r, hfill, hextract⟩ := Flow.andThen_eq_go h
  injection hextract with _ hextract
  unfold parseCode fill
  rw [fillLoop_extendSrc_go hwf hfill, Flow.andThen_go, ← hextract]
  rfl

/-- A code cut in two is parsed from the bits gathered of it as it is parsed whole (41_bitstream_parser.md R133). -/
theorem parseCode_extendSrc_stop (hwf : s.src.wf = true) (hmax : s.width.toNat ≤ 12) (h : parseCode s = .stop t) :
    ∃ r : State, s.FilledTo r ∧ srcRead r = .stop t ∧
      parseCode (s.extendSrc d closed) = parseCode (r.extendSrc d closed) := by
  obtain hfill | ⟨_, _, _, hextract⟩ := Flow.andThen_eq_stop h
  · obtain ⟨r, k, hr, hstop, hk, hbits, heq⟩ := fillLoop_extendSrc_stop (d := d) (closed := closed) hwf hmax (by omega) hfill
    have hwidth : r.width = s.width := by rw [hr.fields]
    refine ⟨r, hr, hstop, ?_⟩
    unfold parseCode fill
    rw [heq, fillLoop_of_enough (s := r.extendSrc d closed) (by rw [State.recast_width, hwidth]; exact hmax) hbits hk]
  · cases hextract

end

/-! ### A pass over a cut source -/

/-- Beside a pass over the cut source stands the same pass over the whole one; only the parser sees the cut. -/
theorem State.Running.cutPass_source {v : State} (hv : v.Running) (d : Nat) (closed : Bool) :
    CutPass (State.extendSrc d closed) .shortRead (decodePass v) (decodePass (v.extendSrc d closed)) := by
  have hwf := hv.loop.cursors.1
  cases hphase : v.phase with
  | idle =>
    rw [decodePass_idle hphase, decodePass_idle (s := v.extendSrc d closed) hphase, freshStart_recast]
    exact .of_mapNext fun t ht => Host.Outcome.next.inj ht ▸ freshStart_no_suspension hv.silent (by decide)
  | emitLit =>
    rw [decodePass_emitLit hphase, decodePass_emitLit (s := v.extendSrc d closed) hphase, literalStep_recast]
    exact .of_mapNext fun t ht => literalStep_no_shortRead hv.silent ht
  | flush =>
    rw [decodePass_flush hphase, decodePass_flush (s := v.extendSrc d closed) hphase, flushStep_recast]
    exact .of_mapNext fun t ht => flushStep_no_shortRead hv.silent ht
  | fill =>
    cases hparse : parseCode v with
    | fault f => exact absurd hparse (parseCode_no_fault hwf f)
    | go u t =>
      have hsilent : t.response = none := by
        rw [(parseCode_go hwf hparse).1]
        exact hv.silent
      rw [decodePass_fill_go hphase hparse,
        decodePass_fill_go (s := v.extendSrc d closed) hphase (parseCode_extendSrc_go hwf hparse), State.recast_code,
        dispatchCode_recast]
      exact .of_mapNext fun _ ht => dispatchCode_no_shortRead hsilent ht
    | stop t =>
      have hmax := (hv.loop.registers ⟨hv.ready, by simp [hphase]⟩).width_max
      obtain ⟨r, hr, hread, heq⟩ := parseCode_extendSrc_stop (d := d) (closed := closed) hwf hmax hparse
      have hkept : r.phase = v.phase ∧ r.response = v.response := by
        rw [hr.fields]
        exact ⟨rfl, rfl⟩
      obtain ⟨hrphase, hrsilent⟩ := hkept
      rw [decodePass_fill_stop hphase hparse]
      obtain ⟨rfl, -⟩ | ⟨rfl, -⟩ := srcRead_stop hread
      · intro u hu
        obtain rfl := Host.Outcome.next.inj hu
        refine ⟨nofun, fun _ => ⟨r.extendSrc d closed, hrsilent.trans hv.silent,
          State.ret_recast_beginCommand _ _ (hrsilent.trans hv.silent) _, ?_⟩⟩
        unfold decodePass
        rw [State.recast_phase, State.recast_phase, hrphase, hphase, heq]
      · exact .of_ended rfl (by decide)

/-- Settles O38: the cut DECODE's passes are the whole one's, and the pass resumed at the cut is the pass that found it. -/
theorem cuttingTheSourceChangesNothing : Obligations.CuttingTheSourceChangesNothing := by
  intro s t m hinv hready hports hmin hmax hexec hstop
  obtain ⟨hsrc, hdst⟩ := hports.1
  have hpassports : ∀ u : State, State.PassTo { s with src := s.src.cut m } u →
      (u.recast (SrcPort.extend (s.src.wi - m) s.src.closed) id id).portsAccepted := fun u hpass => by
    obtain ⟨hsbase, hsdata, -, -⟩ := hpass.src.unmoved
    obtain ⟨hdbase, hdlen, -, -⟩ := hpass.dst.unmoved
    exact hports.of_arrays ⟨(hpass.src.extend_cut hsrc hmin hmax).1, hpass.dst.wf hdst⟩ ⟨hsbase, congrArg _ hsdata⟩
      ⟨hdbase, hdlen⟩
  have hresumes := exec_decode_resumes (s := { s with src := s.src.cut m }) rfl (fun v hv => hv.cutPass_source _ _)
    (hinv.setPorts (SrcPort.cut_wf hsrc hmin hmax) hdst) hready hpassports hexec hstop
  obtain ⟨-, -, -, hread, -⟩ := decodeMovesOnlyThroughThePorts _ _ hexec
  rw [State.recast_id, State.recast_id, (SrcPort.ReadTo.extend_cut hread hsrc hmin hmax).2,
    ((SrcPort.ReadTo.refl (s.src.cut m)).extend_cut hsrc hmin hmax).2] at hresumes
  exact hresumes

end Sys2Proof.Machine
end

section
/-! A cut destination (40_host_commands.md R110, 43_expansion_and_flush.md R185): what does not fit before the cut is written after
it, so an expansion flushed in two goes is the expansion flushed in one. -/

namespace Sys2Proof.Machine

/-- The destination whose array ends at index `m`. -/
def DstPort.cut (m : Nat) (p : DstPort) : DstPort := { p with data := p.data.take m, len := m }

/-- The destination with `rest` after its array. -/
def DstPort.extend (rest : List Byte) (p : DstPort) : DstPort :=
  { p with data := p.data ++ rest, len := p.len + rest.length }

/-- The state with `rest` after the destination array. -/
abbrev State.extendDst (rest : List Byte) (s : State) : State := s.recast id (DstPort.extend rest) id

/-! ### The Cursor -/

theorem DstPort.extend_wf {p : DstPort} (h : p.wf = true) (rest : List Byte) : (p.extend rest).wf = true := by
  rw [DstPort.wf_iff] at h ⊢
  simp only [DstPort.extend, List.length_append]
  omega

/-- More of the array is no less space. -/
theorem DstPort.space_le_extend (p : DstPort) (rest : List Byte) : p.space ≤ (p.extend rest).space := by
  obtain ⟨hlen, hlimits⟩ := (le_capByLimit_iff _ _ _).1 (Nat.le_refl p.space)
  refine (le_capByLimit_iff _ _ _).2 ⟨?_, hlimits⟩
  show _ ≤ p.len + rest.length - p.wi
  omega

/-- Bytes that fit before the cut land where they land in the whole array. -/
theorem DstPort.extend_append {p : DstPort} {bytes : List Byte} (h : p.wi + bytes.length ≤ p.data.length)
    (rest : List Byte) : (p.extend rest).append bytes = (p.append bytes).extend rest := by
  simp only [DstPort.extend, DstPort.append, List.take_append_of_le_length (show p.wi ≤ p.data.length by omega),
    List.drop_append_of_le_length h, List.append_assoc]

/-- Two appends are one. -/
theorem DstPort.append_append {p : DstPort} {a b : List Byte} (h : p.wi + a.length ≤ p.data.length) :
    (p.append a).append b = p.append (a ++ b) := by
  have htake : (p.data.take p.wi ++ a).length = p.wi + a.length := by
    rw [List.length_append, List.length_take]
    omega
  have hdrop : (p.data.take p.wi ++ a ++ p.data.drop (p.wi + a.length)).drop (p.wi + a.length + b.length) =
      p.data.drop (p.wi + a.length + b.length) := by
    rw [← List.drop_drop, drop_overwrite (by omega), List.drop_drop]
  unfold DstPort.append
  simp only [decrementLimits_add, List.length_append, ← Nat.add_assoc, List.take_left' htake, hdrop]
  rw [List.append_assoc _ a b]

/-- What space is left once bytes that fit have been appended (20_memory.md R62, R65). -/
theorem DstPort.append_space {p : DstPort} {bytes : List Byte} (h : bytes.length ≤ p.space) :
    (p.append bytes).space = p.space - bytes.length := by
  rw [DstPort.space, DstPort.append, Nat.sub_add_eq]
  exact capByLimit_sub h

/-! ### A flush in two goes -/

/-- The state after a flush has written `bytes`, `n` bytes of the expansion being out. -/
def State.flushedTo (n : Nat) (bytes : List Byte) (s : State) : State :=
  { s with flushed := BitVec.ofNat 13 n, dst := s.dst.append bytes }

/-- The step of FLUSH on an open destination writes the whole tail and updates, or writes what fits and suspends. -/
theorem flushStep_cases {s : State} {l : List Byte} (hwf : s.dst.wf = true) (hopen : s.dst.closed = false)
    (hl : Table.readRun s.mem.stackTab (tailStart s) (4096 - tailStart s) = some l) (hle : tailStart s ≤ 4096) :
    (l.length ≤ s.dst.space ∧ flushStep s = .next (s.flushedTo (4096 - s.stackStart.toNat) l).update) ∨
      (s.dst.space < l.length ∧ flushStep s =
        .next ((s.flushedTo (s.flushed.toNat + s.dst.space) (l.take s.dst.space)).ret .shortWrite)) := by
  have hstep := flushStep_of_open hwf hopen hl hle
  by_cases hfit : l.length ≤ s.dst.space
  · exact .inl ⟨hfit, hstep.trans (if_pos hfit)⟩
  · exact .inr ⟨Nat.lt_of_not_le hfit, hstep.trans (if_neg hfit)⟩

/-- A flush goes on from where it stopped as if it had not stopped (43_expansion_and_flush.md R185). -/
theorem flushStep_flushedTo {s : State} {l : List Byte} {k : Nat} (hwf : s.dst.wf = true) (hopen : s.dst.closed = false)
    (hl : Table.readRun s.mem.stackTab (tailStart s) (4096 - tailStart s) = some l) (hle : tailStart s ≤ 4096)
    (hk : k ≤ l.length) (hspace : k ≤ s.dst.space) :
    flushStep (s.flushedTo (s.flushed.toNat + k) (l.take k)) = flushStep s := by
  obtain ⟨hlen, hread⟩ := (Table.readRun_eq_some_iff _ _ _ _).1 hl
  obtain ⟨hwi, hdata⟩ := (DstPort.wf_iff _).1 hwf
  have hroom := s.dst.space_le
  have hcount : (l.take k).length = k := List.length_take_of_le hk
  have hfits : s.dst.wi + (l.take k).length ≤ s.dst.data.length := by omega
  have hflushed : (BitVec.ofNat 13 (s.flushed.toNat + k)).toNat = s.flushed.toNat + k := by
    unfold tailStart at hlen hle
    rw [BitVec.toNat_ofNat]
    omega
  have htail : tailStart (s.flushedTo (s.flushed.toNat + k) (l.take k)) = tailStart s + k := by
    rw [tailStart, State.flushedTo, hflushed, ← Nat.add_assoc]
    rfl
  have hrest : Table.readRun s.mem.stackTab (tailStart s + k) (4096 - (tailStart s + k)) = some (l.drop k) := by
    rw [Table.readRun_eq_some_iff, List.length_drop]
    refine ⟨by omega, fun j hj => ?_⟩
    rw [Nat.add_assoc, hread _ (by omega), List.getElem?_drop]
  have hleft : (s.dst.append (l.take k)).space = s.dst.space - k := by
    rw [DstPort.append_space (by omega), hcount]
  rw [flushStep_of_open hwf hopen hl hle, flushStep_of_open (s := s.flushedTo (s.flushed.toNat + k) (l.take k))
    (DstPort.append_wf hwf hfits) hopen (htail ▸ hrest) (by omega)]
  simp only [State.flushedTo, hleft, hflushed, List.length_drop, DstPort.append_append hfits]
  by_cases hfit : l.length ≤ s.dst.space
  · rw [if_pos hfit, if_pos (by omega), List.take_append_drop]
  · rw [if_neg hfit, if_neg (by omega), Nat.add_assoc, ← List.take_add, Nat.add_sub_cancel' hspace]

/-! ### A pass over a cut destination -/

section
variable (rest : List Byte) {v : State}

theorem State.flushedTo_extendDst {bytes : List Byte} (h : v.dst.wi + bytes.length ≤ v.dst.data.length) (n : Nat) :
    (v.extendDst rest).flushedTo n bytes = (v.flushedTo n bytes).extendDst rest := by
  rw [State.flushedTo, State.recast_dst, DstPort.extend_append h]
  rfl

theorem literalStep_cutPass (hwf : v.dst.wf = true) (hsilent : v.response = none) (hphase : v.phase = .emitLit) :
    CutPass (State.extendDst rest) .shortWrite (literalStep v) (literalStep (v.extendDst rest)) := by
  intro t ht
  rcases literalStep_next ht with ⟨-, rfl⟩ | ⟨-, -, rfl⟩ | ⟨hopen, hspace, hfits, rfl⟩
  · exact ⟨nofun, nofun⟩
  · exact ⟨nofun, fun _ => ⟨v.extendDst rest, hsilent, State.ret_recast_beginCommand _ _ hsilent _,
      decodePass_emitLit (s := v.extendDst rest) hphase⟩⟩
  · refine ⟨fun _ => ?_, fun h => by simp [hsilent] at h⟩
    have hroom : 0 < (v.dst.extend rest).space := Nat.lt_of_lt_of_le (Nat.pos_of_ne_zero hspace) (v.dst.space_le_extend rest)
    have hwrite : ((v.extendDst rest).setDst ((v.extendDst rest).dst.append [literalByte v.code])).setFirstFromCode =
        (v.setDst (v.dst.append [literalByte v.code])).setFirstFromCode.extendDst rest := by
      rw [State.recast_dst, DstPort.extend_append hfits]
      rfl
    rw [literalStep_of_space (s := v.extendDst rest) (DstPort.extend_wf hwf rest) hopen hroom, State.recast_code, hwrite,
      State.recast_update]

theorem flushStep_cutPass (hwf : v.dst.wf = true) (hsilent : v.response = none) (hphase : v.phase = .flush)
    (hle : tailStart v ≤ 4096) :
    CutPass (State.extendDst rest) .shortWrite (flushStep v) (flushStep (v.extendDst rest)) := by
  intro t ht
  obtain ⟨-, rfl⟩ | ⟨l, hopen, hl, -, -⟩ := flushStep_next ht
  · exact ⟨nofun, nofun⟩
  have hlonger := v.dst.space_le_extend rest
  have hroom := v.dst.space_le
  obtain ⟨hwi, hdata⟩ := (DstPort.wf_iff _).1 hwf
  have hwf' : (v.extendDst rest).dst.wf = true := DstPort.extend_wf hwf rest
  obtain ⟨hfit, hstep⟩ | ⟨hfew, hstep⟩ := flushStep_cases hwf hopen hl hle
  · obtain rfl := Host.Outcome.next.inj (ht.symm.trans hstep)
    obtain ⟨-, hwhole⟩ | ⟨hfew', -⟩ := flushStep_cases (s := v.extendDst rest) hwf' hopen hl hle
    · refine ⟨fun _ => ?_, fun h => by simp [State.flushedTo, hsilent] at h⟩
      rw [hwhole, State.flushedTo_extendDst rest (by omega), State.recast_update]
      rfl
    · exact absurd (Nat.le_trans hfit hlonger) (Nat.not_le.2 hfew')
  · obtain rfl := Host.Outcome.next.inj (ht.symm.trans hstep)
    have hcount : (l.take v.dst.space).length = v.dst.space := List.length_take_of_le (Nat.le_of_lt hfew)
    refine ⟨nofun, fun _ => ⟨_, ?_,
      State.ret_recast_beginCommand _ _ (s := v.flushedTo (v.flushed.toNat + v.dst.space) (l.take v.dst.space)) hsilent _, ?_⟩⟩
    · exact hsilent
    · have hresumed := flushStep_flushedTo (s := v.extendDst rest) hwf' hopen hl hle (Nat.le_of_lt hfew) hlonger
      rw [State.recast_flushed, State.flushedTo_extendDst rest (by omega)] at hresumed
      exact (decodePass_flush (s := (v.flushedTo _ _).extendDst rest) hphase).trans hresumed

/-- What a walk does to the state: nothing, its error, or the expansion (43_expansion_and_flush.md R180, R181). -/
theorem walk_cases (kw : Bool) (c : CodeValue) (s : State) :
    walk kw c s = .fault .readUnwrittenTable ∨ walk kw c s = .stop (s.raise .lzwPrefixChainCyclical) ∨
      ∃ stack start b, walk kw c s = .go () (s.setExpansion stack start b) := by
  unfold walk
  split
  · exact .inl rfl
  · exact .inr (.inl rfl)
  · exact .inr (.inr ⟨_, _, _, rfl⟩)

theorem expandStep_cutPass (hwf : v.dst.wf = true) (hsilent : v.response = none) (kw : Bool) (c : CodeValue) :
    CutPass (State.extendDst rest) .shortWrite (expandStep kw c v) (expandStep kw c (v.extendDst rest)) := by
  unfold expandStep
  rw [walk_recast]
  obtain hwalk | hwalk | ⟨stack, start, b, hwalk⟩ := walk_cases kw c v <;> rw [hwalk]
  · intro t ht
    cases ht
  · exact .of_ended rfl (by decide)
  · have hstart : tailStart ((v.setExpansion stack start b).enterCode c .flush) ≤ 4096 :=
      Nat.le_of_lt (BitVec.ofNat 12 start).isLt
    exact flushStep_cutPass rest (v := (v.setExpansion stack start b).enterCode c .flush) hwf hsilent rfl hstart

theorem dispatchCode_cutPass (hwf : v.dst.wf = true) (hsilent : v.response = none) (c : CodeValue) :
    CutPass (State.extendDst rest) .shortWrite (dispatchCode c v) (dispatchCode c (v.extendDst rest)) := by
  unfold dispatchCode classify
  rw [State.recast_codeSpace]
  split
  · exact literalStep_cutPass rest (v := v.enterCode c .emitLit) hwf hsilent rfl
  split
  · exact .of_mapNext (x := execClr v) fun t ht => by
      obtain rfl := Host.Outcome.next.inj ht
      simp [hsilent]
  split
  · exact .of_ended rfl (by decide)
  split
  · exact expandStep_cutPass rest hwf hsilent false c
  split
  · exact expandStep_cutPass rest hwf hsilent true c
  · exact .of_ended rfl (by decide)

end

/-- Beside a pass into the cut destination stands the same pass into the whole one; only the writes see the cut. -/
theorem State.Running.cutPass_destination {v : State} (hv : v.Running) (rest : List Byte) :
    CutPass (State.extendDst rest) .shortWrite (decodePass v) (decodePass (v.extendDst rest)) := by
  obtain ⟨hsrc, hdst⟩ := hv.loop.cursors
  cases hphase : v.phase with
  | idle =>
    rw [decodePass_idle hphase, decodePass_idle (s := v.extendDst rest) hphase, freshStart_recast]
    exact .of_mapNext fun t ht => Host.Outcome.next.inj ht ▸ freshStart_no_suspension hv.silent (by decide)
  | emitLit =>
    rw [decodePass_emitLit hphase, decodePass_emitLit (s := v.extendDst rest) hphase]
    exact literalStep_cutPass rest hdst hv.silent hphase
  | flush =>
    have htail := (hv.loop.flush ⟨hv.ready, by simp [hphase]⟩ hphase).tail_lt
    rw [decodePass_flush hphase, decodePass_flush (s := v.extendDst rest) hphase]
    exact flushStep_cutPass rest hdst hv.silent hphase (Nat.le_of_lt htail)
  | fill =>
    have hwhole := parseCode_recast (DstPort.extend rest) id v
    cases hparse : parseCode v with
    | fault f => exact absurd hparse (parseCode_no_fault hsrc f)
    | go u t =>
      have hkept : t.dst = v.dst ∧ t.response = v.response := by
        rw [(parseCode_go hsrc hparse).1]
        exact ⟨rfl, rfl⟩
      rw [hparse] at hwhole
      rw [decodePass_fill_go hphase hparse, decodePass_fill_go (s := v.extendDst rest) hphase hwhole, State.recast_code]
      exact dispatchCode_cutPass rest (hkept.1 ▸ hdst) (hkept.2.trans hv.silent) t.code
    | stop t =>
      rw [decodePass_fill_stop hphase hparse]
      obtain hstop | hstop := parseCode_stop_response hsrc hparse
      · exact .of_ended hstop (by decide)
      · exact .of_ended hstop (by decide)

theorem DstPort.cut_wf {p : DstPort} {m : Nat} (hwf : p.wf = true) (hmin : p.wi ≤ m) (hmax : m ≤ p.len) :
    (p.cut m).wf = true := by
  obtain ⟨-, hlen⟩ := (DstPort.wf_iff p).1 hwf
  exact (DstPort.wf_iff _).2 ⟨hmin, (List.length_take_of_le (hlen ▸ hmax)).symm⟩

/-- After some writes into the cut destination, giving the rest back sets its length to what it was. -/
theorem DstPort.WrittenTo.extend_cut {p q : DstPort} {m : Nat} (h : (p.cut m).WrittenTo q) (hwf : p.wf = true)
    (hmax : m ≤ p.len) : q.extend (p.data.drop m) = { q with data := q.data ++ p.data.drop m, len := p.len } := by
  obtain ⟨-, -, hlen, -⟩ := h.unmoved
  obtain ⟨-, hdata⟩ := (DstPort.wf_iff p).1 hwf
  have hm : q.len = m := hlen
  rw [DstPort.extend, hm, List.length_drop, ← hdata, Nat.add_sub_cancel' hmax]

/-- Settles O39: the cut DECODE's passes are the whole one's, and the pass resumed at the cut writes what the cut kept out. -/
theorem cuttingTheDestinationChangesNothing : Obligations.CuttingTheDestinationChangesNothing := by
  intro s t m hinv hready hports hmin hmax hexec hstop
  obtain ⟨hsrc, hdst⟩ := hports.1
  have hcut := DstPort.cut_wf hdst hmin hmax
  have hpassports : ∀ u : State, State.PassTo { s with dst := s.dst.cut m } u →
      (u.recast id (DstPort.extend (s.dst.data.drop m)) id).portsAccepted := fun u hpass => by
    obtain ⟨hsbase, hsdata, -, -⟩ := hpass.src.unmoved
    obtain ⟨hdbase, hdlen, -, -⟩ := hpass.dst.unmoved
    refine hports.of_arrays ⟨hpass.src.wf hsrc, DstPort.extend_wf (hpass.dst.wf hcut) _⟩ ⟨hsbase, congrArg _ hsdata⟩
      ⟨hdbase, ?_⟩
    have hdlen : u.dst.data.length = (s.dst.data.take m).length := hdlen
    show (u.dst.data ++ s.dst.data.drop m).length = _
    rw [List.length_append, hdlen, ← List.length_append, List.take_append_drop]
  have hresumes := exec_decode_resumes (s := { s with dst := s.dst.cut m }) rfl (fun v hv => hv.cutPass_destination _)
    (hinv.setPorts hsrc hcut) hready hpassports hexec hstop
  obtain ⟨-, -, -, -, hwritten⟩ := decodeMovesOnlyThroughThePorts _ _ hexec
  have hwhole : (s.dst.cut m).extend (s.dst.data.drop m) = s.dst := by
    rw [(DstPort.WrittenTo.refl (s.dst.cut m)).extend_cut hdst hmax]
    simp only [DstPort.cut, List.take_append_drop]
  rw [State.recast_id, State.recast_id, DstPort.WrittenTo.extend_cut hwritten hdst hmax, hwhole] at hresumes
  exact hresumes

end Sys2Proof.Machine
end

section
/-! What the codes do, family by family: OOR and CLR, a LIT that cannot write, an expansion whose destination is closed or has
too little space, the frame of LIT, COPY and KWKWK, and the full table (42_code_semantics.md R151 to R160). -/

namespace Sys2Proof.Machine

/-- Settles O54: it is what Update does from every state. -/
theorem updateMakesTheEntryAndGrowsTheWidth : Obligations.UpdateMakesTheEntryAndGrowsTheWidth := State.update_updatedTo

/-- Settles O44: OOR only raises the error, which keeps the ports, the mark and the host's list. -/
theorem oorRaisesCodeOutOfRange : Obligations.OorRaisesCodeOutOfRange := fun _ s =>
  ⟨s.raise .lzwCodeOutOfRange, rfl, rfl, rfl, rfl, rfl, rfl, rfl, rfl, rfl⟩

/-- Settles O42: END_CODE fits the wider SAVE_CODE, and LW + 1 does not wrap. -/
theorem clrResetsTheDictionaryOnly : Obligations.ClrResetsTheDictionaryOnly := by
  intro s hlw
  have hsave : (s.endCode.setWidth 13).toNat = s.endCode.toNat := BitVec.toNat_setWidth_of_le (by decide)
  exact ⟨s.clearState, rfl, hsave, rfl, initialWidth_toNat hlw, rfl⟩

/-! ### LIT that cannot write (43_expansion_and_flush.md R187) -/

/-- When DstWrite ends the command, so does the step of EMIT_LIT. -/
theorem literalStep_of_stop {s t : State} (h : dstWrite (literalByte s.code) s = .stop t) : literalStep s = .next t := by
  unfold literalStep emitLiteral
  rw [h]
  rfl

theorem dstWrite_of_closed {s : State} (hclosed : s.dst.closed = true) (b : Byte) :
    dstWrite b s = .stop (s.raise .closedForWrites) := if_pos hclosed

theorem dstWrite_of_full {s : State} (hopen : s.dst.closed = false) (hfull : s.dst.space = 0) (b : Byte) :
    dstWrite b s = .stop (s.ret .shortWrite) := by
  rw [dstWrite, if_neg (by simp [hopen]), if_pos hfull]

/-- Settles O41: LIT is the step of EMIT_LIT, and it ends as its DstWrite does. -/
theorem litWithoutSpaceKeepsItsCode : Obligations.LitWithoutSpaceKeepsItsCode := by
  intro c s
  constructor
  · intro hclosed
    exact ⟨_, literalStep_of_stop (dstWrite_of_closed (s := s.enterCode c .emitLit) hclosed _), rfl, rfl, rfl, rfl⟩
  · intro hopen hfull
    exact literalStep_of_stop (dstWrite_of_full (s := s.enterCode c .emitLit) hopen hfull _)

/-! ### COPY and KWKWK: the expansion walked, and the three ways its flush ends -/

theorem expandedBytes_head? {kw : Bool} {l : List Byte} {b : Byte} (h : l.head? = some b) :
    (expandedBytes kw l b).head? = some b := by
  cases kw <;> simp [expandedBytes, h]

/-- Settles O46: the flush writes the whole expansion and the byte again, and Update follows. -/
theorem kwkwkWritesThePreviousExpansionAndItsFirstByte :
    Obligations.KwkwkWritesThePreviousExpansionAndItsFirstByte := by
  intro c s l b hwf hopen hexp hhead hlen hfit
  obtain ⟨stack, b', hhead', hstep, hrun, hbelow⟩ := expandStep_of_fits (kw := true) (c := c) hwf hopen hexp
    (show l.length + 1 ≤ 4096 by omega) hfit
  obtain rfl : b = b' := Option.some.inj (hhead.symm.trans hhead')
  have hstart : 4096 - (l.length + 1) = 4095 - l.length := by omega
  have hcount : (expandedBytes true l b).length = l.length + 1 := expandedBytes_length true l b
  have hupdated := State.update_updatedTo (s.expanded c (expandedBytes true l b) stack b)
  rw [Bool.toNat_true, hstart] at hrun hbelow
  refine ⟨_, stack, hstep, hrun, hbelow, ?_⟩
  rw [State.expanded, DstPort.append, hcount, hstart] at hupdated ⊢
  exact hupdated

/-- The state in which `bytes` of the code `c` have been walked onto STACK, none of them written out. -/
def State.walked (c : CodeValue) (bytes : List Byte) (stack : Table 8) (b : Byte) (s : State) : State :=
  (s.setExpansion stack (4096 - bytes.length) b).enterCode c .flush

/-- COPY and KWKWK of a chain that has an expansion are the flush of the bytes they stand for. -/
theorem expandStep_walked {kw : Bool} {c : CodeValue} {s : State} {l : List Byte}
    (hexp : s.exp (walkStart kw c s).2 = some l) (hlen : l.length + kw.toNat ≤ 4096) :
    ∃ stack b, l.head? = some b ∧ expandStep kw c s = flushStep (s.walked c (expandedBytes kw l b) stack b) ∧
      Table.readRun stack (4096 - (expandedBytes kw l b).length) (expandedBytes kw l b).length =
        some (expandedBytes kw l b) ∧
      ∀ j, j < 4096 - (expandedBytes kw l b).length → Table.read stack j = Table.read s.mem.stackTab j := by
  have hslots := walkStart_slots kw c s
  obtain ⟨stack, b, hstep, hhead, hrun, hbelow⟩ := expandStep_of_exp hexp (by omega)
  have hbytes := expandedBytes_length kw l b
  have hstart : (walkStart kw c s).1 + 1 - l.length = 4096 - (expandedBytes kw l b).length := by omega
  have hcount : 4096 - (4096 - (expandedBytes kw l b).length) = (expandedBytes kw l b).length := by omega
  rw [hstart] at hstep hbelow hrun
  rw [hcount] at hrun
  exact ⟨stack, b, hhead, hstep, hrun, hbelow⟩

theorem State.walked_dst (c : CodeValue) (bytes : List Byte) (stack : Table 8) (b : Byte) (s : State) :
    (s.walked c bytes stack b).dst = s.dst := rfl

theorem State.walked_flushed_toNat (c : CodeValue) (bytes : List Byte) (stack : Table 8) (b : Byte) (s : State) :
    (s.walked c bytes stack b).flushed.toNat = 0 := rfl

theorem State.walked_tailStart {bytes : List Byte} (hpos : 0 < bytes.length) (c : CodeValue) (stack : Table 8) (b : Byte)
    (s : State) : tailStart (s.walked c bytes stack b) = 4096 - bytes.length := by
  have hstart : (s.walked c bytes stack b).stackStart.toNat = 4096 - bytes.length := by
    rw [State.walked, State.enterCode_stackStart, State.setExpansion_stackStart, BitVec.toNat_ofNat]
    omega
  rw [tailStart, hstart]
  rfl

/-- The bytes of an expansion are the ones its flush finds on STACK. -/
theorem State.walked_tail {bytes : List Byte} (hpos : 0 < bytes.length) (hlen : bytes.length ≤ 4096) (c : CodeValue)
    {stack : Table 8} (b : Byte) (s : State) (hrun : Table.readRun stack (4096 - bytes.length) bytes.length = some bytes) :
    Table.readRun (s.walked c bytes stack b).mem.stackTab (tailStart (s.walked c bytes stack b))
      (4096 - tailStart (s.walked c bytes stack b)) = some bytes := by
  rw [State.walked_tailStart hpos, Nat.sub_sub_self hlen]
  exact hrun

/-- A flush that begins at STACK_START without space for all of it writes what fits and suspends. -/
theorem flushStep_walked_of_few {c : CodeValue} {bytes : List Byte} {stack : Table 8} {b : Byte} {s : State}
    (hwf : s.dst.wf = true) (hopen : s.dst.closed = false) (hlen : bytes.length ≤ 4096)
    (hrun : Table.readRun stack (4096 - bytes.length) bytes.length = some bytes) (hfew : s.dst.space < bytes.length) :
    flushStep (s.walked c bytes stack b) = .next (State.ret .shortWrite { s.walked c bytes stack b with
      flushed := BitVec.ofNat 13 s.dst.space
      dst := { s.dst with
        data := s.dst.data.take s.dst.wi ++ bytes.take s.dst.space ++ s.dst.data.drop (s.dst.wi + s.dst.space)
        wi := s.dst.wi + s.dst.space, limits := decrementLimits s.dst.space s.dst.limits } }) := by
  have hpos : 0 < bytes.length := Nat.zero_lt_of_lt hfew
  have hcount : (bytes.take s.dst.space).length = s.dst.space := List.length_take_of_le (Nat.le_of_lt hfew)
  have hstart : tailStart (s.walked c bytes stack b) ≤ 4096 := State.walked_tailStart hpos c stack b s ▸ Nat.sub_le _ _
  obtain ⟨hfit, -⟩ | ⟨-, hflush⟩ :=
    flushStep_cases (s := s.walked c bytes stack b) hwf hopen (State.walked_tail hpos hlen c b s hrun) hstart
  · exact absurd hfit (Nat.not_le.2 hfew)
  · rw [hflush, State.walked_dst, State.walked_flushed_toNat, Nat.zero_add, State.flushedTo, State.walked_dst,
      DstPort.append, hcount]

/-- The two forms of what a code stands for are the bytes of one walk with two starts (43_expansion_and_flush.md R183). -/
theorem exists_walk_of_expansion {kw : Bool} {c : CodeValue} {s : State} {l : List Byte}
    (h : if kw then ∃ p b, s.exp s.prevCode = some p ∧ p.head? = some b ∧ p.length ≤ 4095 ∧ l = p ++ [b]
      else s.exp c = some l ∧ l.length ≤ 4096) :
    ∃ p b, s.exp (walkStart kw c s).2 = some p ∧ p.head? = some b ∧ p.length + kw.toNat ≤ 4096 ∧
      l = expandedBytes kw p b := by
  cases kw with
  | true =>
    obtain ⟨p, b, hexp, hhead, hlen, hl⟩ := h
    exact ⟨p, b, hexp, hhead, Nat.succ_le_succ hlen, hl⟩
  | false =>
    obtain ⟨hexp, hlen⟩ := h
    have hpos := expansion_pos hexp
    exact ⟨l, l[0], hexp, List.head?_eq_getElem? ▸ List.getElem?_eq_getElem hpos, hlen, rfl⟩

/-- Settles O48: the flush of the walked bytes suspends before Update. -/
theorem expansionThatDoesNotFitSuspendsInFlush : Obligations.ExpansionThatDoesNotFitSuspendsInFlush := by
  intro kw c s l hwf hopen hl hfew
  obtain ⟨p, b, hexp, hhead, hlen, rfl⟩ := exists_walk_of_expansion hl
  obtain ⟨stack, b', hhead', hstep, hrun, hbelow⟩ := expandStep_walked hexp hlen
  obtain rfl : b = b' := Option.some.inj (hhead.symm.trans hhead')
  have hmax : (expandedBytes kw p b).length ≤ 4096 := (expandedBytes_length kw p b).trans_le hlen
  refine ⟨_, stack, b, ?_, expandedBytes_head? hhead, hrun, hbelow, rfl⟩
  rw [exec_copy_or_kwkwk, hstep, flushStep_walked_of_few hwf hopen hmax hrun hfew]
  rfl

/-- On a closed destination the step of FLUSH raises the error. -/
theorem flushStep_of_closed {s : State} {l : List Byte}
    (hl : Table.readRun s.mem.stackTab (tailStart s) (4096 - tailStart s) = some l) (hclosed : s.dst.closed = true) :
    flushStep s = .next (s.raise .closedForWrites) := by
  unfold flushStep flushThenUpdate flush
  rw [show Config.tableSize = 4096 from rfl, hl]
  simp only [dstCopy_of_closed hclosed]
  rfl

/-- Settles O50: the flush of the walked bytes finds the destination closed. -/
theorem expansionOnAClosedDestinationFails : Obligations.ExpansionOnAClosedDestinationFails := by
  intro kw c s l hclosed hexp hlen
  rw [← walkStart_code] at hexp
  have hmax : l.length + kw.toNat ≤ 4096 := by
    cases kw with
    | true => exact Nat.succ_le_succ hlen
    | false => exact hlen
  obtain ⟨stack, b, -, hstep, hrun, -⟩ := expandStep_walked hexp hmax
  have hbytes := expandedBytes_length kw l b
  have hpos := expansion_pos hexp
  have htail := State.walked_tail (by omega) (by omega) c b s hrun
  refine ⟨s.raise .closedForWrites, ?_, rfl, rfl, rfl, rfl⟩
  rw [exec_copy_or_kwkwk, hstep, flushStep_of_closed htail hclosed]
  rfl

/-! ### The frame of LIT, COPY and KWKWK -/

/-- `u` is `s` with the code `c` taken and bytes written, short of what Update or an answer sets. -/
structure State.WrittenFor (c : CodeValue) (s u : State) : Prop where
  fields : u = { s with
    code := c, phase := u.phase, first := u.first, stackStart := u.stackStart, flushed := u.flushed
    mem := { s.mem with stackTab := u.mem.stackTab }, dst := u.dst }
  dst : s.dst.WrittenTo u.dst

theorem execLit_next {c : CodeValue} {s t : State} (h : execLit c s = .next t) :
    t = s.raise .closedForWrites ∨ ∃ u, s.WrittenFor c u ∧
      (u.mem.stackTab = s.mem.stackTab ∧ u.stackStart = s.stackStart ∧ u.flushed = s.flushed) ∧
      (t = u.ret .shortWrite ∨ t = u.update) := by
  rcases literalStep_next h with ⟨-, rfl⟩ | ⟨-, -, rfl⟩ | ⟨-, hspace, hfits, rfl⟩
  · exact .inl rfl
  · exact .inr ⟨s.enterCode c .emitLit, ⟨rfl, .refl _⟩, ⟨rfl, rfl, rfl⟩, .inl rfl⟩
  · exact .inr ⟨((s.enterCode c .emitLit).setDst (s.dst.append [literalByte c])).setFirstFromCode,
      ⟨rfl, DstPort.append_writtenTo hfits (Nat.pos_of_ne_zero hspace)⟩, ⟨rfl, rfl, rfl⟩, .inr rfl⟩

theorem expandStep_next_writtenFor {kw : Bool} {c : CodeValue} {s t : State} (h : expandStep kw c s = .next t) :
    (t = s.raise .closedForWrites ∨ t = s.raise .lzwPrefixChainCyclical) ∨
      ∃ u, s.WrittenFor c u ∧ (t = u.ret .shortWrite ∨ t = u.update) := by
  obtain rfl | ⟨stack, start, b, hflush⟩ := expandStep_next h
  · exact .inl (.inr rfl)
  obtain ⟨-, rfl⟩ | ⟨l, -, -, hfits, hend⟩ := flushStep_next hflush
  · exact .inl (.inl rfl)
  · have hcopied := copied_length l s
    refine .inr ⟨_, ⟨rfl, DstPort.append_writtenTo ?_ ?_⟩, hend⟩
    · exact hcopied.symm ▸ hfits
    · exact hcopied.symm ▸ Nat.min_le_right _ _

/-- How LIT, COPY and KWKWK end, from every state: with an error, suspended, or after Update. -/
theorem exec_ordinary_next {i : Instr} {c : CodeValue} {s t : State} (hi : i = .lit c ∨ i = .copy c ∨ i = .kwkwk c)
    (h : exec i s = .next t) :
    (t = s.raise .closedForWrites ∨ t = s.raise .lzwPrefixChainCyclical) ∨
      ∃ u, s.WrittenFor c u ∧ (t = u.ret .shortWrite ∨ t = u.update) ∧
        (i = .lit c → u.mem.stackTab = s.mem.stackTab ∧ u.stackStart = s.stackStart ∧ u.flushed = s.flushed) := by
  obtain rfl | rfl | rfl := hi
  · exact (execLit_next h).imp .inl fun ⟨u, hu, hstack, hend⟩ => ⟨u, hu, hend, fun _ => hstack⟩
  · exact (expandStep_next_writtenFor (kw := false) h).imp_right fun ⟨u, hu, hend⟩ => ⟨u, hu, hend, nofun⟩
  · exact (expandStep_next_writtenFor (kw := true) h).imp_right fun ⟨u, hu, hend⟩ => ⟨u, hu, hend, nofun⟩

/-- What a suspension and Update both keep. -/
theorem State.ret_or_update_keeps {u t : State} {o : Status} (h : t = u.ret o ∨ t = u.update) :
    t = { u with
      status := t.status, response := t.response, mem := t.mem, saveCode := t.saveCode, width := t.width
      prevCode := t.prevCode, phase := t.phase } ∧ t.mem.stackTab = u.mem.stackTab ∧
    ∀ k, k ≠ u.saveCode.toNat → Table.read t.mem.prefixTab k = Table.read u.mem.prefixTab k ∧
      Table.read t.mem.suffixTab k = Table.read u.mem.suffixTab k := by
  obtain rfl | rfl := h
  · exact ⟨rfl, rfl, fun _ _ => ⟨rfl, rfl⟩⟩
  · have hupdated := u.update_updatedTo
    refine ⟨?_, hupdated.stack_eq, fun k hk => ⟨?_, ?_⟩⟩
    · rw [hupdated.fields]
    · rw [hupdated.prefix_read, if_neg fun h => hk h.1]
    · rw [hupdated.suffix_read, if_neg fun h => hk h.1]

/-- Settles O53: an error keeps the ports, and any other end keeps what writing the bytes kept. -/
theorem ordinaryCodeFrame : Obligations.OrdinaryCodeFrame := by
  intro i c s t hi hexec
  obtain (rfl | rfl) | ⟨u, hu, hend, hstack⟩ := exec_ordinary_next hi hexec
  · exact ⟨rfl, rfl, rfl, rfl, rfl, .refl _, fun h => absurd rfl h⟩
  · exact ⟨rfl, rfl, rfl, rfl, rfl, .refl _, fun _ h => absurd rfl h⟩
  · obtain ⟨ht, hsame, htables⟩ := State.ret_or_update_keeps hend
    rw [hu.fields] at ht htables
    rw [ht]
    exact ⟨rfl, rfl, rfl, rfl, rfl, hu.dst, fun _ _ => ⟨rfl, rfl, rfl, rfl, rfl, rfl, htables, fun hlit =>
      ⟨hsame.trans (hstack hlit).1, (hstack hlit).2⟩⟩⟩

/-! ### The full table (42_code_semantics.md R159) -/

/-- With a full table Update keeps what a suspension keeps: SAVE_CODE, WIDTH and the tables. -/
theorem State.ret_or_update_of_full {u t : State} {o : Status} (hfull : u.saveCode.toNat = 4096)
    (h : t = u.ret o ∨ t = u.update) : t.saveCode = u.saveCode ∧ t.width = u.width ∧ t.mem = u.mem := by
  rw [State.update_of_full hfull] at h
  obtain rfl | rfl := h <;> exact ⟨rfl, rfl, rfl⟩

/-- Settles O55: with SAVE_CODE = 4096 every code is below SAVE_CODE, and Update makes no entry. -/
theorem fullTableStaysFrozen : Obligations.FullTableStaysFrozen := by
  intro s hfull
  refine ⟨State.update_of_full hfull, fun hend c hc => ?_, fun hinv hdecoding => ?_, fun i c t hi hexec hclosed hcycle => ?_⟩
  · have hbelow : c.toNat < s.saveCode.toNat := hfull ▸ c.isLt
    exact decodeCode_copy hend hc hbelow
  · have hregisters := hinv.registers hdecoding
    have hwidth := hregisters.save_full hfull
    refine ⟨hwidth, fun t hphase hparse => ?_⟩
    obtain ⟨hfields, -, -, hstream⟩ := parseCode_go hinv.cursors.1 hparse
    obtain ⟨-, -, hcode, -, hlength⟩ := hstream hregisters.bits_lt hregisters.width_max (hregisters.nbits_fill hphase)
    rw [hwidth] at hcode hlength
    refine ⟨hcode, hlength, ?_⟩
    rw [hfields]
    exact ⟨rfl, rfl, rfl⟩
  · obtain (rfl | rfl) | ⟨u, hu, hend, -⟩ := exec_ordinary_next hi hexec
    · exact absurd rfl hclosed
    · exact absurd rfl hcycle
    · have hsave : u.saveCode = s.saveCode := by rw [hu.fields]
      obtain ⟨htsave, htwidth, htmem⟩ := State.ret_or_update_of_full (hsave ▸ hfull) hend
      rw [htsave, htwidth, htmem, hu.fields]
      exact ⟨rfl, rfl, rfl, rfl⟩

end Sys2Proof.Machine
end

section
/-! The cycle check of COPY and KWKWK: a chain longer than the slots of STACK raises the error, a shorter one does not
(43_expansion_and_flush.md R181, R189). -/

namespace Sys2Proof.Machine

section
variable {kw : Bool} {c : CodeValue} {s : State}

theorem expandStep_of_cyclical
    (h : walkChain s.clearCode s.mem.prefixTab s.mem.suffixTab (walkStart kw c s).1 (walkStart kw c s).2 s.mem.stackTab =
      .cyclical) : expandStep kw c s = .next (s.raise .lzwPrefixChainCyclical) := by
  unfold expandStep walk
  rw [h]
  rfl

/-- A walk that finds no cycle leaves the answer to the flush. -/
theorem expandStep_next_of_not_cyclical {t : State}
    (hwalk : walkChain s.clearCode s.mem.prefixTab s.mem.suffixTab (walkStart kw c s).1 (walkStart kw c s).2 s.mem.stackTab ≠
      .cyclical) (h : expandStep kw c s = .next t) :
    ∃ stack start b, flushStep ((s.setExpansion stack start b).enterCode c .flush) = .next t := by
  unfold expandStep walk at h
  split at h
  · cases h
  · contradiction
  · exact ⟨_, _, _, h⟩

/-- Flush knows only two outcomes of its own, and Update keeps STATUS. -/
theorem flushStep_status {t : State} (h : flushStep s = .next t) :
    t.status = .closedForWrites ∨ t.status = .shortWrite ∨ t.status = s.status := by
  obtain ⟨-, rfl⟩ | ⟨l, -, -, -, rfl | rfl⟩ := flushStep_next h
  · exact .inl rfl
  · exact .inr (.inl rfl)
  · exact .inr (.inr (State.update_status _))

end

/-- Settles O51: the walk alone raises the error, just when every slot of STACK is filled before the chain comes to a literal. -/
theorem chainLongerThanTheStackIsCyclical : Obligations.ChainLongerThanTheStackIsCyclical := by
  intro kw c s slots n x hslots hx hentries hlinks
  have hstart : (walkStart kw c s).1 + 1 = slots := by
    rw [hslots]
    cases kw <;> rfl
  rw [← walkStart_code] at hx
  rw [exec_copy_or_kwkwk]
  constructor
  · rintro rfl
    refine ⟨s.raise .lzwPrefixChainCyclical, expandStep_of_cyclical ?_, rfl, rfl, rfl, rfl⟩
    rw [← hx]
    exact walkChain_cyclical (fun k hk => hentries k (by omega)) (fun k hk => hlinks k (by omega) (by omega)) _
  · intro hn hliteral hstatus t hexec
    obtain ⟨stack, start, b, hflush⟩ := expandStep_next_of_not_cyclical (hx ▸
      walkChain_not_cyclical (by omega) (fun k hk => hlinks k hk (by omega)) hliteral _) hexec
    obtain h | h | h := flushStep_status hflush <;> rw [h]
    · decide
    · decide
    · exact hstatus

end Sys2Proof.Machine
end

section
/-! Outcomes and entry checks (60_exceptions.md): the categories of an outcome, a pinned error, what every command answers before it
does anything, and the host's steps that raise nothing. -/

namespace Sys2Proof.Machine

/-! ### The categories of an outcome (60_exceptions.md R200) -/

theorem isError_iff (o : Status) : isError o = true ↔ o.code.toInt < 0 := by
  rw [isError, BitVec.msb_eq_toInt, decide_eq_true_iff]

theorem isOkTerminal_iff (o : Status) : isOkTerminal o = true ↔ o.code.toInt = 0 := by
  rw [isOkTerminal, beq_iff_eq, ← BitVec.toInt_inj]
  rfl

/-- A suspension is neither of the other two categories. -/
theorem isSuspension_iff (o : Status) : isSuspension o = true ↔ 0 < o.code.toInt := by
  have hsplit : isSuspension o = (!isError o && !isOkTerminal o) := rfl
  rw [hsplit, Bool.and_eq_true, Bool.not_eq_true', Bool.not_eq_true', ← Bool.not_eq_true, ← Bool.not_eq_true, isError_iff,
    isOkTerminal_iff]
  omega

/-- No two of the outcomes of 30_encoding.md R91 have one code. -/
theorem Status.ofCode_code (o : Status) : Status.ofCode o.code = some o := by
  cases o <;> rfl

theorem isSuspension_iff_name (o : Status) : isSuspension o = true ↔ o = .shortRead ∨ o = .shortWrite := by
  cases o <;> decide

theorem isOkTerminal_iff_name (o : Status) : isOkTerminal o = true ↔ o = .ok := by
  cases o <;> decide

/-- Settles O6: the categories by sign for any code, their names by the table of R91. -/
theorem outcomeCodesCarryTheirCategory : Obligations.OutcomeCodesCarryTheirCategory := fun o =>
  ⟨Status.ofCode_code o, isError_iff o, isOkTerminal_iff o, isSuspension_iff o, isSuspension_iff_name o,
    isOkTerminal_iff_name o⟩

/-! ### A pinned error (60_exceptions.md R206, R211) -/

theorem hostSource_status (new : SrcPort) (s : State) : (hostSource new s).status = s.status := by
  unfold hostSource
  split <;> rfl

theorem hostDestination_status (new : DstPort) (s : State) : (hostDestination new s).status = s.status := by
  unfold hostDestination
  split <;> rfl

section
variable {s t : State} (hready : ¬ s.ready)
include hready

/-- In a block that is not ready only INIT writes STATUS: the entry checks stop the other two commands. -/
theorem runCommand_status_of_not_ready {w : CommandWord} (h : runCommand w s = .next t) :
    t.status = s.status ∨ (decodeCommand w = .ok .init ∧ t.status = .ok) := by
  rcases runCommand_next h with ⟨hdecode, hexec⟩ | ⟨v, -, hexec⟩ | ⟨-, hexec⟩ | ⟨e, -, rfl⟩
  · injection hexec with ht
    exact .inr ⟨hdecode, ht ▸ rfl⟩
  · obtain ⟨-, o, rfl⟩ | ⟨hr, -⟩ := entryChecks_next hexec
    · exact .inl rfl
    · exact absurd hr hready
  · obtain ⟨-, o, rfl⟩ | ⟨hr, -⟩ := entryChecks_next hexec
    · exact .inl rfl
    · exact absurd hr hready
  · exact .inl rfl

/-- In a block that is not ready only power-on and INIT write STATUS. -/
theorem runEvent_status_of_not_ready {e : HostEvent} (h : runEvent e s = .next t) :
    t.status = s.status ∨ e = .powerOn ∨ ∃ w, e = .command w ∧ decodeCommand w = .ok .init ∧ t.status = .ok := by
  cases e with
  | command w =>
    obtain hsame | hinit := runCommand_status_of_not_ready hready h
    · exact .inl hsame
    · exact .inr (.inr ⟨w, rfl, hinit⟩)
  | concurrentCommand w =>
    injection h with ht
    exact .inl (ht ▸ rfl)
  | source new =>
    injection h with ht
    exact .inl (ht ▸ hostSource_status new s)
  | destination new =>
    injection h with ht
    exact .inl (ht ▸ hostDestination_status new s)
  | powerOn => exact .inr (.inl rfl)

end

/-- Settles O25: a pinned block is not ready, so the event that wrote STATUS is power-on or INIT. -/
theorem pinnedErrorStaysUntilInit : Obligations.PinnedErrorStaysUntilInit := by
  intro s t hstep _ herror hchanged
  have hready : ¬ s.popHost.ready := fun h => Bool.false_ne_true (h.2.symm.trans herror)
  obtain rfl | ⟨e, rest, hhost, hrun⟩ := step_next hstep
  · exact absurd rfl hchanged
  obtain hsame | rfl | ⟨w, rfl, hinit⟩ := runEvent_status_of_not_ready hready hrun
  · exact absurd hsame hchanged
  · exact .inl ⟨rest, hhost⟩
  · exact .inr ⟨w, rest, hhost, hinit⟩

/-! ### Entry checks and refusals (60_exceptions.md R207, 70_reset_and_hazards.md R230, R240, R241, R244, R245) -/

theorem exec_decode_of_uninitialized {s : State} (hinit : s.initDone = false) :
    exec .decode s = .next (s.respond .initializerNotCalled) := if_pos hinit

theorem exec_setLiteralWidth_of_uninitialized {s : State} (hinit : s.initDone = false) (w : BitVec 24) :
    exec (.setLiteralWidth w) s = .next (s.respond .initializerNotCalled) := if_pos hinit

/-- DECODE past its entry checks: the refusals of R244 and R245, then the loop. -/
theorem exec_decode_of_ready {s : State} (hready : s.ready) : exec .decode s =
    if !(s.src.wf && s.dst.wf) then .next (s.markRefused .brokenCursor)
    else if arraysOverlap s.src s.dst then .next (s.markRefused .overlappingArrays)
    else decodeLoop (passBound s) s.beginCommand :=
  calc exec .decode s = execDecode s := rfl
    _ = _ := by rw [execDecode, if_neg (by simp [hready.1]), if_neg (by simp [hready.2])]

/-- Arrays overlap when they share an address (log entry 4). -/
theorem arraysOverlap_iff (p : SrcPort) (q : DstPort) : arraysOverlap p q = true ↔
    ∃ a, p.base ≤ a ∧ a < p.base + p.data.length ∧ q.base ≤ a ∧ a < q.base + q.data.length := by
  rw [arraysOverlap, decide_eq_true_iff]
  constructor
  · intro h
    exact ⟨max p.base q.base, by omega⟩
  · rintro ⟨a, hp, hp', hq, hq'⟩
    omega

theorem State.cursorsLegal_iff (s : State) : s.cursorsLegal ↔
    s.src.ri ≤ s.src.wi ∧ s.src.wi ≤ s.src.data.length ∧ s.dst.wi ≤ s.dst.len ∧ s.dst.len = s.dst.data.length := by
  rw [State.cursorsLegal, SrcPort.wf_iff, DstPort.wf_iff, and_assoc]

/-- Settles O31: past the entry checks DECODE tests the Cursors, then the arrays. -/
theorem decodeRefusesBrokenOrOverlappingPorts : Obligations.DecodeRefusesBrokenOrOverlappingPorts := by
  intro s hready
  rw [exec_decode_of_ready hready, ← State.cursorsLegal_iff, ← arraysOverlap_iff]
  refine ⟨fun hbroken => if_pos ?_, fun hlegal hoverlap => ?_⟩
  · rwa [State.cursorsLegal, ← Bool.and_eq_true, Bool.not_eq_true, ← Bool.not_eq_true'] at hbroken
  · rw [if_neg (by simp [hlegal.1, hlegal.2]), if_pos hoverlap]
    rfl

/-- Settles O29: the three checks are the first tests of SET_LITERAL_WIDTH, before it looks at the width. -/
theorem setLiteralWidthEntryChecksInOrder : Obligations.SetLiteralWidthEntryChecksInOrder := by
  intro w s
  split
  · rename_i hinit
    exact exec_setLiteralWidth_of_uninitialized hinit w
  · rename_i hinit
    split
    · rename_i herror
      exact (if_neg hinit).trans (if_pos herror)
    · rename_i herror
      exact fun hphase => (if_neg hinit).trans ((if_neg herror).trans (if_pos hphase))

/-- Settles O22: power-on clears INIT_DONE, the first thing DECODE and SET_LITERAL_WIDTH test. -/
theorem powerOnLeavesTheBlockUninitialized : Obligations.PowerOnLeavesTheBlockUninitialized := by
  intro s rest hmark hhost
  have hstep : step s = .next (State.powerOn { s with host := rest }) := step_of_host_eq hmark hhost
  have hinit : (State.powerOn { s with host := rest }).initDone = false := rfl
  exact ⟨_, hstep, hinit, rfl, rfl, rfl, rfl, hmark, exec_decode_of_uninitialized hinit,
    exec_setLiteralWidth_of_uninitialized hinit⟩

/-! ### The host's steps between commands (60_exceptions.md R213, 70_reset_and_hazards.md R243) -/

theorem hostSource_of_allowed {s : State} {p : SrcPort} (h : srcChangeAllowed s.src p = true) :
    hostSource p s = s.setSrc p := if_pos h

theorem hostDestination_of_allowed {s : State} {p : DstPort} (h : dstChangeAllowed s.dst p = true) :
    hostDestination p s = s.setDst p := if_pos h

theorem step_of_no_event {s : State} (hmark : s.refusedMark = none) (hhost : s.host = []) : step s = .next s := by
  unfold step
  rw [hmark, hhost]

/-- Settles O21: the step is the host's change, which replaces the Cursor of the state without the event. -/
theorem allowedHostChangesTouchOnlyTheCursor : Obligations.AllowedHostChangesTouchOnlyTheCursor := by
  intro s rest hmark
  refine ⟨fun p hhost hallowed => ?_, fun p hhost hallowed => ?_, step_of_no_event hmark⟩
  · exact (step_of_host_eq hmark hhost).trans
      (congrArg Host.Outcome.next (hostSource_of_allowed (s := { s with host := rest }) hallowed))
  · exact (step_of_host_eq hmark hhost).trans
      (congrArg Host.Outcome.next (hostDestination_of_allowed (s := { s with host := rest }) hallowed))

end Sys2Proof.Machine
end

section
/-! The refusals and the host's changes (70_reset_and_hazards.md): no instruction clears the REFUSED mark, and no allowed change
breaks a Cursor, reopens a port or adds a byte to a closed source. -/

namespace Sys2Proof.Machine

/-! ### The mark (70_reset_and_hazards.md R240) -/

section
variable {s t : State}

theorem execSetLiteralWidth_refusedMark {w : BitVec 24} (h : execSetLiteralWidth w s = .next t) :
    t.refusedMark = s.refusedMark ∨ t.refusedMark.isSome = true := by
  rcases execSetLiteralWidth_next h with ⟨-, o, rfl⟩ | ⟨-, -, rfl⟩ | ⟨-, -, -, rfl⟩ | ⟨-, -, -, rfl⟩
  · exact .inl rfl
  · exact .inr rfl
  · exact .inl rfl
  · exact .inl rfl

theorem execDecode_refusedMark (h : execDecode s = .next t) :
    t.refusedMark = s.refusedMark ∨ t.refusedMark.isSome = true := by
  rcases execDecode_next h with ⟨-, o, rfl⟩ | ⟨-, -, rfl⟩ | ⟨-, -, -, rfl⟩ | ⟨-, -, hloop⟩
  · exact .inl rfl
  · exact .inr rfl
  · exact .inr rfl
  · obtain ⟨⟨-, -, hmark, -⟩, -⟩ := decodeLoop_kept hloop
    exact .inl hmark

/-- An instruction leaves the mark, or writes the action it refuses into it. -/
theorem exec_refusedMark {i : Instr} (h : exec i s = .next t) :
    t.refusedMark = s.refusedMark ∨ t.refusedMark.isSome = true := by
  cases i with
  | init => exact .inl (Host.Outcome.next.inj h ▸ rfl)
  | setLiteralWidth w => exact execSetLiteralWidth_refusedMark h
  | decode => exact execDecode_refusedMark h
  | lit c => exact .inl (literalStep_kept (s := s.enterCode c .emitLit) h).refusedMark
  | clr => exact .inl (Host.Outcome.next.inj h ▸ rfl)
  | endCode => exact .inl (Host.Outcome.next.inj h ▸ rfl)
  | copy c => exact .inl (expandStep_kept h).refusedMark
  | kwkwk c => exact .inl (expandStep_kept h).refusedMark
  | oor x => exact .inl (Host.Outcome.next.inj h ▸ rfl)

theorem step_of_marked {a : RefusedAction} (h : s.refusedMark = some a) : step s = .refused (.marked a) := by
  unfold step
  rw [h]

end

/-- Settles O18: an instruction leaves the mark or writes one, and the mark is the first thing a step tests. -/
theorem refusedMarkIsSticky : Obligations.RefusedMarkIsSticky := by
  refine ⟨fun i s t hexec hmark => ?_, fun s a => step_of_marked⟩
  obtain hsame | hsome := exec_refusedMark hexec
  · exact hsame ▸ hmark
  · exact hsome

/-! ### The host's changes (70_reset_and_hazards.md R243, R244) -/

/-- No allowed change reopens a source. Appending asks for an open one, and of the others none adds an unread byte. -/
theorem srcChangeAllowed_of_closed {old new : SrcPort} (hclosed : old.closed = true)
    (h : srcChangeAllowed old new = true) : new.closed = true ∧ new.wi - new.ri ≤ old.wi - old.ri := by
  simp only [srcChangeAllowed, Bool.or_eq_true] at h
  rcases h with ((((happend | hconsume) | hcompact) | hoverwrite) | hclose) | hlimit
  · simp [srcAppend, hclosed] at happend
  · simp only [srcConsume, Bool.and_eq_true, decide_eq_true_eq] at hconsume
    obtain ⟨⟨hnew, hri⟩, -⟩ := hconsume
    have hwi : new.wi = old.wi := by rw [hnew]
    exact ⟨by rw [hnew]; exact hclosed, by omega⟩
  · simp only [srcCompact, Bool.and_eq_true, decide_eq_true_eq] at hcompact
    obtain ⟨⟨⟨hnew, -⟩, hunread⟩, -⟩ := hcompact
    exact ⟨by rw [hnew]; exact hclosed, Nat.le_of_eq hunread⟩
  · simp only [srcOverwrite, Bool.and_eq_true, decide_eq_true_eq] at hoverwrite
    obtain ⟨⟨hnew, -⟩, -⟩ := hoverwrite
    rw [hnew]
    exact ⟨hclosed, Nat.le_refl _⟩
  · rw [of_decide_eq_true hclose]
    exact ⟨rfl, Nat.le_refl _⟩
  · simp only [srcLimit, Bool.and_eq_true, decide_eq_true_eq] at hlimit
    rw [hlimit.1]
    exact ⟨hclosed, Nat.le_refl _⟩

/-- No allowed change reopens a destination (log entry 11). -/
theorem dstChangeAllowed_of_closed {old new : DstPort} (hclosed : old.closed = true)
    (h : dstChangeAllowed old new = true) : new.closed = true := by
  simp only [dstChangeAllowed, Bool.or_eq_true] at h
  rcases h with (hdrain | hclose) | hlimit
  · simp only [dstDrain, Bool.and_eq_true, decide_eq_true_eq] at hdrain
    rw [hdrain.1]
    exact hclosed
  · rw [of_decide_eq_true hclose]
  · simp only [dstLimit, Bool.and_eq_true, decide_eq_true_eq] at hlimit
    rw [hlimit.1]
    exact hclosed

/-- Settles O19: each of the changes of R243 keeps R244 and leaves a closed port closed. -/
theorem allowedHostChangesKeepTheCursors : Obligations.AllowedHostChangesKeepTheCursors :=
  ⟨fun _ _ h hwf => ⟨srcChangeAllowed_wf hwf h, fun hclosed => srcChangeAllowed_of_closed hclosed h⟩,
    fun _ _ h hwf => ⟨dstChangeAllowed_wf hwf h, fun hclosed => dstChangeAllowed_of_closed hclosed h⟩⟩

end Sys2Proof.Machine
end

section
/-! A reissued DECODE (70_reset_and_hazards.md R248), from every state, legal or not: a pass that suspends leaves a state in which
the next pass has nothing to do but suspend again. -/

namespace Sys2Proof.Machine

/-! ### Suspended states -/

/-- The command ended in short-read or short-write. -/
def State.Suspended (t : State) : Prop := t.response = some .shortRead ∨ t.response = some .shortWrite

/-- `t` is a running command's state ended with an outcome, where one more pass of that command only ends it so. -/
def State.Repeats (t : State) : Prop :=
  ∃ (r : State) (o : Status), r.response = none ∧ t = r.ret o ∧ decodePass r = .next (r.ret o)

theorem State.not_suspended_of_silent {t : State} (h : t.response = none) : ¬ t.Suspended := by
  simp [State.Suspended, h]

theorem State.not_suspended_of_response {t : State} {o : Status} (ht : t.response = some o) (h : isSuspension o = false) :
    ¬ t.Suspended := by
  rintro (hs | hs) <;> obtain rfl := Option.some.inj (ht.symm.trans hs) <;> cases h

/-- A command issued again on a state it ended in begins with that state but for its STATUS. -/
theorem State.ret_beginCommand {r : State} (h : r.response = none) (o : Status) :
    (r.ret o).beginCommand = r.withStatus o := by
  simpa only [State.recast_id, id_eq] using State.ret_recast_beginCommand id id h o

/-- The passes do not look at STATUS, so the pass of the reissued command is the pass that only suspends. -/
theorem State.Repeats.decodePass_beginCommand {t : State} (h : t.Repeats) : decodePass t.beginCommand = .next t := by
  obtain ⟨r, o, hsilent, rfl, hpass⟩ := h
  rw [State.ret_beginCommand hsilent, decodePass_withStatus, hpass]
  exact congrArg Host.Outcome.next (State.withStatus_of_response rfl o)

/-! ### A pass that suspends -/

section
variable {s t : State} (hsilent : s.response = none) (hsuspended : t.Suspended)
include hsilent hsuspended

/-- FILL stops with the bytes it has read in the accumulator, and the read that failed fails again (41_bitstream_parser.md R130). -/
theorem parseCode_stop_repeats (hwf : s.src.wf = true) (hphase : s.phase = .fill) (h : parseCode s = .stop t) :
    t.Repeats := by
  obtain hfill | ⟨_, _, -, hgo⟩ := Flow.andThen_eq_stop h
  · obtain ⟨r, hfilled, hread, hfew, -⟩ := fillLoop_stop hwf hfill
    obtain ⟨rfl, -⟩ | ⟨rfl, -⟩ := srcRead_stop hread
    · have hkept : r.response = none ∧ r.phase = .fill := by
        rw [hfilled.fields]
        exact ⟨hsilent, hphase⟩
      have hparse : parseCode r = .stop (r.ret .shortRead) := by
        rw [parseCode, fill, fillLoop, if_pos hfew, hread]
        rfl
      exact ⟨r, .shortRead, hkept.1, rfl, decodePass_fill_stop hkept.2 hparse⟩
    · exact absurd hsuspended (State.not_suspended_of_response rfl rfl)
  · cases hgo

/-- EMIT_LIT suspends before it writes anything (43_expansion_and_flush.md R187). -/
theorem literalStep_repeats (hphase : s.phase = .emitLit) (h : literalStep s = .next t) : t.Repeats := by
  rcases literalStep_next h with ⟨-, rfl⟩ | ⟨-, -, rfl⟩ | ⟨-, -, -, rfl⟩
  · exact absurd hsuspended (State.not_suspended_of_response rfl rfl)
  · exact ⟨s, .shortWrite, hsilent, rfl, (decodePass_emitLit hphase).trans h⟩
  · exact absurd hsuspended (State.not_suspended_of_silent (by simp [hsilent]))

/-- A flush from beyond the end of STACK has no byte to write, so it does not suspend. -/
theorem tailStart_le_of_flushStep_suspended (hwf : s.dst.wf = true) (h : flushStep s = .next t) : tailStart s ≤ 4096 := by
  by_contra hbeyond
  have hnone : Table.readRun s.mem.stackTab (tailStart s) (4096 - tailStart s) = some [] := by
    rw [Nat.sub_eq_zero_of_le (by omega)]
    rfl
  have hdone : ¬ (s.addFlushed (min 0 s.dst.space)).flushed.toNat < 4096 - s.stackStart.toNat := by
    rw [Nat.zero_min, State.addFlushed_flushed, BitVec.add_zero]
    unfold tailStart at hbeyond
    omega
  rw [flushStep_eq, flushThenUpdate_cases hwf hnone, List.length_nil, if_neg hdone] at h
  split at h <;> obtain rfl := Host.Outcome.next.inj h
  · exact absurd hsuspended (State.not_suspended_of_response rfl rfl)
  · exact absurd hsuspended (State.not_suspended_of_silent (by simp [hsilent]))

/-- FLUSH suspends having filled the destination, and the rest of its tail still does not fit (43_expansion_and_flush.md R184). -/
theorem flushStep_repeats (hwf : s.dst.wf = true) (hphase : s.phase = .flush) (h : flushStep s = .next t) : t.Repeats := by
  have hle := tailStart_le_of_flushStep_suspended hsilent hsuspended hwf h
  obtain ⟨-, rfl⟩ | ⟨l, hopen, hl, -, -⟩ := flushStep_next h
  · exact absurd hsuspended (State.not_suspended_of_response rfl rfl)
  obtain ⟨-, hstep⟩ | ⟨hfew, hstep⟩ := flushStep_cases hwf hopen hl hle <;>
    obtain rfl := Host.Outcome.next.inj (h.symm.trans hstep)
  · exact absurd hsuspended (State.not_suspended_of_silent (by simp [State.flushedTo, hsilent]))
  · have hagain := flushStep_flushedTo hwf hopen hl hle (Nat.le_of_lt hfew) (Nat.le_refl _)
    exact ⟨s.flushedTo _ _, .shortWrite, hsilent, rfl,
      (decodePass_flush (s := s.flushedTo _ _) hphase).trans (hagain.trans hstep)⟩

theorem expandStep_repeats (hwf : s.dst.wf = true) {kw : Bool} {c : CodeValue} (h : expandStep kw c s = .next t) :
    t.Repeats := by
  rcases expandStep_next h with rfl | ⟨stack, start, b, hflush⟩
  · exact absurd hsuspended (State.not_suspended_of_response rfl rfl)
  · exact flushStep_repeats (s := (s.setExpansion stack start b).enterCode c .flush) hsilent hsuspended hwf rfl hflush

/-- A code that suspends has set PHASE to its resume point (log entry 13). -/
theorem dispatchCode_repeats (hwf : s.dst.wf = true) {c : CodeValue} (h : dispatchCode c s = .next t) : t.Repeats := by
  unfold dispatchCode classify at h
  split at h
  · exact literalStep_repeats (s := s.enterCode c .emitLit) hsilent hsuspended rfl h
  split at h
  · obtain rfl := Host.Outcome.next.inj h
    exact absurd hsuspended (State.not_suspended_of_silent hsilent)
  split at h
  · obtain rfl := Host.Outcome.next.inj h
    exact absurd hsuspended (State.not_suspended_of_response rfl rfl)
  split at h
  · exact expandStep_repeats hsilent hsuspended hwf h
  split at h
  · exact expandStep_repeats hsilent hsuspended hwf h
  · obtain rfl := Host.Outcome.next.inj h
    exact absurd hsuspended (State.not_suspended_of_response rfl rfl)

theorem decodePass_repeats (hcursors : s.cursorsLegal) (h : decodePass s = .next t) : t.Repeats := by
  obtain ⟨hsrc, hdst⟩ := hcursors
  cases hphase : s.phase with
  | idle =>
    obtain rfl := Host.Outcome.next.inj ((decodePass_idle hphase).symm.trans h)
    obtain hsame | herror := freshStart_response s
    · exact absurd hsuspended (State.not_suspended_of_silent (hsame.trans hsilent))
    · exact absurd hsuspended (State.not_suspended_of_response herror rfl)
  | fill =>
    cases hparse : parseCode s with
    | fault f => exact absurd hparse (parseCode_no_fault hsrc f)
    | go _ u =>
      have hkept : u.dst = s.dst ∧ u.response = s.response := by
        rw [(parseCode_go hsrc hparse).1]
        exact ⟨rfl, rfl⟩
      rw [decodePass_fill_go hphase hparse] at h
      exact dispatchCode_repeats (hkept.2.trans hsilent) hsuspended (hkept.1 ▸ hdst) h
    | stop u =>
      obtain rfl := Host.Outcome.next.inj ((decodePass_fill_stop hphase hparse).symm.trans h)
      exact parseCode_stop_repeats hsilent hsuspended hsrc hphase hparse
  | emitLit => exact literalStep_repeats hsilent hsuspended hphase ((decodePass_emitLit hphase).symm.trans h)
  | flush => exact flushStep_repeats hsilent hsuspended hdst hphase ((decodePass_flush hphase).symm.trans h)

end

/-! ### A DECODE that suspends -/

/-- A pass keeps legal Cursors legal and their arrays in place, from every state. -/
theorem State.KeptTo.portsAccepted {s t : State} (h : s.KeptTo t) (hports : s.portsAccepted) : t.portsAccepted := by
  obtain ⟨hread, hsrc⟩ := h.src hports.1.1
  obtain ⟨hsbase, hsdata, -⟩ := hread.unmoved
  obtain ⟨hdbase, hdlen, -⟩ := h.dst.unmoved
  exact hports.of_arrays ⟨hsrc, h.dst.wf hports.1.2⟩ ⟨hsbase, congrArg _ hsdata⟩ ⟨hdbase, hdlen⟩

/-- The pass that suspends a DECODE is its last. -/
theorem decodeLoop_repeats {n : Nat} {s t : State} (hsilent : s.response = none) (hports : s.portsAccepted)
    (hsuspended : t.Suspended) (h : decodeLoop n s = .next t) : t.Repeats := by
  induction n generalizing s with
  | zero => cases h
  | succ n ih =>
    unfold decodeLoop at h
    split at h
    · rename_i u hpass
      split at h
      · obtain rfl := Host.Outcome.next.inj h
        exact decodePass_repeats hsilent hsuspended hports.1 hpass
      · rename_i hgoes
        have hkept := (decodePass_kept hpass).2 hports.1.1
        exact ih (by simpa using hgoes) (hkept.portsAccepted hports) h
    · cases h
    · cases h

theorem isSuspension_of_isError {o : Status} (h : isError o = true) : isSuspension o = false := by
  rw [isSuspension, show o.code.msb = true from h]
  rfl

/-- The entry checks answer with errors, so a DECODE that suspends has passed them (60_exceptions.md R207). -/
theorem ready_of_decode_suspended {s t : State} (h : exec .decode s = .next t) (hsuspended : t.Suspended) : s.ready := by
  have hchecks := decodeEntryChecksInOrder s
  split at hchecks
  · obtain rfl := Host.Outcome.next.inj (h.symm.trans hchecks)
    exact absurd hsuspended (State.not_suspended_of_response rfl rfl)
  · refine ⟨by simpa using ‹¬ s.initDone = false›, Bool.eq_false_iff.2 fun herror => ?_⟩
    obtain rfl := Host.Outcome.next.inj (h.symm.trans (hchecks herror))
    exact absurd hsuspended (State.not_suspended_of_response rfl (isSuspension_of_isError herror))

/-- What a suspended DECODE leaves is ready for the next one. -/
theorem State.Repeats.status_not_error {t : State} (h : t.Repeats) (hsuspended : t.Suspended) : isError t.status = false := by
  obtain ⟨r, o, -, rfl, -⟩ := h
  obtain ho | ho := hsuspended <;> rw [State.ret_status, Option.some.inj ho] <;> rfl

/-- Settles O36: the reissued DECODE is accepted as the first was, and its first pass is one that only suspends. -/
theorem reissuedDecodeRepeatsItsSuspension : Obligations.ReissuedDecodeRepeatsItsSuspension := by
  intro s t hexec hsuspended
  have hready := ready_of_decode_suspended hexec hsuspended
  rcases execDecode_next hexec with ⟨hnot, -⟩ | ⟨-, -, rfl⟩ | ⟨-, -, -, rfl⟩ | ⟨-, hports, hloop⟩
  · exact absurd hready hnot
  · exact absurd hsuspended (State.not_suspended_of_silent rfl)
  · exact absurd hsuspended (State.not_suspended_of_silent rfl)
  · have hrepeats := decodeLoop_repeats (s := s.beginCommand) rfl hports hsuspended hloop
    have hkept := (decodeLoop_kept hloop).2 hports.1.1
    have htready : t.ready := ⟨hkept.initDone.trans hready.1, hrepeats.status_not_error hsuspended⟩
    exact exec_decode_of_first_pass htready (hkept.portsAccepted hports) hrepeats.decodePass_beginCommand
      (by obtain h | h := hsuspended <;> rw [h] <;> rfl)

end Sys2Proof.Machine
end
